-- ==== Sys2Proof/Word.lean ====
section
/-! DEFINITION. The word types of XFA (R11, R15): everything is unsigned, of one of three widths. -/

namespace Sys2Proof

/-- A byte, the unit of every buffer, table and stream access (R11, R64). -/
abbrev Byte := BitVec 8

/-- A 16-bit value assembled from two bytes (R11, R60): the digital mask and the analog samples. -/
abbrev Half := BitVec 16

/-- A value of the time input `now`, `TIME_W` = 32 bits of 1 ms ticks (R9, R15, D3). -/
abbrev Time := BitVec 32

end Sys2Proof
end

