-- ==== Sys2Proof/Config.lean ====
section
/-! DEFINITION. What is fixed for one XFA: the constants of R8 and R9, the parameters the spec leaves open
(R9, R10, R141), and the free values that stand for what the spec calls unspecified. -/

namespace Sys2Proof

/-! ### Constants (R8, R9) -/

/-- `DELIM`, the start delimiter (R8). -/
@[simp] abbrev Config.delim : Byte := 0x7E
/-- `LEN_MAX`, the largest region (R8). -/
@[simp] abbrev Config.lenMax : Nat := 255
/-- `BODY_MAX`, the largest body of a frame built by DSP (R8, C2). -/
@[simp] abbrev Config.bodyMax : Nat := 252
/-- `CSUM_BASE` (R8). -/
@[simp] abbrev Config.csumBase : Byte := 0xFF
/-- `ID_NONE`, the frame ID that means "no reply expected" (R8). -/
@[simp] abbrev Config.idNone : Byte := 0
/-- `ID_HI`, the highest allocatable ID (R9, D12). -/
@[simp] abbrev Config.idHi : Byte := 9
/-- `ZB_RX_HDR`, header bytes of a ZigBee Receive Packet (R8). -/
@[simp] abbrev Config.zbRxHdr : Nat := 12
/-- `RESYNC_TICKS` (R9, D4). -/
@[simp] abbrev Config.resyncTicks : Nat := 1000
/-- `SYNC_TICKS` (R9, D3, D19). -/
@[simp] abbrev Config.syncTicks : Nat := 500
/-- `BUF_BYTES`, the size of the frame buffer (R9, D9). -/
@[simp] abbrev Config.bufBytes : Nat := 255
/-- `N_SYNC` at reset: the spec's default; any value of at least 1 is allowed (R9, D19; log 16). -/
@[simp] abbrev Config.nSync : Nat := 1

/-! ### Parameters (R9, R10, R141) -/

/-- The frame-type codes and the discovery command code (R10). The source gives no numbers (N1, D21). -/
structure Codes where
  tAtCmd : Byte
  tZbTx : Byte
  tRemoteAtCmd : Byte
  tAtResp : Byte
  tZbRx : Byte
  tIoSample : Byte
  tRemoteAtResp : Byte
  /-- `DISCOVERY_CMD[0]`. -/
  disc0 : Byte
  /-- `DISCOVERY_CMD[1]`. -/
  disc1 : Byte
  deriving DecidableEq, Repr

/-- The seven frame-type codes of a parameter set. -/
def Codes.types (c : Codes) : List Byte :=
  [c.tAtCmd, c.tZbTx, c.tRemoteAtCmd, c.tAtResp, c.tZbRx, c.tIoSample, c.tRemoteAtResp]

/-- R10: the type codes are pairwise distinct. -/
abbrev Codes.Distinct (c : Codes) : Prop := c.types.Nodup

/-- The defaults of R10. PRESUMED: the spec itself marks them as general knowledge (G1; log 2). -/
def Codes.default : Codes where
  tAtCmd := 0x08
  tZbTx := 0x10
  tRemoteAtCmd := 0x17
  tAtResp := 0x88
  tZbRx := 0x90
  tIoSample := 0x92
  tRemoteAtResp := 0x97
  disc0 := 0x4E
  disc1 := 0x44

/-- The two values of `ID_LO` that the source leaves open (R9, D12, C6). -/
inductive IdBand where
  /-- `ID_LO = 1`, the "9→0" variant. -/
  | fromOne
  /-- `ID_LO = 2`, the "9→2" variant. -/
  | fromTwo
  deriving DecidableEq, Repr, Inhabited

/-- `ID_LO` (R9). -/
def IdBand.lo : IdBand → Byte
  | .fromOne => 1
  | .fromTwo => 2

/-- The parameters of one XFA; no operation writes them (R20). -/
structure Params where
  /-- R10. -/
  codes : Codes
  /-- R9, `ID_LO`. -/
  idBand : IdBand
  /-- R141: XFA as a whole (true) or a stand-alone ASM (false). -/
  rtrAttached : Bool
  deriving DecidableEq, Repr

/-- Which `ID_LO` this XFA has: OPEN in the spec, so no value here (R9, D12; log 1). -/
opaque Config.idBand : IdBand

/-- The parameters after reset: the default codes (log 2), `ID_LO` open (log 1), RTR attached (log 21). -/
def Config.params : Params where
  codes := Codes.default
  idBand := Config.idBand
  rtrAttached := true

/-! ### Free values (log 12) -/

/-- A time register after the draw-th time state became unspecified; the second argument tells registers apart
(0 is `asm.t_prev`, `k + 1` is `w[k].t_start`). R26, R270, U2, U3. -/
opaque Config.freeTime : Nat → Nat → Time

/-- A byte after the draw-th time state became unspecified; the second argument is the address in `asm.buf`,
`256 + k` for `w[k].id`, or `512 + i` for a byte that an incomplete command reads. R25, R26, R270, U1, U3, U25. -/
opaque Config.freeByte : Nat → Nat → Byte

end Sys2Proof
end

