-- ==== Sys2Proof/Syntax.lean ====
section
/-! DEFINITION. The operations of XFA, one constructor per row of spec/opcode_table.json (R110, R98, R99, R90), and
the names the decode maps use: the states of ASM, the ten cases of RXBYTE, the five classes of ROUTE, the ports. -/

namespace Sys2Proof

/-- The five values of `asm.st` (R22); codes 5, 6 and 7 have no representation (U4). -/
inductive AsmSt where
  | awaitDelimiter
  | lengthHigh
  | lengthLow
  | payload
  | complete
  deriving DecidableEq, Repr

/-- The ten cases of RXBYTE, in the order of R98's rows. -/
inductive RxbRow where
  | drop
  | resync
  | start
  | skip
  | lenhiOk
  | lenhiBad
  | lenlo
  | data
  | csumOk
  | csumBad
  deriving DecidableEq, Repr

/-- The five classes of a completed frame (R99). -/
inductive RtClass where
  | ioSample
  | atResp
  | remoteAtResp
  | zbRx
  | unknown
  deriving DecidableEq, Repr

/-- Every row of the opcode table. Operands are the table's own fields; `now` is an input, not an operand (R15). -/
inductive Instr where
  /-- cmd_op 0x0 (R111). -/
  | nop
  /-- cmd_op 0x1 (R142). -/
  | asmReset
  /-- cmd_op 0x2 (R172). -/
  | allocId
  /-- cmd_op 0x3 (R174). -/
  | sendFf (ty : Byte) (body : List Byte)
  /-- cmd_op 0x4 (R175); `cb` is the optional caller tag. -/
  | sendAsync (ty : Byte) (body : List Byte) (cb : Option Byte)
  /-- cmd_op 0x5 (R190). -/
  | sendSync (ty : Byte) (body : List Byte) (k : Byte)
  /-- cmd_op 0x6 (R160). -/
  | serialize (region : List Byte)
  /-- cmd_op 0x7 (R230). -/
  | subscribe (sel : BitVec 2)
  /-- cmd_op 0x8 (R180). -/
  | sendAt (body : List Byte) (cb : Option Byte)
  /-- cmd_op 0x9 (R181). -/
  | sendRemoteAt (body : List Byte) (cb : Option Byte)
  /-- cmd_op 0xA (R182). -/
  | sendData (body : List Byte) (cb : Option Byte)
  /-- cmd_op 0xB, reserved (R111). -/
  | reservedB
  /-- cmd_op 0xC, reserved (R111). -/
  | reservedC
  /-- cmd_op 0xD, reserved (R111). -/
  | reservedD
  /-- cmd_op 0xE, reserved (R111). -/
  | reservedE
  /-- cmd_op 0xF, reserved (R111). -/
  | reservedF
  /-- RX byte port (R130, R104). -/
  | rxbyte (b : Byte)
  /-- Timer (R192). -/
  | syncExpire (k : Byte)
  /-- The `rst` input (R270). -/
  | reset
  /-- R98 row 1 (R140). -/
  | rxbDrop (b : Byte)
  /-- R98 row 2, byte 0x7E (R133). -/
  | rxbResync
  /-- R98 row 3, byte 0x7E (R132). -/
  | rxbStart
  /-- R98 row 4 (R131). -/
  | rxbSkip (b : Byte)
  /-- R98 row 5, byte 0x00 (R134). -/
  | rxbLenhiOk
  /-- R98 row 6 (R135). -/
  | rxbLenhiBad (b : Byte)
  /-- R98 row 7 (R136). -/
  | rxbLenlo (b : Byte)
  /-- R98 row 8 (R137). -/
  | rxbData (b : Byte)
  /-- R98 row 9 (R138). -/
  | rxbCsumOk (b : Byte)
  /-- R98 row 10 (R139). -/
  | rxbCsumBad (b : Byte)
  /-- The hand-over step (R141). -/
  | routeAndClear
  /-- R99 (R211). -/
  | rtIoSample
  /-- R99 (R213). -/
  | rtAtResp
  /-- R99 (R216). -/
  | rtRemoteAtResp
  /-- R99 (R218). -/
  | rtZbRx
  /-- R99 (R219). -/
  | rtUnknown
  /-- One whole frame on the wire (R90). -/
  | frame (region : List Byte)
  deriving DecidableEq, Repr

/-- Where a request reaches XFA: the formats of the opcode table, each with its own words. -/
inductive Port where
  /-- `rst` (R103). -/
  | rst
  /-- The RX byte port (R104). -/
  | rx
  /-- The timer agent (R192). -/
  | timer
  /-- The command port (R106). -/
  | cmd
  /-- One case of RXBYTE on its own, table format RXB (log 6). -/
  | asmStep
  /-- ROUTE_AND_CLEAR on its own, table format STEP (log 6). -/
  | routeStep
  /-- One case of ROUTE on its own, table format RT (log 6). -/
  | rtrStep
  /-- A whole frame, table format WIRE (log 7). -/
  | wire
  deriving DecidableEq, Repr

/-- One requested operation as it stands at a port: the value of `now` in its cycle (R102), the port, and the bytes
there. -/
structure Request where
  now : Time
  port : Port
  data : List Byte
  deriving DecidableEq, Repr

end Sys2Proof
end

