-- ==== Sys2Proof/WellFormed.lean ====
section
/-! DEFINITION. Which terms of `Instr` the encodings of the spec can express. -/

namespace Sys2Proof

/-- `cmd_len` and `lenLo` are 8 bits wide (R106, R160, D37): at most `LEN_MAX` bytes. -/
def fitsLen (bytes : List Byte) : Bool := decide (bytes.length ≤ Config.lenMax)

/-- A term is well formed when some word of its port stands for it. Lengths fit the 8-bit length (R91, R106); a
skipped byte is no delimiter and a bad high length byte is not zero (R98 rows 4 and 6). -/
def Instr.wf : Instr → Bool
  | .nop => true
  | .asmReset => true
  | .allocId => true
  | .sendFf _ body => fitsLen body
  | .sendAsync _ body _ => fitsLen body
  | .sendSync _ body _ => fitsLen body
  | .serialize region => fitsLen region
  | .subscribe _ => true
  | .sendAt body _ => fitsLen body
  | .sendRemoteAt body _ => fitsLen body
  | .sendData body _ => fitsLen body
  | .reservedB => true
  | .reservedC => true
  | .reservedD => true
  | .reservedE => true
  | .reservedF => true
  | .rxbyte _ => true
  | .syncExpire _ => true
  | .reset => true
  | .rxbDrop _ => true
  | .rxbResync => true
  | .rxbStart => true
  | .rxbSkip b => b != Config.delim
  | .rxbLenhiOk => true
  | .rxbLenhiBad b => b != 0
  | .rxbLenlo _ => true
  | .rxbData _ => true
  | .rxbCsumOk _ => true
  | .rxbCsumBad _ => true
  | .routeAndClear => true
  | .rtIoSample => true
  | .rtAtResp => true
  | .rtRemoteAtResp => true
  | .rtZbRx => true
  | .rtUnknown => true
  | .frame region => fitsLen region

end Sys2Proof
end

