-- ==== Sys2Proof/Decode.lean ====
section
/-! DEFINITION. The decode maps of the spec (R98, R99, R106, R110, R90), total on any bytes and rejecting by name, and
the encoder written from the same tables. Also the wire format they share with SER: checksum and frame (R92, R160).

A word of XFA stands at a port (R101 to R106), so decoding takes the port and the bytes there. The byte layout of a
command record and of a case selector is the model's own (DESIGN CHOICE, log 4); the codes in it are the spec's. -/

namespace Sys2Proof

/-! ### Byte helpers -/

/-- `u16be` (R11, R60). -/
def u16be (h l : Byte) : Half := h ++ l

/-- The high byte of a length, `n[15:8]` (R91). -/
def lenHiByte (n : Nat) : Byte := BitVec.ofNat 8 (n / 256)

/-- The low byte of a length, `n[7:0]` (R91). -/
def lenLoByte (n : Nat) : Byte := BitVec.ofNat 8 n

/-- `sum` (R12): the sum of the bytes as a natural number. -/
def sumBytes (r : List Byte) : Nat := (r.map BitVec.toNat).sum

/-- `cks` (R92): `0xFF − (sum(r) mod 256)`. -/
def cks (r : List Byte) : Byte := BitVec.ofNat 8 (0xFF - sumBytes r % 256)

/-- `serialize` (R160): delimiter, big-endian length, region, checksum. -/
def serialize (r : List Byte) : List Byte :=
  [Config.delim, lenHiByte r.length, lenLoByte r.length] ++ r ++ [cks r]

/-! ### State codes (R22) -/

/-- The 3-bit code of `asm.st`. -/
def AsmSt.code : AsmSt → BitVec 3
  | .awaitDelimiter => 0
  | .lengthHigh => 1
  | .lengthLow => 2
  | .payload => 3
  | .complete => 4

/-- The state of a code; 5, 6 and 7 have no meaning (R22, U4). -/
def AsmSt.ofCode (c : BitVec 3) : Option AsmSt :=
  match c.toNat with
  | 0 => some .awaitDelimiter
  | 1 => some .lengthHigh
  | 2 => some .lengthLow
  | 3 => some .payload
  | 4 => some .complete
  | _ => none

/-- "Mid-frame (position > 0)" (R23). -/
def AsmSt.midFrame : AsmSt → Bool
  | .lengthHigh => true
  | .lengthLow => true
  | .payload => true
  | .awaitDelimiter => false
  | .complete => false

/-! ### The decode maps -/

/-- R98, R130: which case an RXBYTE of `b` performs. `slow` is `elapsed(asm.t_prev) > RESYNC_TICKS`, `full` is
`asm.cnt = asm.len`, `ok` is `b = asm.csum`. The tests stand in the order of the rows. -/
def rxbRow (st : AsmSt) (b : Byte) (slow full ok : Bool) : RxbRow :=
  if st = .complete then .drop
  else if st.midFrame && b == Config.delim && slow then .resync
  else match st with
    | .awaitDelimiter => if b = Config.delim then .start else .skip
    | .lengthHigh => if b = 0 then .lenhiOk else .lenhiBad
    | .lengthLow => .lenlo
    | .payload => if !full then .data else if ok then .csumOk else .csumBad
    | .complete => .drop

/-- The instruction that a row and its byte make. -/
def RxbRow.toInstr (b : Byte) : RxbRow → Instr
  | .drop => .rxbDrop b
  | .resync => .rxbResync
  | .start => .rxbStart
  | .skip => .rxbSkip b
  | .lenhiOk => .rxbLenhiOk
  | .lenhiBad => .rxbLenhiBad b
  | .lenlo => .rxbLenlo b
  | .data => .rxbData b
  | .csumOk => .rxbCsumOk b
  | .csumBad => .rxbCsumBad b

/-- R99, R210: the class of a region by its type byte; an empty region has none. -/
def rtClass (c : Codes) : List Byte → RtClass
  | [] => .unknown
  | t :: _ =>
    if t = c.tIoSample then .ioSample
    else if t = c.tAtResp then .atResp
    else if t = c.tRemoteAtResp then .remoteAtResp
    else if t = c.tZbRx then .zbRx
    else .unknown

/-- The instruction that a class names. -/
def RtClass.toInstr : RtClass → Instr
  | .ioSample => .rtIoSample
  | .atResp => .rtAtResp
  | .remoteAtResp => .rtRemoteAtResp
  | .zbRx => .rtZbRx
  | .unknown => .rtUnknown

/-- Why bytes at a port are no word. -/
inductive DecodeError where
  /-- Fewer bytes than the port's record has. -/
  | shortRecord
  /-- The staging bytes are fewer than `cmd_len` (R106). -/
  | shortStaging
  /-- A case selector with state code 5, 6 or 7 (R22, U4). -/
  | badState
  /-- A frame that does not begin with `DELIM` (R90). -/
  | badDelimiter
  /-- A frame with `lenHi ≠ 0x00` (R91, R100 (a)). -/
  | badLength
  /-- A frame with another number of bytes than `n + 4` (R90). -/
  | badFrameSize
  /-- A frame with an invalid checksum (R92, R100 (b)). -/
  | badChecksum
  deriving DecidableEq, Repr

/-- Operations that take `stg[0..cmd_len)` (R106, R110). -/
def usesStaging (op : BitVec 4) : Bool :=
  match op.toNat with
  | 3 => true
  | 4 => true
  | 5 => true
  | 6 => true
  | 8 => true
  | 9 => true
  | 10 => true
  | _ => false

/-- R110: the operation of a `cmd_op` code with the fields it names (R106). -/
def decodeOp (op : BitVec 4) (ty : Byte) (bytes : List Byte) (cb : Option Byte) (k : Byte) (sel : BitVec 2) : Instr :=
  match op.toNat with
  | 0 => .nop
  | 1 => .asmReset
  | 2 => .allocId
  | 3 => .sendFf ty bytes
  | 4 => .sendAsync ty bytes cb
  | 5 => .sendSync ty bytes k
  | 6 => .serialize bytes
  | 7 => .subscribe sel
  | 8 => .sendAt bytes cb
  | 9 => .sendRemoteAt bytes cb
  | 10 => .sendData bytes cb
  | 11 => .reservedB
  | 12 => .reservedC
  | 13 => .reservedD
  | 14 => .reservedE
  | _ => .reservedF

/-- A command record (R106): `cmd_op`, `cmd_type`, `cmd_len`, `cmd_has_cb`, `cmd_tag`, `cmd_k`, `cmd_sel`, each in the low
bits of a byte of its own, then the staging buffer. Fields an operation does not name are ignored (U12). -/
def decodeCmd : List Byte → Except DecodeError Instr
  | op :: ty :: len :: hasCb :: tag :: k :: sel :: stg =>
    let code := op.extractLsb' 0 4
    if usesStaging code && decide (stg.length < len.toNat) then .error .shortStaging
    else .ok (decodeOp code ty (stg.take len.toNat) (if hasCb.getLsbD 0 then some tag else none) k (sel.extractLsb' 0 2))
  | _ => .error .shortRecord

/-- A case of RXBYTE (table format RXB): the byte, then the selector `asm.st` code (bits 2:0), `slow` (3), `full` (4),
`ok` (5); decoded by R98. -/
def decodeRxb : List Byte → Except DecodeError Instr
  | b :: sel :: _ =>
    match AsmSt.ofCode (sel.extractLsb' 0 3) with
    | none => .error .badState
    | some st => .ok ((rxbRow st b (sel.getLsbD 3) (sel.getLsbD 4) (sel.getLsbD 5)).toInstr b)
  | _ => .error .shortRecord

/-- A frame on the wire (R90): exactly `n + 4` bytes. -/
def decodeWire : List Byte → Except DecodeError Instr
  | d :: hi :: lo :: rest =>
    if d ≠ Config.delim then .error .badDelimiter
    else if hi ≠ 0 then .error .badLength
    else if rest.length ≠ lo.toNat + 1 then .error .badFrameSize
    else if rest.drop lo.toNat ≠ [cks (rest.take lo.toNat)] then .error .badChecksum
    else .ok (.frame (rest.take lo.toNat))
  | _ => .error .shortRecord

/-- The decoder: which operation the bytes at a port request. Total; it rejects by name. -/
def decode (c : Codes) (p : Port) (bytes : List Byte) : Except DecodeError Instr :=
  match p with
  | .rst => .ok .reset
  | .rx =>
    match bytes with
    | b :: _ => .ok (.rxbyte b)
    | [] => .error .shortRecord
  | .timer =>
    match bytes with
    | k :: _ => .ok (.syncExpire k)
    | [] => .error .shortRecord
  | .cmd => decodeCmd bytes
  | .asmStep => decodeRxb bytes
  | .routeStep => .ok .routeAndClear
  | .rtrStep => .ok (rtClass c bytes).toInstr
  | .wire => decodeWire bytes

/-! ### Requests that are not one whole word (R100, R104, R106; log 4) -/

/-- A command presented with fewer bytes than its operation reads: a pin, or a byte of `stg[0..cmd_len)`, has no known value.
With no byte at all there is no command (`cmd_valid = 0`). -/
def Request.incomplete (r : Request) : Bool :=
  match r.port, r.data with
  | .cmd, b :: more =>
    match decodeCmd (b :: more) with
    | .ok _ => false
    | .error _ => true
  | _, _ => false

/-- The bytes of a batch after the first: they stay requested, one byte per cycle (R104). -/
def batchRest (now : Time) : List Byte → List Request
  | [] => []
  | [_] => []
  | _ :: b :: more => [⟨now, .rx, b :: more⟩]

/-- What stays requested of a request when its next operation is performed. Received bytes come one after another (R104), and so
do bytes on the wire that are no valid frame: "None of them traps" (R100). -/
def Request.left (r : Request) : List Request :=
  match r.port with
  | .rx => batchRest r.now r.data
  | .wire =>
    match decodeWire r.data with
    | .ok _ => []
    | .error _ => batchRest r.now r.data
  | _ => []

/-! ### The encoder -/

/-- A command record with the fields of R106. -/
def cmdRecord (op ty : Byte) (bytes : List Byte) (cb : Option Byte) (k sel : Byte) : List Byte :=
  [op, ty, lenLoByte bytes.length, if cb.isSome then 1 else 0, cb.getD 0, k, sel] ++ bytes

/-- The selector byte of a case of RXBYTE. -/
def selByte (st : AsmSt) (slow full ok : Bool) : Byte :=
  BitVec.ofNat 8 (st.code.toNat + 8 * slow.toNat + 16 * full.toNat + 32 * ok.toNat)

/-- The port and the bytes that request an operation (R90, R98, R99, R106, R110). -/
def encode (c : Codes) : Instr → Port × List Byte
  | .nop => (.cmd, cmdRecord 0x0 0 [] none 0 0)
  | .asmReset => (.cmd, cmdRecord 0x1 0 [] none 0 0)
  | .allocId => (.cmd, cmdRecord 0x2 0 [] none 0 0)
  | .sendFf ty body => (.cmd, cmdRecord 0x3 ty body none 0 0)
  | .sendAsync ty body cb => (.cmd, cmdRecord 0x4 ty body cb 0 0)
  | .sendSync ty body k => (.cmd, cmdRecord 0x5 ty body none k 0)
  | .serialize region => (.cmd, cmdRecord 0x6 0 region none 0 0)
  | .subscribe sel => (.cmd, cmdRecord 0x7 0 [] none 0 (sel.setWidth 8))
  | .sendAt body cb => (.cmd, cmdRecord 0x8 0 body cb 0 0)
  | .sendRemoteAt body cb => (.cmd, cmdRecord 0x9 0 body cb 0 0)
  | .sendData body cb => (.cmd, cmdRecord 0xA 0 body cb 0 0)
  | .reservedB => (.cmd, cmdRecord 0xB 0 [] none 0 0)
  | .reservedC => (.cmd, cmdRecord 0xC 0 [] none 0 0)
  | .reservedD => (.cmd, cmdRecord 0xD 0 [] none 0 0)
  | .reservedE => (.cmd, cmdRecord 0xE 0 [] none 0 0)
  | .reservedF => (.cmd, cmdRecord 0xF 0 [] none 0 0)
  | .rxbyte b => (.rx, [b])
  | .syncExpire k => (.timer, [k])
  | .reset => (.rst, [])
  | .rxbDrop b => (.asmStep, [b, selByte .complete false false false])
  | .rxbResync => (.asmStep, [0x7E, selByte .lengthHigh true false false])
  | .rxbStart => (.asmStep, [0x7E, selByte .awaitDelimiter false false false])
  | .rxbSkip b => (.asmStep, [b, selByte .awaitDelimiter false false false])
  | .rxbLenhiOk => (.asmStep, [0x00, selByte .lengthHigh false false false])
  | .rxbLenhiBad b => (.asmStep, [b, selByte .lengthHigh false false false])
  | .rxbLenlo b => (.asmStep, [b, selByte .lengthLow false false false])
  | .rxbData b => (.asmStep, [b, selByte .payload false false false])
  | .rxbCsumOk b => (.asmStep, [b, selByte .payload false true true])
  | .rxbCsumBad b => (.asmStep, [b, selByte .payload false true false])
  | .routeAndClear => (.routeStep, [])
  | .rtIoSample => (.rtrStep, [c.tIoSample])
  | .rtAtResp => (.rtrStep, [c.tAtResp])
  | .rtRemoteAtResp => (.rtrStep, [c.tRemoteAtResp])
  | .rtZbRx => (.rtrStep, [c.tZbRx])
  | .rtUnknown => (.rtrStep, [])
  | .frame region => (.wire, serialize region)

/-! ### Words as the opcode table numbers them -/

/-- The first `n` bytes of a table word: bit 0 is the least significant bit of the first byte. -/
def wordBytes (n w : Nat) : List Byte := (List.range n).map fun i => BitVec.ofNat 8 (w >>> (8 * i))

/-- The port and bytes that a table word stands for. The table does not write a row's format into its word, and
equal words stand in several formats, so the model fixes which one is meant (DESIGN CHOICE, log 5): a word of three
or more bytes that begins with `7E 00` is a frame; the byte `0x7E` is the delimiter seen in AwaitDelimiter; a byte
over 0xF that is a default type code of the router is that type byte, the rest of its region zero; everything else
is a command record, its other fields zero. -/
def tableSample (nbits w : Nat) : Port × List Byte :=
  let b0 : Byte := BitVec.ofNat 8 w
  if nbits > 16 && w % 65536 == 0x007E then
    (.wire, wordBytes ((w >>> 16) % 256 + 4) w)
  else if w == 0x7E then (.asmStep, [b0, selByte .awaitDelimiter false false false])
  else if b0.toNat > 0xF && decide (rtClass Codes.default [b0] ≠ .unknown) then
    (.rtrStep, wordBytes 16 w)
  else (.cmd, wordBytes (7 + (w >>> 16) % 256) w)

/-- The instruction the decoder reads from a table word. -/
def decodeTableWord (nbits w : Nat) : Option Instr :=
  match decode Codes.default (tableSample nbits w).1 (tableSample nbits w).2 with
  | .ok i => some i
  | .error _ => none

end Sys2Proof
end

