-- ==== Sys2Proof/Machine/State.lean ====
section
/-! DEFINITION. The state of XFA as plain data (R20 to R36): the tuple of ASM, DSP and RTR, with the inputs, the
outputs and the parameters that `step` needs beside it. -/

namespace Sys2Proof.Machine

/-- The frame buffer's contents: (address, byte) pairs, addresses strictly rising. An unlisted address holds no known
value (R25; log 11). -/
abbrev Memory := List Host.Cell

/-- ASM (R21). -/
structure Asm where
  st : AsmSt
  len : Byte
  cnt : Byte
  csum : Byte
  buf : Memory
  tPrev : Time
  deriving DecidableEq, Repr

/-- The callback of a slot (R31): no callback, an opaque caller tag, or a sync-waiter index. -/
inductive Cb where
  | none
  | tag (t : Byte)
  | sync (k : Byte)
  deriving DecidableEq, Repr

/-- A slot of the pending-request table (R31). -/
structure Slot where
  occupied : Bool
  cb : Cb
  deriving DecidableEq, Repr

/-- The empty slot: the clearing rule writes both fields (R31). -/
def Slot.empty : Slot := ⟨false, .none⟩

/-- A sync waiter (R33). -/
structure Waiter where
  waiting : Bool
  id : Byte
  tStart : Time
  deriving DecidableEq, Repr

/-- DSP (R30, R31, R33). `TABLE_N` is 10 (R9); `N_SYNC` is the length of `w` (log 16). -/
structure Dsp where
  nextId : Byte
  tbl : Vector Slot 10
  w : List Waiter
  deriving DecidableEq, Repr

/-- RTR's subscriber registry (R35). -/
structure Sub where
  dioEn : Bool
  aioEn : Bool
  rxdEn : Bool
  deriving DecidableEq, Repr

/-- The Frame that ASM exposes and events carry (R28, R232); type, ID and body are parts of the region. -/
structure Frame where
  region : List Byte
  checksum : Byte
  deriving DecidableEq, Repr

/-- The six events (R108, R242). -/
inductive Event where
  /-- `RESP(tag, id, frame)`. -/
  | resp (tag id : Byte) (frame : Frame)
  /-- `DIO(value)`. -/
  | dio (value : Byte)
  /-- `AIO(a0, a1, a2, a3)`; absent is `none` (R212, C4). -/
  | aio (a0 a1 a2 a3 : Option Half)
  /-- `RXD(data)`. -/
  | rxd (data : List Byte)
  /-- `SYNC_DONE(k, frame)`. -/
  | syncDone (k : Byte) (frame : Frame)
  /-- `SYNC_NOFRAME(k)`. -/
  | syncNoframe (k : Byte)
  deriving DecidableEq, Repr

/-- The causes a rule notes (R240). -/
inductive Cause where
  | badLength
  | badChecksum
  | correlationMiss
  | sendTimeout
  | unknownType
  | frameAbandoned
  | byteDropped
  | shortFrame
  | refused
  deriving DecidableEq, Repr

/-- The result of a command (R107): `res_ok`, and `res_id` where the operation returns one. -/
structure Result where
  ok : Bool
  id : Option Byte
  deriving DecidableEq, Repr

/-- What SER puts on the TX port: the `tx_flush` strobe and the bytes (R105). -/
inductive TxItem where
  | flush
  | byte (b : Byte)
  deriving DecidableEq, Repr

/-- The outputs (R20, R14; log 13): the TX stream written so far, and what the last operation emitted, returned and
noted. -/
structure Out where
  tx : List TxItem
  events : List Event
  result : Option Result
  notes : List Cause
  deriving DecidableEq, Repr

/-- The whole of it. `asm`, `dsp`, `sub` are the spec's state (R20); the other fields are the model's own. -/
structure State where
  asm : Asm
  dsp : Dsp
  sub : Sub
  /-- The parameters (R9, R10, R141); no operation writes them. -/
  par : Params
  /-- The time input of the operation being performed (R15, R102). -/
  now : Time
  /-- The operations requested and not yet performed, in the order in which they take effect (R69; log 3). -/
  inputs : List Request
  out : Out
  /-- How many times state or a command's bytes have been unspecified so far: the argument of the free values (log 12). -/
  draws : Nat
  deriving DecidableEq, Repr

/-- XFA has no fault: "There is no fatal error path in the core" (60_exceptions.md, R240). Hence no constructor (log 15). -/
inductive Fault where
  deriving DecidableEq, Repr

/-- Why the model gives a request no meaning. All are safe: the model stops where the spec gives no effect. -/
inductive Refusal where
  /-- Raised by an arm of `exec` without a meaning. Safe. No arm is left so. -/
  | notModelled (mnemonic : String)
  /-- Raised by an RXB row that is not the one R98 selects in this state (log 6). Safe. -/
  | rowNotSelected (row : RxbRow)
  /-- Raised by ROUTE_AND_CLEAR and the RT rows when no Frame is exposed, when RTR is not attached, or when the frame is of
  another class (R99, R141; log 6). Safe. -/
  | routeNotSelected
  /-- Raised by SYNC_EXPIRE when it is not enabled: "it does not exist" (R192; log 19). Safe. -/
  | expireNotEnabled (k : Byte)
  deriving DecidableEq, Repr

/-- What a meaning answers. -/
abbrev Answer := Host.Outcome State Fault Refusal

/-! ### Reset (R270) -/

/-- ASM after reset (R270). `tPrev` is unspecified in the spec; zero here (DESIGN CHOICE, log 9). -/
def Asm.reset : Asm where
  st := .awaitDelimiter
  len := 0
  cnt := 0
  csum := Config.csumBase
  buf := []
  tPrev := 0

/-- A waiter after reset (R270). `id` and `tStart` are unspecified in the spec; zero here (DESIGN CHOICE, log 10). -/
def Waiter.reset : Waiter := ⟨false, 0, 0⟩

/-- DSP after reset (R270, R30). -/
def Dsp.reset (p : Params) : Dsp where
  nextId := p.idBand.lo
  tbl := Vector.replicate 10 Slot.empty
  w := List.replicate Config.nSync Waiter.reset

/-- The state after reset of an XFA with the given parameters. -/
def State.resetOf (p : Params) : State where
  asm := Asm.reset
  dsp := Dsp.reset p
  sub := ⟨false, false, false⟩
  par := p
  now := 0
  inputs := []
  out := ⟨[], [], none, []⟩
  draws := 0

/-- The machine right after reset (R270). -/
def State.reset : State := State.resetOf Config.params

end Sys2Proof.Machine
end

