-- ==== Sys2Proof/Machine/Ops.lean ====
section
/-! DEFINITION. The named operations over memory, registers and ports that the meanings share: the frame buffer
(R25, R64), the outputs (R14, R105, R107, R108), *clear* (R26), the allocation and store steps (R171, R173), the table
lookup and clear (R214), the waiters (R190 to R192).

XFA takes no exception: what a processor does by trap entry is here the emission of an event, one shared operation
(`State.emit`), which saves nothing, changes no mode and transfers no control (R244); there is no return from it
(R245). A silent cause is `State.note` (R240). -/

namespace Sys2Proof.Machine

/-! ### The frame buffer -/

/-- The byte listed at an address, if any. -/
def Memory.read : Memory → Nat → Option Byte
  | [], _ => none
  | (x, v) :: m, a => if a = x then some v else Memory.read m a

/-- A byte write that keeps the addresses strictly rising (R64: one byte per access). -/
def Memory.write : Memory → Nat → Byte → Memory
  | [], a, v => [(a, v)]
  | (x, u) :: m, a, v =>
    if a < x then (a, v) :: (x, u) :: m
    else if a = x then (a, v) :: m
    else (x, u) :: Memory.write m a v

/-- The canonical form: addresses strictly rising, all inside the buffer (R25, R38 (a)). An unlisted address reads as
no value, which no entry equals. -/
abbrev Memory.Wf (m : Memory) : Prop :=
  m.Pairwise (fun c d => c.1 < d.1) ∧ ∀ c ∈ m, c.1 < Config.bufBytes

/-- `asm.buf[i]` (R13). A byte that holds no known value reads as a free value (U1; log 11). -/
def State.bufByte (s : State) (i : Nat) : Byte :=
  (s.asm.buf.read i).getD (Config.freeByte s.draws i)

/-- `asm.buf[0..n)`. -/
def State.bufBytes (s : State) (n : Nat) : List Byte := (List.range n).map s.bufByte

/-- `asm.buf[i] <- v` (R13). -/
def State.bufWrite (s : State) (i : Nat) (v : Byte) : State :=
  { s with asm := { s.asm with buf := s.asm.buf.write i v } }

/-- The Frame that the registers of ASM describe (R28). -/
def State.frame (s : State) : Frame := ⟨s.bufBytes s.asm.len.toNat, s.asm.csum⟩

/-- The Frame, while it is exposed (R28: only in `Complete`). -/
def State.exposed (s : State) : Option Frame :=
  if s.asm.st = .complete then some s.frame else none

/-! ### Outputs -/

/-- The strobes of the previous operation are over (R107, R108: one-cycle strobes; log 13). -/
def State.quiet (s : State) : State :=
  { s with out := { s.out with events := [], result := none, notes := [] } }

/-- `emit` (R14, R244). -/
def State.emit (s : State) (e : Event) : State :=
  { s with out := { s.out with events := s.out.events ++ [e] } }

/-- `note` (R14, R240). -/
def State.note (s : State) (c : Cause) : State :=
  { s with out := { s.out with notes := s.out.notes ++ [c] } }

/-- The result of a command (R107). -/
def State.answer (s : State) (ok : Bool) (id : Option Byte) : State :=
  { s with out := { s.out with result := some ⟨ok, id⟩ } }

/-- Refused: no state change, `res_ok = 0` (R176, R240). -/
def State.refuse (s : State) : State := (s.note .refused).answer false none

/-- One frame on the TX port: the `tx_flush` strobe, then its bytes (R105, R160, R161). -/
def txFrame (region : List Byte) : List TxItem := .flush :: (serialize region).map .byte

/-- SER appends a frame to the TX stream (R160). -/
def State.transmit (s : State) (region : List Byte) : State :=
  { s with out := { s.out with tx := s.out.tx ++ txFrame region } }

/-- The bytes of a TX stream (R66). -/
def txBytes (tx : List TxItem) : List Byte :=
  tx.filterMap fun
    | .flush => none
    | .byte b => some b

/-! ### ASM -/

/-- *Clear* (R26): four registers written; the buffer and `asm.t_prev` become unspecified (log 11, log 12). -/
def State.clear (s : State) : State :=
  { s with
    asm := { st := .awaitDelimiter, len := 0, cnt := 0, csum := Config.csumBase, buf := [],
             tPrev := Config.freeTime s.draws 0 }
    draws := s.draws + 1 }

/-! ### DSP -/

/-- The ID after `id` in the band, cyclically (R171). -/
def nextInBand (p : Params) (id : Byte) : Byte := if id = Config.idHi then p.idBand.lo else id + 1

/-- `alloc()` (R171): the ID and the state after it. -/
def State.alloc (s : State) : Byte × State :=
  (s.dsp.nextId, { s with dsp := { s.dsp with nextId := nextInBand s.par s.dsp.nextId } })

/-- A slot written (R31: both fields at once, R64). An ID of `TABLE_N` or more addresses nothing (R38). -/
def State.setSlot (s : State) (id : Byte) (x : Slot) : State :=
  { s with dsp := { s.dsp with tbl := s.dsp.tbl.setIfInBounds id.toNat x } }

/-- `store(id, cb)` (R173): overwrites the slot whatever it held (R177). -/
def State.store (s : State) (id : Byte) (cb : Cb) : State := s.setSlot id ⟨true, cb⟩

/-- The slot freed (R214). -/
def State.freeSlot (s : State) (id : Byte) : State := s.setSlot id Slot.empty

/-- The table lookup (R214): the callback of an occupied slot; none when the ID is `TABLE_N` or more or the slot is free. -/
def State.lookup (s : State) (id : Byte) : Option Cb :=
  match s.dsp.tbl[id.toNat]? with
  | some x => if x.occupied then some x.cb else none
  | none => none

/-- A waiter written (R33; R64: one whole waiter). -/
def State.setWaiter (s : State) (k : Byte) (x : Waiter) : State :=
  { s with dsp := { s.dsp with w := s.dsp.w.set k.toNat x } }

/-- `w[k].waiting <- 0` (R191, R192); the other two fields are not written (log 20). -/
def State.release (s : State) (k : Byte) (x : Waiter) : State := s.setWaiter k { x with waiting := false }

/-- `deliver_sync(k, id, frame)` (R191): a live slot releases its waiter with the frame, a stale one does nothing. -/
def State.deliverSync (s : State) (k id : Byte) (f : Frame) : State :=
  match s.dsp.w[k.toNat]? with
  | some x => if x.waiting && x.id == id then (s.release k x).emit (.syncDone k f) else s
  | none => s

end Sys2Proof.Machine
end

