-- ==== Sys2Proof/Machine/Operands.lean ====
section
/-! DEFINITION. The operand forms: the fields of a Frame (R28, R67), of a response (R95), of an I/O Data Sample (R96,
R211) and of a ZigBee Receive Packet (R97), the callback operand (R175), the region of a frame to send (R94). -/

namespace Sys2Proof.Machine

/-- `frame.len` (R28). -/
def Frame.len (f : Frame) : Nat := f.region.length

/-- `frame.type`, absent in an empty region (R28, D10). -/
def Frame.type (f : Frame) : Option Byte := f.region[0]?

/-- `frame.id`, absent in a region shorter than two (R28, D10). -/
def Frame.id (f : Frame) : Option Byte := f.region[1]?

/-- `frame.body` (R28). -/
def Frame.body (f : Frame) : List Byte := f.region.drop 2

/-- `r[i]`, read only at indices below `frame.len` (R62): each decoder checks the length first (R211, R214, R218). -/
def byteAt (r : List Byte) (i : Nat) : Byte := r.getD i 0

/-- The callback operand of a send: `None` or `Tag(t)` (R175). -/
def cbOf : Option Byte → Cb
  | none => .none
  | some t => .tag t

/-- The region of a frame built by DSP: `[type, id] ++ body` (R94). -/
def sendRegion (ty id : Byte) (body : List Byte) : List Byte := [ty, id] ++ body

/-! ### Responses -/

/-- The discovery test on the response's command field (R214, R215); the body length is implied nonzero by `len ≥ 4`. -/
def keepsSlot (c : Codes) (r : List Byte) : Bool :=
  decide (4 ≤ r.length) && byteAt r 2 == c.disc0 && byteAt r 3 == c.disc1 && decide (r.length - 2 ≠ 0)

/-! ### I/O Data Sample -/

/-- `dmask` (R211): bytes 13 and 14. -/
def ioDmask (r : List Byte) : Half := u16be (byteAt r 13) (byteAt r 14)

/-- `amask` (R211): bits 3:0 of byte 15. -/
def ioAmask (r : List Byte) : BitVec 4 := (byteAt r 15).extractLsb' 0 4

/-- Where the analog samples begin (R211). -/
def ioBase (r : List Byte) : Nat := if ioDmask r ≠ 0 then 18 else 16

/-- `popcount(v[n-1:0])`, the analog channels below `n` that are present (R11, R211). -/
def channelsBelow (m : BitVec 4) (n : Nat) : Nat := (List.range n).countP fun ch => m.getLsbD ch

/-- The length an I/O sample needs (R96, R211). -/
def ioNeed (r : List Byte) : Nat := ioBase r + 2 * channelsBelow (ioAmask r) 4

/-- One analog channel (R211): two bytes each, packed in channel order, only the present ones. -/
def ioAnalog (r : List Byte) (ch : Nat) : Option Half :=
  if (ioAmask r).getLsbD ch then
    let p := ioBase r + 2 * channelsBelow (ioAmask r) ch
    some (u16be (byteAt r p) (byteAt r (p + 1)))
  else none

/-- Every byte the decode reads exists (R211, D23). -/
def ioComplete (r : List Byte) : Bool := decide (16 ≤ r.length) && decide (ioNeed r ≤ r.length)

/-! ### ZigBee Receive Packet -/

/-- The data after the 12-byte header (R97, R218). -/
def zbData (r : List Byte) : List Byte := r.drop Config.zbRxHdr

end Sys2Proof.Machine
end

