-- ==== Sys2Proof/Machine/Flags.lean ====
section
/-! DEFINITION. The computed conditions: time comparisons (R15, R247), the selection of a case of RXBYTE (R98), when a
waiter's expiry is enabled (R192), when a slot is live (R33), and the one-bit status values (R29). XFA has no condition
codes. -/

namespace Sys2Proof.Machine

/-- `elapsed(t)` (R15): `(now − t) mod 2^TIME_W`. -/
def State.elapsed (s : State) (t : Time) : Nat := (s.now - t).toNat

/-- The time half of the resync test, strict (R133, D4). -/
def State.slow (s : State) : Bool := decide (Config.resyncTicks < s.elapsed s.asm.tPrev)

/-- The checksum position: `asm.cnt = asm.len` (R98 rows 9 and 10); data while `asm.cnt < asm.len` (row 8). -/
def State.full (s : State) : Bool := !decide (s.asm.cnt.toNat < s.asm.len.toNat)

/-- R98: the case an RXBYTE of `b` performs. -/
def State.selectRxb (s : State) (b : Byte) : RxbRow :=
  rxbRow s.asm.st b s.slow s.full (b == s.asm.csum)

/-- R192: `SYNC_EXPIRE(k)` is enabled; inclusive. -/
def State.expirable (s : State) (x : Waiter) : Bool :=
  x.waiting && decide (Config.syncTicks ≤ s.elapsed x.tStart)

/-- R33: a slot holding `Sync(k)` is live. -/
def State.live (s : State) (id k : Byte) : Bool :=
  match s.dsp.w[k.toNat]? with
  | some x => x.waiting && x.id == id
  | none => false

/-- `frame_valid` (R29). -/
def State.frameValid (s : State) : Bool := s.asm.st == .complete

/-- `BytesAppended` (R27): the position in the current frame, 9 bits. -/
def State.bytesAppended (s : State) : BitVec 9 :=
  match s.asm.st with
  | .awaitDelimiter => 0
  | .lengthHigh => 1
  | .lengthLow => 2
  | .payload => 3 + s.asm.cnt.setWidth 9
  | .complete => s.asm.len.setWidth 9 + 4

end Sys2Proof.Machine
end

