-- ==== Sys2Proof/Machine/Router.lean ====
section
/-! DEFINITION. RTR, the frame router and decoder (43_router.md): the cases of ROUTE on an exposed Frame, the step
respond, and SUBSCRIBE. -/

namespace Sys2Proof.Machine

/-- `RT.IO_SAMPLE` (R211). -/
def State.ioSample (s : State) (f : Frame) : State :=
  if ioComplete f.region then
    let s1 := if ioDmask f.region ≠ 0 && s.sub.dioEn then s.emit (.dio (byteAt f.region 17)) else s
    if s.sub.aioEn then
      s1.emit (.aio (ioAnalog f.region 0) (ioAnalog f.region 1) (ioAnalog f.region 2) (ioAnalog f.region 3))
    else s1
  else s.note .shortFrame

/-- The delivery of a found slot's callback (R214). -/
def State.deliver (s : State) (cb : Cb) (id : Byte) (f : Frame) : State :=
  match cb with
  | .none => s
  | .tag t => s.emit (.resp t id f)
  | .sync k => s.deliverSync k id f

/-- The step `respond(frame)` (R214, R215, R217): lookup, delivery, conditional clear. -/
def State.respond (s : State) (f : Frame) : State :=
  match f.id with
  | none => s.note .shortFrame
  | some id =>
    match s.lookup id with
    | none => s.note .correlationMiss
    | some cb =>
      let s1 := s.deliver cb id f
      if keepsSlot s.par.codes f.region then s1 else s1.freeSlot id

/-- `RT.ZB_RX` (R218). -/
def State.zbRx (s : State) (f : Frame) : State :=
  if f.len < Config.zbRxHdr then s.note .shortFrame
  else if s.sub.rxdEn then s.emit (.rxd (zbData f.region))
  else s

/-- `RT.UNKNOWN` (R219). -/
def State.unknownType (s : State) : State := s.note .unknownType

/-- `ROUTE(frame)` (R210). -/
def State.route (s : State) (f : Frame) : State :=
  match rtClass s.par.codes f.region with
  | .ioSample => s.ioSample f
  | .atResp => s.respond f
  | .remoteAtResp => s.respond f
  | .zbRx => s.zbRx f
  | .unknown => s.unknownType

/-- A router case as an instruction of its own (log 6): performed when RTR is attached and a Frame of its class is
exposed (R99, R141). -/
def State.routeCase (s : State) (cls : RtClass) (act : State → Frame → State) : Answer :=
  match s.exposed with
  | some f =>
    if s.par.rtrAttached && decide (rtClass s.par.codes f.region = cls) then .next (act s.quiet f)
    else .refused .routeNotSelected
  | none => .refused .routeNotSelected

/-- RT.IO_SAMPLE (R211). -/
def execRtIoSample (s : State) : Answer := s.routeCase .ioSample State.ioSample

/-- RT.AT_RESP (R213). -/
def execRtAtResp (s : State) : Answer := s.routeCase .atResp State.respond

/-- RT.REMOTE_AT_RESP (R216). -/
def execRtRemoteAtResp (s : State) : Answer := s.routeCase .remoteAtResp State.respond

/-- RT.ZB_RX (R218). -/
def execRtZbRx (s : State) : Answer := s.routeCase .zbRx State.zbRx

/-- RT.UNKNOWN (R219). -/
def execRtUnknown (s : State) : Answer := s.routeCase .unknown fun t _ => t.unknownType

/-- SUBSCRIBE(sel) (R230); `sel = 3` is reserved and has no effect (R111, R240; log 8). -/
def execSubscribe (sel : BitVec 2) (s : State) : Answer :=
  let q := s.quiet
  match sel.toNat with
  | 0 => .next ({ q with sub := { q.sub with dioEn := true } }.answer true none)
  | 1 => .next ({ q with sub := { q.sub with aioEn := true } }.answer true none)
  | 2 => .next ({ q with sub := { q.sub with rxdEn := true } }.answer true none)
  | _ => .next q.refuse

end Sys2Proof.Machine
end

