-- ==== Sys2Proof/Machine/Assembler.lean ====
section
/-! DEFINITION. ASM, the frame assembler (40_assembler.md): the ten cases of RXBYTE, RXBYTE itself, the hand-over of a
completed frame, ASM_RESET, and FRAME, a whole frame received (R144). -/

namespace Sys2Proof.Machine

/-! ### The pseudocode of the cases (R131 to R140) -/

/-- RXB.DROP (R140): nothing but the note. -/
def State.rxDrop (s : State) : State := s.note .byteDropped

/-- RXB.RESYNC (R133): *clear*, then as if the delimiter had come. -/
def State.rxResync (s : State) : State :=
  let t := s.clear
  { t with asm := { t.asm with st := .lengthHigh } }.note .frameAbandoned

/-- RXB.START (R132). -/
def State.rxStart (s : State) : State := { s with asm := { s.asm with st := .lengthHigh } }

/-- RXB.SKIP (R131): nothing; `asm.t_prev` is RXBYTE's own (R130). -/
def State.rxSkip (s : State) : State := s

/-- RXB.LENHI_OK (R134). -/
def State.rxLenhiOk (s : State) : State := { s with asm := { s.asm with st := .lengthLow } }

/-- RXB.LENHI_BAD (R135). -/
def State.rxLenhiBad (s : State) : State := s.clear.note .badLength

/-- RXB.LENLO (R136): the buffer is not cleared. -/
def State.rxLenlo (s : State) (b : Byte) : State :=
  { s with asm := { s.asm with st := .payload, len := b, cnt := 0, csum := Config.csumBase } }

/-- RXB.DATA (R137): stored at the next index, subtracted from the running checksum modulo 256. -/
def State.rxData (s : State) (b : Byte) : State :=
  { s with asm := { s.asm with buf := s.asm.buf.write s.asm.cnt.toNat b, csum := s.asm.csum - b, cnt := s.asm.cnt + 1 } }

/-- RXB.CSUM_OK (R138). -/
def State.rxCsumOk (s : State) : State := { s with asm := { s.asm with st := .complete } }

/-- RXB.CSUM_BAD (R139). -/
def State.rxCsumBad (s : State) : State := s.clear.note .badChecksum

/-- The case a row names. -/
def State.rxRow (s : State) (b : Byte) : RxbRow → State
  | .drop => s.rxDrop
  | .resync => s.rxResync
  | .start => s.rxStart
  | .skip => s.rxSkip
  | .lenhiOk => s.rxLenhiOk
  | .lenhiBad => s.rxLenhiBad
  | .lenlo => s.rxLenlo b
  | .data => s.rxData b
  | .csumOk => s.rxCsumOk
  | .csumBad => s.rxCsumBad

/-! ### The hand-over and RXBYTE -/

/-- ROUTE_AND_CLEAR (R141): the router takes the exposed Frame, then *clear*. -/
def State.routeAndClear (s : State) : State := (s.route s.frame).clear

/-- The end of an RXBYTE whose case was not RXB.DROP (R130): the time is recorded, and a completed frame is routed
when RTR is attached. -/
def State.finishRx (s : State) : State :=
  let t := { s with asm := { s.asm with tPrev := s.now } }
  if t.asm.st = .complete && t.par.rtrAttached then t.routeAndClear else t

/-- RXBYTE(b) (R130). -/
def State.receive (s : State) (b : Byte) : State :=
  if s.selectRxb b = .drop then s.rxDrop
  else (s.rxRow b (s.selectRxb b)).finishRx

/-- A row as an instruction of its own (log 6): performed when R98 selects it for this byte. -/
def State.rowCase (s : State) (row : RxbRow) (b : Byte) (t : State) : Answer :=
  if s.selectRxb b = row then .next t else .refused (.rowNotSelected row)

/-! ### The meanings -/

/-- RXBYTE (R130): never fails, never stalls. -/
def execRxbyte (b : Byte) (s : State) : Answer := .next (s.quiet.receive b)

/-- RXB.DROP (R140). -/
def execRxbDrop (b : Byte) (s : State) : Answer := s.rowCase .drop b s.quiet.rxDrop

/-- RXB.RESYNC (R133). -/
def execRxbResync (s : State) : Answer := s.rowCase .resync Config.delim s.quiet.rxResync

/-- RXB.START (R132). -/
def execRxbStart (s : State) : Answer := s.rowCase .start Config.delim s.quiet.rxStart

/-- RXB.SKIP (R131). -/
def execRxbSkip (b : Byte) (s : State) : Answer := s.rowCase .skip b s.quiet.rxSkip

/-- RXB.LENHI_OK (R134). -/
def execRxbLenhiOk (s : State) : Answer := s.rowCase .lenhiOk 0 s.quiet.rxLenhiOk

/-- RXB.LENHI_BAD (R135). -/
def execRxbLenhiBad (b : Byte) (s : State) : Answer := s.rowCase .lenhiBad b s.quiet.rxLenhiBad

/-- RXB.LENLO (R136). -/
def execRxbLenlo (b : Byte) (s : State) : Answer := s.rowCase .lenlo b (s.quiet.rxLenlo b)

/-- RXB.DATA (R137). -/
def execRxbData (b : Byte) (s : State) : Answer := s.rowCase .data b (s.quiet.rxData b)

/-- RXB.CSUM_OK (R138). -/
def execRxbCsumOk (b : Byte) (s : State) : Answer := s.rowCase .csumOk b s.quiet.rxCsumOk

/-- RXB.CSUM_BAD (R139). -/
def execRxbCsumBad (b : Byte) (s : State) : Answer := s.rowCase .csumBad b s.quiet.rxCsumBad

/-- ROUTE_AND_CLEAR (R141): a step of XFA as a whole, on a completed frame (log 6). -/
def execRouteAndClear (s : State) : Answer :=
  if s.asm.st = .complete && s.par.rtrAttached then .next s.quiet.routeAndClear
  else .refused .routeNotSelected

/-- ASM_RESET (R142). -/
def execAsmReset (s : State) : Answer := .next (s.quiet.clear.answer true none)

/-- FRAME (R90) received: its `n + 4` bytes, one RXBYTE each, all with the same `now` (R144, R112; log 7). -/
def execFrame (region : List Byte) (s : State) : Answer :=
  .next ((serialize region).foldl State.receive s.quiet)

end Sys2Proof.Machine
end

