-- ==== Sys2Proof/Machine/Dispatcher.lean ====
section
/-! DEFINITION. DSP, the command dispatcher (42_dispatcher.md): the ID allocator, the senders, the synchronous send and
its expiry. -/

namespace Sys2Proof.Machine

/-- ALLOC_ID (R172). -/
def execAllocId (s : State) : Answer :=
  let a := s.quiet.alloc
  .next (a.2.answer true (some a.1))

/-- SEND_FF (R174): ID 0, no table entry; an over-long body is refused (R176). -/
def execSendFf (ty : Byte) (body : List Byte) (s : State) : Answer :=
  if body.length > Config.bodyMax then .next s.quiet.refuse
  else .next ((s.quiet.transmit (sendRegion ty Config.idNone body)).answer true (some Config.idNone))

/-- The accepted part of a correlated send (R175, R190): allocate, store, serialize. The order of the two last is not
observable, the operation being one step (R63). -/
def State.sendWith (s : State) (ty : Byte) (body : List Byte) (cb : Cb) : State :=
  let a := s.alloc
  ((a.2.store a.1 cb).transmit (sendRegion ty a.1 body)).answer true (some a.1)

/-- `SEND_ASYNC(type, body, cb)` (R175, R176). -/
def State.sendAsync (s : State) (ty : Byte) (body : List Byte) (cb : Option Byte) : State :=
  if body.length > Config.bodyMax then s.refuse else s.sendWith ty body (cbOf cb)

/-- SEND_ASYNC (R175). -/
def execSendAsync (ty : Byte) (body : List Byte) (cb : Option Byte) (s : State) : Answer :=
  .next (s.quiet.sendAsync ty body cb)

/-- SEND_AT (R180). -/
def execSendAt (body : List Byte) (cb : Option Byte) (s : State) : Answer :=
  .next (s.quiet.sendAsync s.par.codes.tAtCmd body cb)

/-- SEND_REMOTE_AT (R181). -/
def execSendRemoteAt (body : List Byte) (cb : Option Byte) (s : State) : Answer :=
  .next (s.quiet.sendAsync s.par.codes.tRemoteAtCmd body cb)

/-- SEND_DATA (R182). -/
def execSendData (body : List Byte) (cb : Option Byte) (s : State) : Answer :=
  .next (s.quiet.sendAsync s.par.codes.tZbTx body cb)

/-- The waiter `k` is there and free (R176, R190). -/
def State.waiterFree (s : State) (k : Byte) : Bool :=
  match s.dsp.w[k.toNat]? with
  | some x => !x.waiting
  | none => false

/-- SEND_SYNC (R190): refused on an over-long body, `k ≥ N_SYNC` or a busy waiter (R176). -/
def execSendSync (ty : Byte) (body : List Byte) (k : Byte) (s : State) : Answer :=
  if decide (body.length > Config.bodyMax) || !s.waiterFree k then .next s.quiet.refuse
  else .next ((s.quiet.sendWith ty body (.sync k)).setWaiter k ⟨true, s.dsp.nextId, s.now⟩)

/-- SYNC_EXPIRE(k) (R192): the waiter is released with no frame; the table is left alone (R193). When it is not enabled
the operation does not exist (log 19). -/
def execSyncExpire (k : Byte) (s : State) : Answer :=
  match s.dsp.w[k.toNat]? with
  | some x =>
    if s.expirable x then .next (((s.quiet.release k x).emit (.syncNoframe k)).note .sendTimeout)
    else .refused (.expireNotEnabled k)
  | none => .refused (.expireNotEnabled k)

end Sys2Proof.Machine
end

