-- ==== Sys2Proof/Machine/Serializer.lean ====
section
/-! DEFINITION. SER, the frame serializer (41_serializer.md). -/

namespace Sys2Proof.Machine

/-- SERIALIZE(region) (R160): the frame's bytes appended to the TX stream, in one step (R161). -/
def execSerialize (region : List Byte) (s : State) : Answer :=
  .next ((s.quiet.transmit region).answer true none)

end Sys2Proof.Machine
end

