-- ==== Sys2Proof/Machine/System.lean ====
section
/-! DEFINITION. The operations of no unit: NOP and the reserved codes (R111), RESET (R270). -/

namespace Sys2Proof.Machine

/-- NOP (R111): changes no state, emits nothing, returns no ID. -/
def execNop (s : State) : Answer := .next (s.quiet.answer true none)

/-- RESERVED_B (R111, R240): no effect, `res_ok = 0` (log 8). -/
def execReservedB (s : State) : Answer := .next s.quiet.refuse

/-- RESERVED_C (R111, R240): no effect, `res_ok = 0` (log 8). -/
def execReservedC (s : State) : Answer := .next s.quiet.refuse

/-- RESERVED_D (R111, R240): no effect, `res_ok = 0` (log 8). -/
def execReservedD (s : State) : Answer := .next s.quiet.refuse

/-- RESERVED_E (R111, R240): no effect, `res_ok = 0` (log 8). -/
def execReservedE (s : State) : Answer := .next s.quiet.refuse

/-- RESERVED_F (R111, R240): no effect, `res_ok = 0` (log 8). -/
def execReservedF (s : State) : Answer := .next s.quiet.refuse

/-- A waiter after RESET (R270): not waiting, the rest unspecified (log 12). -/
def resetWaiter (draws k : Nat) : Waiter :=
  ⟨false, Config.freeByte draws (256 + k), Config.freeTime draws (k + 1)⟩

/-- RESET (R270, R271): every register to its reset value, what the table calls unspecified to a free value (log 12); no
waiter is released with an event, no callback fires. The TX stream already written is outside the block (R20). -/
def execReset (s : State) : Answer :=
  let q := s.quiet.clear
  .next { q with
    dsp := { nextId := s.par.idBand.lo
             tbl := Vector.replicate 10 Slot.empty
             w := (List.range s.dsp.w.length).map (resetWaiter s.draws) }
    sub := ⟨false, false, false⟩ }

end Sys2Proof.Machine
end

