-- ==== Sys2Proof/Machine/Dispatch.lean ====
section
/-! DEFINITION. The dispatch of an instruction to its meaning, one arm per row of spec/opcode_table.json. -/

namespace Sys2Proof.Machine

def exec (i : Instr) (s : State) : Host.Outcome State Fault Refusal :=
  match i with
  | .nop => Sys2Proof.Machine.execNop s
  | .asmReset => Sys2Proof.Machine.execAsmReset s
  | .allocId => Sys2Proof.Machine.execAllocId s
  | .sendFf ty body => Sys2Proof.Machine.execSendFf ty body s
  | .sendAsync ty body cb => Sys2Proof.Machine.execSendAsync ty body cb s
  | .sendSync ty body k => Sys2Proof.Machine.execSendSync ty body k s
  | .serialize region => Sys2Proof.Machine.execSerialize region s
  | .subscribe sel => Sys2Proof.Machine.execSubscribe sel s
  | .sendAt body cb => Sys2Proof.Machine.execSendAt body cb s
  | .sendRemoteAt body cb => Sys2Proof.Machine.execSendRemoteAt body cb s
  | .sendData body cb => Sys2Proof.Machine.execSendData body cb s
  | .reservedB => Sys2Proof.Machine.execReservedB s
  | .reservedC => Sys2Proof.Machine.execReservedC s
  | .reservedD => Sys2Proof.Machine.execReservedD s
  | .reservedE => Sys2Proof.Machine.execReservedE s
  | .reservedF => Sys2Proof.Machine.execReservedF s
  | .rxbyte b => Sys2Proof.Machine.execRxbyte b s
  | .syncExpire k => Sys2Proof.Machine.execSyncExpire k s
  | .reset => Sys2Proof.Machine.execReset s
  | .rxbDrop b => Sys2Proof.Machine.execRxbDrop b s
  | .rxbResync => Sys2Proof.Machine.execRxbResync s
  | .rxbStart => Sys2Proof.Machine.execRxbStart s
  | .rxbSkip b => Sys2Proof.Machine.execRxbSkip b s
  | .rxbLenhiOk => Sys2Proof.Machine.execRxbLenhiOk s
  | .rxbLenhiBad b => Sys2Proof.Machine.execRxbLenhiBad b s
  | .rxbLenlo b => Sys2Proof.Machine.execRxbLenlo b s
  | .rxbData b => Sys2Proof.Machine.execRxbData b s
  | .rxbCsumOk b => Sys2Proof.Machine.execRxbCsumOk b s
  | .rxbCsumBad b => Sys2Proof.Machine.execRxbCsumBad b s
  | .routeAndClear => Sys2Proof.Machine.execRouteAndClear s
  | .rtIoSample => Sys2Proof.Machine.execRtIoSample s
  | .rtAtResp => Sys2Proof.Machine.execRtAtResp s
  | .rtRemoteAtResp => Sys2Proof.Machine.execRtRemoteAtResp s
  | .rtZbRx => Sys2Proof.Machine.execRtZbRx s
  | .rtUnknown => Sys2Proof.Machine.execRtUnknown s
  | .frame region => Sys2Proof.Machine.execFrame region s

end Sys2Proof.Machine
end

