-- ==== Sys2Proof/Machine/Ports.lean ====
section
/-! DEFINITION. How a request is taken from its port (R100 to R106); the signals of the block as functions of State (R37,
R107, R108, R109); the order in which hardware takes operations requested in one cycle (R104, R106, R248). `none` stands for a
value the spec leaves unspecified (U6, U7, U8). -/

namespace Sys2Proof.Machine

/-! ### Taking a request (R100 to R106; log 4) -/

/-- The state in which the next operation of a request is performed: what was taken of it has left the queue, and `now` is
sampled (R102). The bytes that an incomplete command reads are fresh free values (log 12). -/
def State.take (s : State) (r : Request) (rest : List Request) : State :=
  { s with now := r.now, inputs := r.left ++ rest, draws := if r.incomplete then s.draws + 1 else s.draws }

/-- A command record filled up to its whole length, 7 bytes of pins and 255 of `stg`, with free values (U25; log 12). -/
def State.fillRecord (s : State) (data : List Byte) : List Byte :=
  data ++ (List.range (262 - data.length)).map fun i => Config.freeByte s.draws (512 + i)

/-- The word at a request's port. For a case of RXBYTE the selector is what ASM presents to R98's map; for a case of ROUTE
the word is the region of the exposed frame, whose byte 0 R99's map reads; elsewhere it is the request's bytes. -/
def State.portBytes (s : State) (r : Request) : List Byte :=
  match r.port with
  | .asmStep =>
    match r.data with
    | b :: _ => [b, selByte s.asm.st s.slow s.full (b == s.asm.csum)]
    | [] => []
  | .rtrStep =>
    match s.exposed with
    | some f => f.region
    | none => []
  | _ => if r.incomplete then s.fillRecord r.data else r.data

/-- The operation that a request asks for next: the one its word decodes to. Bytes on the wire that are no valid frame ask for
the RXBYTE of the first of them (R100, R104), and a port with no byte asks for nothing (R101). -/
def State.requested (s : State) (r : Request) : Option Instr :=
  match decode s.par.codes r.port (s.portBytes r) with
  | .ok i => some i
  | .error _ =>
    match r.port, r.data with
    | .wire, b :: _ => some (.rxbyte b)
    | _, _ => none

/-- `asm` with a frame exposed whose region is the given bytes (R28): where the router's cases find their type byte. -/
def exposeRegion (a : Asm) (r : List Byte) : Asm :=
  { a with
    st := .complete
    len := lenLoByte r.length
    cnt := lenLoByte r.length
    csum := cks r
    buf := (List.range r.length).zip r }

/-! ### Status outputs (R37) -/

/-- `asm_state`. -/
def State.asmState (s : State) : BitVec 3 := s.asm.st.code

/-- `frame_len`, meaningful while `frame_valid`. -/
def State.frameLen (s : State) : Option Byte := if s.frameValid then some s.asm.len else none

/-- `frame_checksum`, meaningful while `frame_valid`. -/
def State.frameChecksum (s : State) : Option Byte := if s.frameValid then some s.asm.csum else none

/-- `frame_rdata` for a `frame_raddr`, defined below `asm.len` while `frame_valid`; inside an event window the event's own
copy takes its place (R108). -/
def State.frameRdata (s : State) (raddr : Byte) : Option Byte :=
  if s.frameValid && decide (raddr.toNat < s.asm.len.toNat) then some (s.bufByte raddr.toNat) else none

/-- `sub_en`: `{sub.rxd_en, sub.aio_en, sub.dio_en}`. -/
def State.subEn (s : State) : BitVec 3 :=
  BitVec.ofBool s.sub.rxdEn ++ BitVec.ofBool s.sub.aioEn ++ BitVec.ofBool s.sub.dioEn

/-- Bit `i` of `tbl_occupied`. -/
def State.tblOccupied (s : State) (i : Nat) : Bool :=
  match s.dsp.tbl[i]? with
  | some x => x.occupied
  | none => false

/-- `next_id`. -/
def State.nextIdOut (s : State) : Byte := s.dsp.nextId

/-! ### Command result (R107) -/

/-- `res_valid`. -/
def State.resValid (s : State) : Bool := s.out.result.isSome

/-- `res_ok`, while `res_valid`. -/
def State.resOk (s : State) : Option Bool := s.out.result.map Result.ok

/-- `res_id`, meaningful only when `res_ok = 1` and the operation returns an ID. -/
def State.resId (s : State) : Option Byte :=
  match s.out.result with
  | some ⟨true, id⟩ => id
  | _ => none

/-! ### Event ports (R108): the arguments while the strobe is up -/

/-- `ev_resp_valid`, `ev_resp_tag`, `ev_resp_id`. -/
def State.evResp (s : State) : Option (Byte × Byte) :=
  s.out.events.findSome? fun
    | .resp t id _ => some (t, id)
    | _ => none

/-- `ev_dio_valid`, `ev_dio_value`. -/
def State.evDio (s : State) : Option Byte :=
  s.out.events.findSome? fun
    | .dio v => some v
    | _ => none

/-- `ev_aio_valid`, `ev_aio_value0..3`; `ev_aio_present[ch]` is whether the value is there (R212). -/
def State.evAio (s : State) : Option (Vector (Option Half) 4) :=
  s.out.events.findSome? fun
    | .aio a0 a1 a2 a3 => some #v[a0, a1, a2, a3]
    | _ => none

/-- `ev_rxd_valid`, `ev_rxd_len` and the data. -/
def State.evRxd (s : State) : Option (Byte × List Byte) :=
  s.out.events.findSome? fun
    | .rxd d => some (BitVec.ofNat 8 d.length, d)
    | _ => none

/-- `ev_sync_done_valid`, `ev_sync_k`. -/
def State.evSyncDone (s : State) : Option Byte :=
  s.out.events.findSome? fun
    | .syncDone k _ => some k
    | _ => none

/-- `ev_sync_noframe_valid`, `ev_sync_nk`. -/
def State.evSyncNoframe (s : State) : Option Byte :=
  s.out.events.findSome? fun
    | .syncNoframe k => some k
    | _ => none

/-- `ev_frame_len`: the length of the frame that an event carries whole or in part. -/
def State.evFrameLen (s : State) : Option Byte :=
  s.out.events.findSome? fun
    | .resp _ _ f => some (BitVec.ofNat 8 f.len)
    | .syncDone _ f => some (BitVec.ofNat 8 f.len)
    | .rxd d => some (BitVec.ofNat 8 (Config.zbRxHdr + d.length))
    | _ => none

/-- The frame that an event carries whole. -/
def State.evFrame (s : State) : Option Frame :=
  s.out.events.findSome? fun
    | .resp _ _ f => some f
    | .syncDone _ f => some f
    | _ => none

/-! ### One clock cycle's requests (R101 to R106) and hardware's priority (R248) -/

/-- The input pins of a cycle. `stg` is the staging buffer's contents. -/
structure Cycle where
  rst : Bool
  now : Time
  rxValid : Bool
  rxData : Byte
  cmdValid : Bool
  cmdOp : BitVec 4
  cmdType : Byte
  cmdLen : Byte
  cmdHasCb : Bool
  cmdTag : Byte
  cmdK : Byte
  cmdSel : BitVec 2
  stg : List Byte
  deriving DecidableEq, Repr

/-- The command record of a cycle's pins, laid out as `decodeCmd` reads it. -/
def Cycle.cmdBytes (c : Cycle) : List Byte :=
  [c.cmdOp.setWidth 8, c.cmdType, c.cmdLen, (BitVec.ofBool c.cmdHasCb).setWidth 8, c.cmdTag, c.cmdK, c.cmdSel.setWidth 8] ++ c.stg

/-- The lowest `k`, counting from the given one, whose SYNC_EXPIRE is enabled at the state's `now` (R192). -/
def firstExpirable (s : State) : List Waiter → Nat → Option Byte
  | [], _ => none
  | x :: rest, k => if s.expirable x then some (BitVec.ofNat 8 k) else firstExpirable s rest (k + 1)

/-- The expiry the timer agent requests in a cycle, if one is enabled. -/
def State.dueExpiry (s : State) (now : Time) : Option Byte := firstExpirable { s with now := now } s.dsp.w 0

/-- The operation hardware performs in a cycle: `rst`, then RXBYTE, then SYNC_EXPIRE with the lowest `k`, then the command
port (R248). That `rst` comes first is DEDUCED (log 22). -/
def State.cycleRequest (s : State) (c : Cycle) : Option Request :=
  if c.rst then some ⟨c.now, .rst, []⟩
  else if c.rxValid then some ⟨c.now, .rx, [c.rxData]⟩
  else match s.dueExpiry c.now with
    | some k => some ⟨c.now, .timer, [k]⟩
    | none => if c.cmdValid then some ⟨c.now, .cmd, c.cmdBytes⟩ else none

/-- `cmd_ready` (R106), for a block that is not streaming: no byte and no expiry takes the cycle. -/
def State.cmdReady (s : State) (c : Cycle) : Bool :=
  !c.rst && !c.rxValid && (s.dueExpiry c.now).isNone

end Sys2Proof.Machine
end

