-- ==== Sys2Proof/Machine/Step.lean ====
section
/-! DEFINITION. One step: the next requested operation is taken from its port, decoded and performed. XFA stores no program
(R1, R20); the agents' requests stand in `State.inputs` in the order in which they take effect (R69, R248; log 3, log 18). -/

namespace Sys2Proof.Machine

/-- One step. With no operation requested nothing changes but the strobes, which are over (R101). -/
def step (s : State) : Host.Outcome State Fault Refusal :=
  match s.inputs with
  | [] => .next s.quiet
  | r :: rest =>
    match (s.take r rest).requested r with
    | some i => exec i (s.take r rest)
    | none => .next (s.take r rest).quiet

/-- `s` with the word placed so that the next step fetches and runs it: the request at the head of the queue, at the
current `now`. For a router case the word is the exposed frame's type byte, so the frame is exposed; for the delimiter word
ASM awaits a delimiter (log 5, log 18). -/
def State.withFetchWord (s : State) (nbits w : Nat) : State :=
  let p := tableSample nbits w
  let t := { s with inputs := ⟨s.now, p.1, p.2⟩ :: s.inputs }
  match p.1 with
  | .rtrStep => { t with asm := exposeRegion t.asm p.2 }
  | .asmStep => { t with asm := { t.asm with st := .awaitDelimiter, len := 0, cnt := 0, csum := Config.csumBase } }
  | _ => t

end Sys2Proof.Machine
end

