-- ==== Sys2Proof/Safety.lean ====
section
/-! DEFINITION. What counts as a safe run, in the terms the statements use: the invariants of the state (R24, R30 to R33),
which instructions are operations of R110, the runs the laws speak of (R143, R171), and executions with weak fairness (R69,
R248). -/

namespace Sys2Proof

/-! ### Kinds of instruction -/

/-- The operations of R110, and FRAME, which is a sequence of one of them (R144). The rest are cases and steps of RXBYTE. -/
def Instr.isOperation : Instr → Bool
  | .nop => true
  | .asmReset => true
  | .allocId => true
  | .sendFf _ _ => true
  | .sendAsync _ _ _ => true
  | .sendSync _ _ _ => true
  | .serialize _ => true
  | .subscribe _ => true
  | .sendAt _ _ => true
  | .sendRemoteAt _ _ => true
  | .sendData _ _ => true
  | .reservedB => true
  | .reservedC => true
  | .reservedD => true
  | .reservedE => true
  | .reservedF => true
  | .rxbyte _ => true
  | .syncExpire _ => true
  | .reset => true
  | .frame _ => true
  | .rxbDrop _ => false
  | .rxbResync => false
  | .rxbStart => false
  | .rxbSkip _ => false
  | .rxbLenhiOk => false
  | .rxbLenhiBad _ => false
  | .rxbLenlo _ => false
  | .rxbData _ => false
  | .rxbCsumOk _ => false
  | .rxbCsumBad _ => false
  | .routeAndClear => false
  | .rtIoSample => false
  | .rtAtResp => false
  | .rtRemoteAtResp => false
  | .rtZbRx => false
  | .rtUnknown => false

/-- SYNC_EXPIRE is internal: no agent outside the block requests it (R110). -/
def Instr.isInternal : Instr → Bool
  | .syncExpire _ => true
  | _ => false

/-- The operations that store a slot (R175, R190). -/
def Instr.isCorrelated : Instr → Bool
  | .sendAsync _ _ _ => true
  | .sendSync _ _ _ => true
  | .sendAt _ _ => true
  | .sendRemoteAt _ _ => true
  | .sendData _ _ => true
  | _ => false

/-- The instructions during which RTR routes a frame. -/
def Instr.mayRoute : Instr → Bool
  | .rxbyte _ => true
  | .frame _ => true
  | .routeAndClear => true
  | .rtIoSample => true
  | .rtAtResp => true
  | .rtRemoteAtResp => true
  | .rtZbRx => true
  | .rtUnknown => true
  | _ => false

end Sys2Proof

namespace Sys2Proof.Machine

/-! ### Invariants -/

/-- The invariants of ASM (R24 (a) to (c), R25): what each state of the machine says of the registers, that every region byte
below `cnt` has been written, and that the buffer is in its canonical form. -/
structure AsmInv (s : State) : Prop where
  idle : s.asm.st = .awaitDelimiter ∨ s.asm.st = .lengthHigh ∨ s.asm.st = .lengthLow →
    s.asm.len = 0 ∧ s.asm.cnt = 0 ∧ s.asm.csum = 0xFF
  inRegion : s.asm.st = .payload ∨ s.asm.st = .complete → s.asm.cnt.toNat ≤ s.asm.len.toNat
  checksum : s.asm.st = .payload ∨ s.asm.st = .complete → s.asm.csum = cks (s.bufBytes s.asm.cnt.toNat)
  whole : s.asm.st = .complete → s.asm.cnt = s.asm.len
  written : s.asm.st = .payload ∨ s.asm.st = .complete →
    ∀ i, i < s.asm.cnt.toNat → (s.asm.buf.read i).isSome = true
  bufWf : Memory.Wf s.asm.buf

/-- An ID of the allocatable band `ID_LO..ID_HI` (R9). -/
abbrev inBand (p : Params) (id : Nat) : Prop := p.idBand.lo.toNat ≤ id ∧ id ≤ 9

/-- The invariants of DSP (R30 to R33): the counter and every occupied slot and every waiting waiter lie in the band, a
free slot has no callback, a `Sync(k)` names a waiter. -/
structure DspInv (s : State) : Prop where
  counter : inBand s.par s.dsp.nextId.toNat
  occupied : ∀ i, ∀ h : i < 10, s.dsp.tbl[i].occupied = true → inBand s.par i
  free : ∀ i, ∀ h : i < 10, s.dsp.tbl[i].occupied = false → s.dsp.tbl[i].cb = .none
  sync : ∀ i, ∀ h : i < 10, ∀ k, s.dsp.tbl[i].cb = .sync k → k.toNat < s.dsp.w.length
  waiters : ∀ x ∈ s.dsp.w, x.waiting = true → inBand s.par x.id.toNat

/-- The invariant every step keeps. -/
structure Inv (s : State) : Prop where
  asm : AsmInv s
  dsp : DspInv s

/-! ### Outputs -/

/-- The events that release waiter `k` (R191, R192). -/
def Event.releases (k : Byte) : Event → Bool
  | .syncDone j _ => j == k
  | .syncNoframe j => j == k
  | _ => false

/-- The events of the last operation that release waiter `k`. -/
def State.releasesOf (s : State) (k : Byte) : List Event := s.out.events.filter (Event.releases k)

/-- What the outputs are after an operation that writes nothing to the TX stream (R14; log 13). -/
abbrev State.outAfter (s : State) (events : List Event) (result : Option Result) (notes : List Cause) : Out :=
  ⟨s.out.tx, events, result, notes⟩

/-- The parameters, the time input and the queue of requests are as before: no operation writes them (R20). -/
def KeepsInputs (s t : State) : Prop := t.par = s.par ∧ t.now = s.now ∧ t.inputs = s.inputs

/-! ### Runs -/

/-- RXBYTEs performed one after another, each at its own time (R69 (a)). -/
def feed : List (Byte × Time) → State → Answer
  | [], s => .next s
  | (b, n) :: rest, s =>
    match exec (.rxbyte b) { s with now := n } with
    | .next t => feed rest t
    | .fault f => .fault f
    | .refused r => .refused r

/-- No two consecutive bytes more than `RESYNC_TICKS` apart (R143). -/
abbrev timely (bytes : List (Byte × Time)) : Prop :=
  bytes.IsChain fun x y => (y.2 - x.2).toNat ≤ 1000

/-- The IDs that `n` successive ALLOC_IDs return (R171). -/
def allocated : Nat → State → List (Option Byte)
  | 0, _ => []
  | n + 1, s =>
    match exec .allocId s with
    | .next t => t.resId :: allocated n t
    | .fault _ => []
    | .refused _ => []

/-! ### Executions and weak fairness (R69, R248, U22, U23; log 3) -/

/-- An infinite execution, instant by instant: the state, the time input, the operations that the agents outside the block then
ask for, and the operation performed, if any. -/
structure Run where
  state : Nat → State
  clock : Nat → Time
  asked : Nat → List Instr
  done : Nat → Option Instr

/-- What may be performed at an instant: what an agent asks for, and the internal SYNC_EXPIRE of every waiter for which it is
enabled (R192). -/
def Run.Open (ρ : Run) (n : Nat) : Instr → Prop
  | .syncExpire k => ∃ x, (ρ.state n).dsp.w[k.toNat]? = some x ∧ x.waiting = true ∧
      Config.syncTicks ≤ (ρ.clock n - x.tStart).toNat
  | i => i ∈ ρ.asked n

/-- The machine with one operation in its queue, at a time. -/
def State.asking (s : State) (now : Time) (i : Instr) : State :=
  { s with inputs := [⟨now, (encode s.par.codes i).1, (encode s.par.codes i).2⟩] }

/-- The executions of XFA (R69, R248): at each instant one step, which performs one of the open operations, whichever it is, or
none. -/
structure Run.Legal (ρ : Run) : Prop where
  asked : ∀ n, ∀ i ∈ ρ.asked n, i.wf = true ∧ i.isOperation = true ∧ i.isInternal = false
  idle : ∀ n, ρ.done n = none → step { ρ.state n with inputs := [] } = .next (ρ.state (n + 1))
  performs : ∀ n i, ρ.done n = some i →
    ρ.Open n i ∧ step ((ρ.state n).asking (ρ.clock n) i) = .next (ρ.state (n + 1))

/-- Weak fairness (R248): "every operation that stays requested or enabled is eventually performed". -/
def Run.WeaklyFair (ρ : Run) : Prop :=
  ∀ n i, (∀ m, n ≤ m → ρ.Open m i) → ∃ m, n ≤ m ∧ ρ.done m = some i

end Sys2Proof.Machine
end

