-- ==== Sys2Proof/Certificates/Slice0/Obligations.lean ====
section
/-! DEFINITION. The statements for the provers. Where a statement rests on a choice of the model and not on a rule of the
spec, its docstring names the log entry. -/

open Sys2Proof Sys2Proof.Machine

/-! ### Encodings -/

/-- Decoding what the encoder writes gives the instruction back, for every instruction and every parameter set with
distinct type codes (R90, R98, R99, R106, R110). The byte layout of the records is the model's choice (log 4). -/
def Obligations.DecodeOfEncode : Prop :=
  ∀ (c : Codes) (i : Instr), c.Distinct → i.wf = true → decode c (encode c i).1 (encode c i).2 = .ok i

/-- Words written out from the spec's encodings decode to the operations they stand for, one of each family: cmd_op codes
(R110), bytes at a state of ASM (R98), type codes (R99, the spec's defaults, log 2), a frame (R90). -/
def Obligations.SpecWordsDecode : Prop :=
  decode Codes.default .cmd [0x2, 0, 0, 0, 0, 0, 0] = .ok .allocId ∧
  decode Codes.default .cmd [0x4, 0x08, 2, 1, 0xA5, 0, 0, 0x4E, 0x44] = .ok (.sendAsync 0x08 [0x4E, 0x44] (some 0xA5)) ∧
  decode Codes.default .cmd [0x7, 0, 0, 0, 0, 0, 2] = .ok (.subscribe 2) ∧
  decode Codes.default .rx [0x7E] = .ok (.rxbyte 0x7E) ∧
  decode Codes.default .asmStep [0x7E, 0] = .ok .rxbStart ∧
  decode Codes.default .asmStep [0x7E, 0b001011] = .ok .rxbResync ∧
  decode Codes.default .rtrStep [0x97, 0x02] = .ok .rtRemoteAtResp ∧
  decode Codes.default .wire [0x7E, 0x00, 0x02, 0x08, 0x01, 0xF6] = .ok (.frame [0x08, 0x01])

/-- The bytes accepted as a frame with region `r` are exactly the bytes `serialize r`, for a region of at most 255 bytes
(R90, R91, R162 (a)); `serialize` is injective and adds four bytes (R162 (c), (d)). -/
def Obligations.WireFrameIffSerialized : Prop :=
  (∀ (c : Codes) (bytes r : List Byte),
    decode c .wire bytes = .ok (.frame r) ↔ r.length ≤ 255 ∧ bytes = serialize r) ∧
  (∀ r q : List Byte, serialize r = serialize q → r = q) ∧ ∀ r : List Byte, (serialize r).length = r.length + 4

/-- The checksum and its laws (R92). -/
def Obligations.ChecksumLaws : Prop :=
  cks [] = 0xFF ∧
  ∀ r : List Byte,
    (cks r).toNat = 0xFF - (r.map BitVec.toNat).sum % 256 ∧
    cks r = ~~~(BitVec.ofNat 8 ((r.map BitVec.toNat).sum)) ∧
    (∀ c : Byte, c = cks r ↔ ((r.map BitVec.toNat).sum + c.toNat) % 256 = 0xFF) ∧
    (∀ c : Byte, c = cks r ↔ (0xFF - ((r.map BitVec.toNat).sum : Int) - (c.toNat : Int)) % 256 = 0) ∧
    (∀ j : Nat, j < 8 → cks r ^^^ (1#8 <<< j) ≠ cks r) ∧
    (∀ b : Byte, cks (r ++ [b]) = cks r - b) ∧
    (serialize r).getLast? = some (cks r)

/-! ### The step -/

/-- A step takes the request at the head of the queue, samples `now`, and performs the operation that the word at the port
decodes to (R102, R110). A request of one whole word leaves the queue; of a batch of received bytes the rest stays requested
(R104). The queue is the model's form of the agents' requests (log 3), the request record its own layout (log 4). -/
def Obligations.StepRunsDecoded : Prop :=
  ∀ (s : State) (r : Request) (rest : List Request) (i : Instr), s.inputs = r :: rest →
    decode s.par.codes r.port ((s.take r rest).portBytes r) = .ok i →
    step s = exec i (s.take r rest) ∧
    (r.incomplete = false → (r.port = .rx → r.data.length ≤ 1) →
      s.take r rest = { s with now := r.now, inputs := rest }) ∧
    (∀ b c more, r.port = .rx → r.data = b :: c :: more →
      i = .rxbyte b ∧ s.take r rest = { s with now := r.now, inputs := ⟨r.now, .rx, c :: more⟩ :: rest })

/-- A request written by the encoder for a well-formed operation makes the step perform that operation (record layout: log 4;
queue: log 3). -/
def Obligations.StepRunsEncodedOperation : Prop :=
  ∀ (s : State) (n : Time) (rest : List Request) (i : Instr), i.wf = true → i.isOperation = true →
    s.inputs = ⟨n, (encode s.par.codes i).1, (encode s.par.codes i).2⟩ :: rest →
    step s = exec i { s with now := n, inputs := rest }

/-- A step with no operation requested changes no state (R101): with an empty queue, which is the model's form of the agents'
requests (log 3), the strobes of the last operation are over (log 13). The second clause is the model's choice and no rule of the
spec: a request with no byte at a port that needs one asks for no operation and is taken off the queue, its time sampled (log 4,
on the queue of log 3). -/
def Obligations.StepIdle : Prop :=
  ∀ s : State,
    (s.inputs = [] → step s = .next { s with out := s.outAfter [] none [] }) ∧
    ∀ (n : Time) (rest : List Request), ∀ p ∈ [Port.rx, .timer, .cmd, .asmStep, .wire], s.inputs = ⟨n, p, []⟩ :: rest →
      step s = .next { s with now := n, inputs := rest, out := s.outAfter [] none [] }

/-- No request of an agent outside the block stops the machine ("None of them traps", R100; "the block never refuses a byte", R104;
R106): whatever the bytes at these ports, the step answers a next state. Bytes on the wire that are no valid frame are received
one after another; a command is performed with the bytes presented, the missing ones being free values (log 4, log 12). A byte
requested as a case of RXBYTE alone finds the row that R98 selects (log 6). -/
def Obligations.AgentRequestsAlwaysComplete : Prop :=
  (∀ (s : State) (r : Request) (rest : List Request), s.inputs = r :: rest → r.port ∈ [Port.rst, .rx, .cmd, .wire] →
    ∃ t, step s = .next t) ∧
  (∀ (s : State) (n : Time) (b : Byte) (more : List Byte) (rest : List Request),
    s.inputs = ⟨n, .wire, b :: more⟩ :: rest → (∀ r : List Byte, r.length ≤ 255 → b :: more ≠ serialize r) →
    step s = exec (.rxbyte b)
      { s with now := n, inputs := (if more = [] then [] else [⟨n, .rx, more⟩]) ++ rest }) ∧
  (∀ (s : State) (n : Time) (b : Byte) (more : List Byte) (rest : List Request),
    s.inputs = ⟨n, .cmd, b :: more⟩ :: rest →
    ∃ missing i, decode s.par.codes .cmd (b :: more ++ missing) = .ok i ∧
      step s = exec i (s.take ⟨n, .cmd, b :: more⟩ rest) ∧
      (∀ j, decode s.par.codes .cmd (b :: more) = .ok j → missing = [] ∧
        s.take ⟨n, .cmd, b :: more⟩ rest = { s with now := n, inputs := rest })) ∧
  ∀ (s : State) (n : Time) (b : Byte) (more : List Byte) (rest : List Request),
    s.inputs = ⟨n, .asmStep, b :: more⟩ :: rest →
    step s = exec ((({ s with now := n, inputs := rest } : State).selectRxb b).toInstr b) { s with now := n, inputs := rest } ∧
    ∃ t, step s = .next t

/-- Command pins request the operation of their `cmd_op` with the fields it names, the body being `stg[0..cmd_len)` (R106,
R110). The record they are laid out in is the model's (log 4). -/
def Obligations.CommandPinsDecode : Prop :=
  ∀ (c : Codes) (p : Cycle), p.stg.length = 255 →
    decode c .cmd p.cmdBytes =
      .ok (decodeOp p.cmdOp p.cmdType (p.stg.take p.cmdLen.toNat) (if p.cmdHasCb then some p.cmdTag else none) p.cmdK p.cmdSel)

/-- Hardware's order for operations requested in one cycle: RXBYTE, then SYNC_EXPIRE with the lowest `k`, then the command
port (R248, R104, R106). That `rst` comes before them is the model's reading (log 22). -/
def Obligations.HardwarePriority : Prop :=
  ∀ (s : State) (c : Cycle),
    (c.rst = true → s.cycleRequest c = some ⟨c.now, .rst, []⟩) ∧
    (c.rst = false → c.rxValid = true → s.cycleRequest c = some ⟨c.now, .rx, [c.rxData]⟩) ∧
    (c.rst = false → c.rxValid = false →
      (∀ (k : Nat) (x : Waiter), s.dsp.w[k]? = some x → x.waiting = true → 500 ≤ (c.now - x.tStart).toNat →
        (∀ (j : Nat) (y : Waiter), j < k → s.dsp.w[j]? = some y → y.waiting = true → (c.now - y.tStart).toNat < 500) →
        s.cycleRequest c = some ⟨c.now, .timer, [BitVec.ofNat 8 k]⟩) ∧
      ((∀ x ∈ s.dsp.w, x.waiting = true → (c.now - x.tStart).toNat < 500) →
        s.cycleRequest c = if c.cmdValid then some ⟨c.now, .cmd, c.cmdBytes⟩ else none))

/-! ### ASM: the cases of RXBYTE -/

/-- Which case a byte performs (R98), in a state in which `cnt` is at most `len` (part of the invariant of `AsmInv`). -/
def Obligations.CaseSelection : Prop :=
  ∀ (s : State) (b : Byte), s.asm.cnt.toNat ≤ s.asm.len.toNat →
    let mid := s.asm.st = .lengthHigh ∨ s.asm.st = .lengthLow ∨ s.asm.st = .payload
    let late := mid ∧ b = 0x7E ∧ 1000 < (s.now - s.asm.tPrev).toNat
    (s.selectRxb b = .drop ↔ s.asm.st = .complete) ∧
    (s.selectRxb b = .resync ↔ late) ∧
    (s.selectRxb b = .start ↔ s.asm.st = .awaitDelimiter ∧ b = 0x7E) ∧
    (s.selectRxb b = .skip ↔ s.asm.st = .awaitDelimiter ∧ b ≠ 0x7E) ∧
    (s.selectRxb b = .lenhiOk ↔ s.asm.st = .lengthHigh ∧ b = 0x00) ∧
    (s.selectRxb b = .lenhiBad ↔ s.asm.st = .lengthHigh ∧ b ≠ 0x00 ∧ ¬late) ∧
    (s.selectRxb b = .lenlo ↔ s.asm.st = .lengthLow ∧ ¬late) ∧
    (s.selectRxb b = .data ↔ s.asm.st = .payload ∧ ¬late ∧ s.asm.cnt.toNat < s.asm.len.toNat) ∧
    (s.selectRxb b = .csumOk ↔ s.asm.st = .payload ∧ ¬late ∧ s.asm.cnt = s.asm.len ∧ b = s.asm.csum) ∧
    (s.selectRxb b = .csumBad ↔ s.asm.st = .payload ∧ ¬late ∧ s.asm.cnt = s.asm.len ∧ b ≠ s.asm.csum)

/-- RXBYTE performs exactly the selected case; then, unless it was RXB.DROP, records the time; then, in XFA as a whole, hands
over a completed frame (R130, R141). It always completes. -/
def Obligations.RxbyteRunsSelectedCase : Prop :=
  ∀ (s : State) (b : Byte), ∃ t u, exec (.rxbyte b) s = .next t ∧ exec ((s.selectRxb b).toInstr b) s = .next u ∧
    (s.selectRxb b = .drop → t = u) ∧
    (s.selectRxb b ≠ .drop → ¬(u.asm.st = .complete ∧ s.par.rtrAttached = true) →
      t = { u with asm := { u.asm with tPrev := s.now } }) ∧
    (s.selectRxb b ≠ .drop → u.asm.st = .complete → s.par.rtrAttached = true →
      exec .routeAndClear { u with asm := { u.asm with tPrev := s.now } } = .next t)

/-- In AwaitDelimiter every byte but the delimiter changes nothing but `asm.t_prev` (R131): the row itself changes nothing,
RXBYTE records the time. `BytesAppended` stays 0. -/
def Obligations.SkipChangesNothingButTime : Prop :=
  ∀ (s : State) (b : Byte), s.asm.st = .awaitDelimiter → b ≠ 0x7E →
    exec (.rxbSkip b) s = .next { s with out := s.outAfter [] none [] } ∧
    exec (.rxbyte b) s = .next { s with asm := { s.asm with tPrev := s.now }, out := s.outAfter [] none [] } ∧
    s.bytesAppended = 0

/-- RXB.START and RXB.LENHI_OK advance `asm.st` by one position and change nothing else (R132, R134); so does RXBYTE but for
`asm.t_prev`, whatever the time since the previous byte. Every byte of memory is as before. -/
def Obligations.DelimiterAndHighLengthAdvance : Prop :=
  ∀ s : State,
    (s.asm.st = .awaitDelimiter →
      exec .rxbStart s = .next { s with asm := { s.asm with st := .lengthHigh }, out := s.outAfter [] none [] } ∧
      exec (.rxbyte 0x7E) s =
        .next { s with asm := { s.asm with st := .lengthHigh, tPrev := s.now }, out := s.outAfter [] none [] }) ∧
    (s.asm.st = .lengthHigh →
      exec .rxbLenhiOk s = .next { s with asm := { s.asm with st := .lengthLow }, out := s.outAfter [] none [] } ∧
      exec (.rxbyte 0x00) s =
        .next { s with asm := { s.asm with st := .lengthLow, tPrev := s.now }, out := s.outAfter [] none [] })

/-- RXB.RESYNC (R133): a delimiter more than 1000 ticks late in any mid-frame state restarts the frame; the four registers are
as after *clear* and a delimiter. DSP, RTR and the TX stream are untouched. -/
def Obligations.LateDelimiterRestarts : Prop :=
  ∀ s : State, (s.asm.st = .lengthHigh ∨ s.asm.st = .lengthLow ∨ s.asm.st = .payload) →
    1000 < (s.now - s.asm.tPrev).toNat →
    (∃ t, exec .rxbResync s = .next t ∧
      t.asm.st = .lengthHigh ∧ t.asm.len = 0 ∧ t.asm.cnt = 0 ∧ t.asm.csum = 0xFF ∧
      t.dsp = s.dsp ∧ t.sub = s.sub ∧ KeepsInputs s t ∧ t.out = s.outAfter [] none [.frameAbandoned]) ∧
    ∃ t, exec (.rxbyte 0x7E) s = .next t ∧
      t.asm.st = .lengthHigh ∧ t.asm.len = 0 ∧ t.asm.cnt = 0 ∧ t.asm.csum = 0xFF ∧ t.asm.tPrev = s.now ∧
      t.dsp = s.dsp ∧ t.sub = s.sub ∧ KeepsInputs s t ∧ t.out = s.outAfter [] none [.frameAbandoned]

/-- RXB.LENHI_BAD (R135): a nonzero high length byte, a delimiter in time among them, resets ASM without completing a frame. -/
def Obligations.BadLengthResets : Prop :=
  ∀ (s : State) (b : Byte), s.asm.st = .lengthHigh → b ≠ 0x00 →
    ¬(b = 0x7E ∧ 1000 < (s.now - s.asm.tPrev).toNat) →
    (∃ t, exec (.rxbLenhiBad b) s = .next t ∧
      t.asm.st = .awaitDelimiter ∧ t.asm.len = 0 ∧ t.asm.cnt = 0 ∧ t.asm.csum = 0xFF ∧ t.bytesAppended = 0 ∧
      t.dsp = s.dsp ∧ t.sub = s.sub ∧ KeepsInputs s t ∧ t.out = s.outAfter [] none [.badLength]) ∧
    ∃ t, exec (.rxbyte b) s = .next t ∧
      t.asm.st = .awaitDelimiter ∧ t.asm.len = 0 ∧ t.asm.cnt = 0 ∧ t.asm.csum = 0xFF ∧ t.asm.tPrev = s.now ∧
      t.dsp = s.dsp ∧ t.sub = s.sub ∧ KeepsInputs s t ∧ t.out = s.outAfter [] none [.badLength]

/-- RXB.LENLO (R136): the byte becomes the region length; the count is 0, the running checksum 0xFF, the buffer is not
touched. -/
def Obligations.LowLengthOpensPayload : Prop :=
  ∀ (s : State) (b : Byte), s.asm.st = .lengthLow → ¬(b = 0x7E ∧ 1000 < (s.now - s.asm.tPrev).toNat) →
    exec (.rxbLenlo b) s =
      .next { s with asm := { s.asm with st := .payload, len := b, cnt := 0, csum := 0xFF }, out := s.outAfter [] none [] } ∧
    exec (.rxbyte b) s =
      .next { s with asm := { s.asm with st := .payload, len := b, cnt := 0, csum := 0xFF, tPrev := s.now }
                     out := s.outAfter [] none [] }

/-- RXB.DATA (R137): the byte is stored at index `cnt`, every other byte of the buffer reads as before, the running checksum
falls by the byte modulo 256, the count rises by one; nothing else changes but, in RXBYTE, `asm.t_prev`. -/
def Obligations.DataByteStored : Prop :=
  ∀ (s : State) (b : Byte), s.asm.st = .payload → s.asm.cnt.toNat < s.asm.len.toNat →
    ¬(b = 0x7E ∧ 1000 < (s.now - s.asm.tPrev).toNat) →
    (∃ t, exec (.rxbData b) s = .next t ∧ t.asm.tPrev = s.asm.tPrev) ∧
    (∃ t, exec (.rxbyte b) s = .next t ∧ t.asm.tPrev = s.now) ∧
    ∀ t, exec (.rxbData b) s = .next t ∨ exec (.rxbyte b) s = .next t →
      t.asm.buf.read s.asm.cnt.toNat = some b ∧
      (∀ a, a ≠ s.asm.cnt.toNat → t.asm.buf.read a = s.asm.buf.read a) ∧
      t.asm.csum = s.asm.csum - b ∧ t.asm.cnt.toNat = s.asm.cnt.toNat + 1 ∧
      t.asm.st = .payload ∧ t.asm.len = s.asm.len ∧
      t.dsp = s.dsp ∧ t.sub = s.sub ∧ t.draws = s.draws ∧ KeepsInputs s t ∧ t.out = s.outAfter [] none []

/-- RXB.CSUM_OK (R138): the valid checksum byte completes the frame and changes no other register of ASM; the Frame is then
exposed. In a stand-alone ASM RXBYTE leaves it so (R141). -/
def Obligations.ValidChecksumCompletes : Prop :=
  ∀ s : State, s.asm.st = .payload → s.asm.cnt = s.asm.len →
    ¬(s.asm.csum = 0x7E ∧ 1000 < (s.now - s.asm.tPrev).toNat) →
    exec (.rxbCsumOk s.asm.csum) s = .next { s with asm := { s.asm with st := .complete }, out := s.outAfter [] none [] } ∧
    (s.par.rtrAttached = false →
      exec (.rxbyte s.asm.csum) s =
        .next { s with asm := { s.asm with st := .complete, tPrev := s.now }, out := s.outAfter [] none [] }) ∧
    ∀ t, exec (.rxbCsumOk s.asm.csum) s = .next t →
      t.frameValid = true ∧ t.bytesAppended.toNat = s.asm.len.toNat + 4 ∧
      t.exposed = some ⟨s.bufBytes s.asm.len.toNat, s.asm.csum⟩

/-- RXB.CSUM_BAD (R139): an invalid checksum byte discards the frame; it starts none, even when it is a delimiter in time. -/
def Obligations.InvalidChecksumDiscards : Prop :=
  ∀ (s : State) (b : Byte), s.asm.st = .payload → s.asm.cnt = s.asm.len → b ≠ s.asm.csum →
    ¬(b = 0x7E ∧ 1000 < (s.now - s.asm.tPrev).toNat) →
    (∃ t, exec (.rxbCsumBad b) s = .next t ∧
      t.asm.st = .awaitDelimiter ∧ t.asm.len = 0 ∧ t.asm.cnt = 0 ∧ t.asm.csum = 0xFF ∧ t.frameValid = false ∧
      t.dsp = s.dsp ∧ t.sub = s.sub ∧ KeepsInputs s t ∧ t.out = s.outAfter [] none [.badChecksum]) ∧
    ∃ t, exec (.rxbyte b) s = .next t ∧
      t.asm.st = .awaitDelimiter ∧ t.asm.len = 0 ∧ t.asm.cnt = 0 ∧ t.asm.csum = 0xFF ∧ t.asm.tPrev = s.now ∧
      t.dsp = s.dsp ∧ t.sub = s.sub ∧ KeepsInputs s t ∧ t.out = s.outAfter [] none [.badChecksum]

/-- RXB.DROP (R140): in Complete every byte is dropped, no state changes, `asm.t_prev` included. -/
def Obligations.CompleteDropsEveryByte : Prop :=
  ∀ (s : State) (b : Byte), s.asm.st = .complete →
    exec (.rxbDrop b) s = .next { s with out := s.outAfter [] none [.byteDropped] } ∧
    exec (.rxbyte b) s = .next { s with out := s.outAfter [] none [.byteDropped] }

/-- A row of RXBYTE that R98 does not select in the state is refused by name, and so is a router step with no Frame exposed:
the spec gives it no effect there (the model's choice, log 6). -/
def Obligations.UnselectedRowsRefused : Prop :=
  ∀ (s : State) (b : Byte) (row : RxbRow),
    (s.selectRxb b ≠ row → b = 0x7E ∨ (row ≠ .start ∧ row ≠ .resync) → b = 0x00 ∨ row ≠ .lenhiOk →
      exec (row.toInstr b) s = .refused (.rowNotSelected row)) ∧
    (s.asm.st ≠ .complete → ∀ i ∈ [Instr.routeAndClear, .rtIoSample, .rtAtResp, .rtRemoteAtResp, .rtZbRx, .rtUnknown],
      exec i s = .refused .routeNotSelected)

/-- ROUTE_AND_CLEAR (R141): in one step the router's case for the exposed frame does what it does on its own to DSP, RTR and the
outputs, and ASM is cleared. -/
def Obligations.RouteAndClearRoutesThenClears : Prop :=
  ∀ (s : State) (f : Frame), s.exposed = some f → s.par.rtrAttached = true →
    ∃ t u, exec .routeAndClear s = .next t ∧ exec (rtClass s.par.codes f.region).toInstr s = .next u ∧
      t.dsp = u.dsp ∧ t.sub = u.sub ∧ t.out = u.out ∧ KeepsInputs s t ∧
      t.asm.st = .awaitDelimiter ∧ t.asm.len = 0 ∧ t.asm.cnt = 0 ∧ t.asm.csum = 0xFF

/-- In XFA as a whole `asm.st` is never Complete between operations (R141). -/
def Obligations.NeverCompleteBetweenOperations : Prop :=
  ∀ (i : Instr) (s t : State), i.isOperation = true → s.par.rtrAttached = true → s.asm.st ≠ .complete →
    exec i s = .next t → t.asm.st ≠ .complete

/-- The transitions of `asm.st` by RXBYTE are those of R145's table (with ROUTE_AND_CLEAR inside it in XFA as a whole), and
no instruction but ASM_RESET, RESET, RXBYTE, FRAME and the cases and steps of RXBYTE changes it. -/
def Obligations.OnlyListedTransitions : Prop :=
  (∀ (b : Byte) (s t : State), exec (.rxbyte b) s = .next t →
    (s.asm.st, t.asm.st) ∈
      [(AsmSt.awaitDelimiter, AsmSt.awaitDelimiter), (.awaitDelimiter, .lengthHigh), (.lengthHigh, .lengthLow),
       (.lengthHigh, .awaitDelimiter), (.lengthHigh, .lengthHigh), (.lengthLow, .payload), (.lengthLow, .lengthHigh),
       (.payload, .payload), (.payload, .complete), (.payload, .awaitDelimiter), (.payload, .lengthHigh),
       (.complete, .complete)] ∧
    ((s.asm.st, t.asm.st) = (.payload, .complete) → s.par.rtrAttached = false)) ∧
  ∀ (i : Instr) (s t : State), exec i s = .next t → i.isOperation = true →
    (i ≠ .asmReset ∧ i ≠ .reset ∧ (∀ b, i ≠ .rxbyte b) ∧ ∀ r, i ≠ .frame r) → t.asm = s.asm

/-- ASM_RESET (R142): *clear* from any state, Complete among them; DSP and RTR untouched. -/
def Obligations.AsmResetClears : Prop :=
  ∀ s : State, ∃ t, exec .asmReset s = .next t ∧
    t.asm.st = .awaitDelimiter ∧ t.asm.len = 0 ∧ t.asm.cnt = 0 ∧ t.asm.csum = 0xFF ∧
    t.frameValid = false ∧ t.bytesAppended = 0 ∧
    t.dsp = s.dsp ∧ t.sub = s.sub ∧ KeepsInputs s t ∧
    t.out.tx = s.out.tx ∧ t.out.events = [] ∧ t.out.notes = []

/-- The acceptance law (R143, R162 (b)), for a stand-alone ASM in AwaitDelimiter: a delimiter, the length of `r`, the bytes of
`r` and a byte `c`, fed with no two consecutive bytes more than 1000 ticks apart, or with no 0x7E after the high length byte,
complete a frame exactly when `c` is the checksum of `r`, and the frame's region is then `r`. -/
def Obligations.AcceptanceLaw : Prop :=
  ∀ (s : State) (r : List Byte) (c : Byte) (bytes : List (Byte × Time)),
    s.asm.st = .awaitDelimiter → s.par.rtrAttached = false → r.length ≤ 255 →
    bytes.map Prod.fst = [0x7E, 0x00, BitVec.ofNat 8 r.length] ++ r ++ [c] →
    (timely bytes ∨ (0x7E : Byte) ∉ [BitVec.ofNat 8 r.length] ++ r ++ [c]) →
    ∃ t, feed bytes s = .next t ∧ t.dsp = s.dsp ∧ t.sub = s.sub ∧ t.out.tx = s.out.tx ∧
      (c = cks r → t.exposed = some ⟨r, c⟩) ∧ (c ≠ cks r → t.asm.st = .awaitDelimiter)

/-- FRAME received by XFA as a whole awaiting a delimiter: the region is routed by its class exactly as the router's case
does on a Frame with that region and its checksum, and ASM awaits a delimiter again (R141, R143, R144). That a whole frame
is one instruction is the model's choice (log 7). -/
def Obligations.ReceivedFrameIsRouted : Prop :=
  ∀ (s : State) (r : List Byte), s.asm.st = .awaitDelimiter → s.par.rtrAttached = true → r.length ≤ 255 →
    ∃ t u v, exec (.frame r) s = .next t ∧ u.exposed = some ⟨r, cks r⟩ ∧
      u.dsp = s.dsp ∧ u.sub = s.sub ∧ u.par = s.par ∧ u.out.tx = s.out.tx ∧
      exec (rtClass s.par.codes r).toInstr u = .next v ∧
      t.dsp = v.dsp ∧ t.sub = v.sub ∧ t.out = v.out ∧ KeepsInputs s t ∧
      t.asm.st = .awaitDelimiter ∧ t.asm.len = 0 ∧ t.asm.cnt = 0 ∧ t.asm.csum = 0xFF

/-! ### SER -/

/-- SERIALIZE (R160): the delimiter, the big-endian length, the region and the checksum are appended to the TX stream after one
`tx_flush`; no state of XFA changes. -/
def Obligations.SerializeAppendsOneFrame : Prop :=
  ∀ (s : State) (r : List Byte), r.length ≤ 255 →
    ∃ t, exec (.serialize r) s = .next t ∧
      t.out.tx = s.out.tx ++ .flush :: ([0x7E, 0x00, BitVec.ofNat 8 r.length] ++ r ++
                  [BitVec.ofNat 8 (0xFF - (r.map BitVec.toNat).sum % 256)]).map .byte ∧
      t.out.events = [] ∧ t.out.notes = [] ∧ t = { s with out := t.out }

/-! ### DSP -/

/-- ALLOC_ID (R172): the ID is returned, the counter advances, nothing else changes: no table entry, nothing sent; the ID is
never 0 (with the counter in its band, part of `DspInv`). -/
def Obligations.AllocIdReturnsAndAdvances : Prop :=
  ∀ s : State, inBand s.par s.dsp.nextId.toNat →
    exec .allocId s = .next { s with
      dsp := { s.dsp with nextId := if s.dsp.nextId = 9 then s.par.idBand.lo else s.dsp.nextId + 1 }
      out := s.outAfter [] (some ⟨true, some s.dsp.nextId⟩) [] } ∧
    s.dsp.nextId ≠ 0

/-- From a counter at `ID_LO` the results of successive ALLOC_IDs are `ID_LO, ..., 9, ID_LO, ...` with period
`9 − ID_LO + 1`, for both values of `ID_LO` (R171). -/
def Obligations.AllocationCyclesThroughBand : Prop :=
  ∀ (s : State) (n k : Nat), s.dsp.nextId = s.par.idBand.lo → k < n →
    (allocated n s)[k]? =
      some (some (BitVec.ofNat 8 (s.par.idBand.lo.toNat + k % (10 - s.par.idBand.lo.toNat))))

/-- SEND_FF (R174): a frame with ID 0; the counter and the table are not touched. Over 252 bytes it is refused. -/
def Obligations.SendFfSendsWithIdZero : Prop :=
  ∀ (s : State) (ty : Byte) (body : List Byte),
    (body.length ≤ 252 →
      exec (.sendFf ty body) s =
        .next { s with out := ⟨s.out.tx ++ txFrame ([ty, 0x00] ++ body), [], some ⟨true, some 0⟩, []⟩ }) ∧
    (252 < body.length →
      exec (.sendFf ty body) s = .next { s with out := s.outAfter [] (some ⟨false, none⟩) [.refused] })

/-- SEND_ASYNC (R175): over 252 bytes of body it is refused; else the ID of the counter is taken, its slot written whatever it
held, the frame with that ID sent; every other slot, the waiters, ASM and RTR are as before. -/
def Obligations.SendAsyncStoresAndSends : Prop :=
  ∀ (s : State) (ty : Byte) (body : List Byte) (cb : Option Byte),
    (252 < body.length →
      exec (.sendAsync ty body cb) s = .next { s with out := s.outAfter [] (some ⟨false, none⟩) [.refused] }) ∧
    (body.length ≤ 252 → inBand s.par s.dsp.nextId.toNat →
      ∃ t, exec (.sendAsync ty body cb) s = .next t ∧
        t.dsp.tbl[s.dsp.nextId.toNat]? =
          some ⟨true, match cb with | none => .none | some x => .tag x⟩ ∧
        (∀ i : Nat, i ≠ s.dsp.nextId.toNat → t.dsp.tbl[i]? = s.dsp.tbl[i]?) ∧
        t.dsp.nextId = (if s.dsp.nextId = 9 then s.par.idBand.lo else s.dsp.nextId + 1) ∧
        t.dsp.w = s.dsp.w ∧ t.asm = s.asm ∧ t.sub = s.sub ∧ t.draws = s.draws ∧ KeepsInputs s t ∧
        t.out = ⟨s.out.tx ++ txFrame ([ty, s.dsp.nextId] ++ body), [], some ⟨true, some s.dsp.nextId⟩, []⟩)

/-- The command-specific senders are SEND_ASYNC with the type byte fixed (R180, R181, R182): the same answer on every state, and
on a body of at most 252 bytes the frame is sent under the ID of the counter. -/
def Obligations.CommandSendersAreAsync : Prop :=
  ∀ (s : State) (body : List Byte) (cb : Option Byte),
    ∀ p ∈ [(Instr.sendAt body cb, s.par.codes.tAtCmd), (.sendRemoteAt body cb, s.par.codes.tRemoteAtCmd),
           (.sendData body cb, s.par.codes.tZbTx)],
      exec p.1 s = exec (.sendAsync p.2 body cb) s ∧
      (body.length ≤ 252 → ∃ t, exec p.1 s = .next t ∧
        t.out = ⟨s.out.tx ++ txFrame ([p.2, s.dsp.nextId] ++ body), [], some ⟨true, some s.dsp.nextId⟩, []⟩)

/-- SEND_SYNC (R190): the slot gets `Sync(k)`, waiter `k` is armed with the ID and the time, the frame is sent. -/
def Obligations.SendSyncArmsWaiter : Prop :=
  ∀ (s : State) (ty : Byte) (body : List Byte) (k : Byte) (x : Waiter), body.length ≤ 252 →
    inBand s.par s.dsp.nextId.toNat → s.dsp.w[k.toNat]? = some x → x.waiting = false →
    ∃ t, exec (.sendSync ty body k) s = .next t ∧
      t.dsp.tbl[s.dsp.nextId.toNat]? = some ⟨true, .sync k⟩ ∧
      (∀ i : Nat, i ≠ s.dsp.nextId.toNat → t.dsp.tbl[i]? = s.dsp.tbl[i]?) ∧
      t.dsp.nextId = (if s.dsp.nextId = 9 then s.par.idBand.lo else s.dsp.nextId + 1) ∧
      t.dsp.w[k.toNat]? = some ⟨true, s.dsp.nextId, s.now⟩ ∧
      (∀ j : Nat, j ≠ k.toNat → t.dsp.w[j]? = s.dsp.w[j]?) ∧
      t.asm = s.asm ∧ t.sub = s.sub ∧ t.draws = s.draws ∧ KeepsInputs s t ∧
      t.out = ⟨s.out.tx ++ txFrame ([ty, s.dsp.nextId] ++ body), [], some ⟨true, some s.dsp.nextId⟩, []⟩

/-- Refusal (R176): an over-long body in any send, and in SEND_SYNC `k ≥ N_SYNC` or a busy waiter, changes no state, sends
nothing, and `res_ok = 0`. -/
def Obligations.RefusedSendsChangeNothing : Prop :=
  ∀ (s : State) (ty k : Byte) (body : List Byte) (cb : Option Byte),
    (252 < body.length →
      ∀ i ∈ [Instr.sendFf ty body, .sendAsync ty body cb, .sendAt body cb, .sendRemoteAt body cb, .sendData body cb,
             .sendSync ty body k],
        exec i s = .next { s with out := s.outAfter [] (some ⟨false, none⟩) [.refused] }) ∧
    (s.dsp.w.length ≤ k.toNat ∨ (∃ x, s.dsp.w[k.toNat]? = some x ∧ x.waiting = true) →
      exec (.sendSync ty body k) s = .next { s with out := s.outAfter [] (some ⟨false, none⟩) [.refused] })

/-- SYNC_EXPIRE (R192): enabled exactly when the waiter waits and at least 500 ticks have elapsed; it then releases the waiter
with SYNC_NOFRAME and leaves the table alone. When it is not enabled the model refuses it (log 19). That the released waiter's
`id` and `t_start` keep their values is the model's reading of the pseudocode (log 20): U3 leaves them any value. -/
def Obligations.SyncExpireReleasesWaiter : Prop :=
  ∀ (s : State) (k : Byte),
    (∀ x, s.dsp.w[k.toNat]? = some x → x.waiting = true → 500 ≤ (s.now - x.tStart).toNat →
      exec (.syncExpire k) s = .next { s with
        dsp := { s.dsp with w := s.dsp.w.set k.toNat { x with waiting := false } }
        out := s.outAfter [.syncNoframe k] none [.sendTimeout] }) ∧
    ((∀ x, s.dsp.w[k.toNat]? = some x → x.waiting = false ∨ (s.now - x.tStart).toNat < 500) →
      exec (.syncExpire k) s = .refused (.expireNotEnabled k))

/-- A response and an expiry for one waiter are never both delivered (R73 (c), R194): whichever instruction emits SYNC_DONE or
SYNC_NOFRAME for a waiter finds it waiting and leaves it not waiting, and SYNC_NOFRAME never comes before 500 ticks. -/
def Obligations.WaiterReleasedOnce : Prop :=
  ∀ (i : Instr) (s t : State) (k : Byte), exec i s = .next t →
    ((∃ f, Event.syncDone k f ∈ t.out.events) ∨ Event.syncNoframe k ∈ t.out.events) →
    ∃ x y, s.dsp.w[k.toNat]? = some x ∧ x.waiting = true ∧ t.dsp.w[k.toNat]? = some y ∧ y.waiting = false ∧
      (Event.syncNoframe k ∈ t.out.events → 500 ≤ (s.now - x.tStart).toNat)

/-- The outcome law of the synchronous send (R194) under weak fairness (R248): in an execution that is weakly fair, a waiting
waiter keeps waiting, with no event for it, up to an operation that emits exactly one event for it, SYNC_DONE or, if and only if
it is SYNC_EXPIRE, SYNC_NOFRAME, and releases it. Premises: no RESET comes (R271), and from some instant on, while it waits, 500
ticks have elapsed (R283 (b), U24). -/
def Obligations.FairRunReleasesWaiter : Prop :=
  ∀ (ρ : Run) (n due : Nat) (k : Byte) (x : Waiter), ρ.Legal → ρ.WeaklyFair →
    (ρ.state n).dsp.w[k.toNat]? = some x → x.waiting = true →
    (∀ m, n ≤ m → ρ.done m ≠ some .reset) →
    (∀ m, due ≤ m → (ρ.state m).dsp.w[k.toNat]? = some x → 500 ≤ (ρ.clock m - x.tStart).toNat) →
    ∃ m, n ≤ m ∧
      (∀ j, n ≤ j → j ≤ m → (ρ.state j).dsp.w[k.toNat]? = some x) ∧
      (∀ j, n ≤ j → j < m → (ρ.state (j + 1)).releasesOf k = []) ∧
      (∃ e, (ρ.state (m + 1)).releasesOf k = [e] ∧
        (e = .syncNoframe k ↔ ρ.done m = some (.syncExpire k)) ∧
        (e = .syncNoframe k → 500 ≤ (ρ.clock m - x.tStart).toNat)) ∧
      ∃ y, (ρ.state (m + 1)).dsp.w[k.toNat]? = some y ∧ y.waiting = false

/-- Only SEND_SYNC arms a waiter, and no instruction but RESET disarms one without emitting its event (R190 to R192, R271). -/
def Obligations.WaitersArmedAndReleasedOnlyByRule : Prop :=
  ∀ (i : Instr) (s t : State) (j : Nat) (x y : Waiter), exec i s = .next t →
    s.dsp.w[j]? = some x → t.dsp.w[j]? = some y → j < 256 →
    (x.waiting = false → y.waiting = true → ∃ ty body, i = .sendSync ty body (BitVec.ofNat 8 j)) ∧
    (x.waiting = true → y.waiting = false → i ≠ .reset →
      (∃ f, Event.syncDone (BitVec.ofNat 8 j) f ∈ t.out.events) ∨ Event.syncNoframe (BitVec.ofNat 8 j) ∈ t.out.events)

/-- A slot becomes occupied only by a correlated send, at the ID of the counter; it changes only by such a send, by RESET or in
routing a frame, which can only empty it (R31, R38, R173, R214). -/
def Obligations.TableWrittenOnlyByRule : Prop :=
  ∀ (i : Instr) (s t : State) (j : Nat) (h : j < 10), exec i s = .next t → t.dsp.tbl[j] ≠ s.dsp.tbl[j] →
    (i.isCorrelated = true ∧ j = s.dsp.nextId.toNat ∧ t.dsp.tbl[j].occupied = true) ∨
    ((i.mayRoute = true ∨ i = .reset) ∧ t.dsp.tbl[j] = ⟨false, .none⟩)

/-! ### RTR -/

/-- A response that is too short for an ID, or whose ID is 10 or more or finds a free slot, changes no state and emits
nothing (R214, R217), for AT and Remote AT responses alike (R216). -/
def Obligations.UncorrelatedResponseDropped : Prop :=
  ∀ (s : State) (f : Frame), s.exposed = some f → s.par.rtrAttached = true →
    ∀ p ∈ [(Instr.rtAtResp, RtClass.atResp), (.rtRemoteAtResp, .remoteAtResp)], rtClass s.par.codes f.region = p.2 →
      (f.region.length < 2 → exec p.1 s = .next { s with out := s.outAfter [] none [.shortFrame] }) ∧
      (∀ id, f.region[1]? = some id →
        (10 ≤ id.toNat ∨ ∃ x, s.dsp.tbl[id.toNat]? = some x ∧ x.occupied = false) →
        exec p.1 s = .next { s with out := s.outAfter [] none [.correlationMiss] })

/-- A response that finds its slot (R213, R214, R215, R216, R191): the callback is delivered once, a live waiter is released,
a stale one absorbs the frame; then the slot is emptied unless the response's command field is the discovery command; every
other slot and all other state are as before. That the released waiter's `id` and `t_start` keep their values is the model's
reading of the pseudocode (log 20): U3 leaves them any value. -/
def Obligations.CorrelatedResponseDelivered : Prop :=
  ∀ (s : State) (f : Frame), s.exposed = some f → s.par.rtrAttached = true →
    ∀ p ∈ [(Instr.rtAtResp, RtClass.atResp), (.rtRemoteAtResp, .remoteAtResp)], rtClass s.par.codes f.region = p.2 →
      ∀ (id : Byte) (cb : Cb), f.region[1]? = some id → s.dsp.tbl[id.toNat]? = some ⟨true, cb⟩ →
        ∃ t, exec p.1 s = .next t ∧
          (∀ x, cb = .tag x → t.out = s.outAfter [.resp x id f] none [] ∧ t.dsp.w = s.dsp.w) ∧
          (cb = .none → t.out = s.outAfter [] none [] ∧ t.dsp.w = s.dsp.w) ∧
          (∀ k x, cb = .sync k → s.dsp.w[k.toNat]? = some x →
            (x.waiting = true ∧ x.id = id →
              t.out = s.outAfter [.syncDone k f] none [] ∧
              t.dsp.w = s.dsp.w.set k.toNat { x with waiting := false }) ∧
            (¬(x.waiting = true ∧ x.id = id) → t.out = s.outAfter [] none [] ∧ t.dsp.w = s.dsp.w)) ∧
          ((4 ≤ f.region.length ∧ f.region[2]? = some s.par.codes.disc0 ∧ f.region[3]? = some s.par.codes.disc1 →
              t.dsp.tbl = s.dsp.tbl) ∧
            (¬(4 ≤ f.region.length ∧ f.region[2]? = some s.par.codes.disc0 ∧ f.region[3]? = some s.par.codes.disc1) →
              t.dsp.tbl[id.toNat]? = some ⟨false, .none⟩ ∧
              ∀ j : Nat, j ≠ id.toNat → t.dsp.tbl[j]? = s.dsp.tbl[j]?)) ∧
          t.dsp.nextId = s.dsp.nextId ∧ t.asm = s.asm ∧ t.sub = s.sub ∧ t.draws = s.draws ∧ KeepsInputs s t

/-- RT.IO_SAMPLE (R211, R96): nothing is published unless every byte the decode reads exists; then DIO, if the digital mask is
nonzero and its subscriber is registered, before one AIO with the four channels, each present channel the next two bytes,
big-endian. No state changes. -/
def Obligations.IoSamplePublished : Prop :=
  ∀ (s : State) (f : Frame), s.exposed = some f → s.par.rtrAttached = true → rtClass s.par.codes f.region = .ioSample →
    let r := fun i => f.region.getD i 0
    let n := fun ch => if (r 15).getLsbD ch then 1 else 0
    let p := if r 13 = 0 ∧ r 14 = 0 then 16 else 18
    let a := fun ch at_ => if (r 15).getLsbD ch then some (r at_ ++ r (at_ + 1) : Half) else none
    (f.region.length < 16 ∨ f.region.length < p + 2 * (n 0 + n 1 + n 2 + n 3) →
      exec .rtIoSample s = .next { s with out := s.outAfter [] none [.shortFrame] }) ∧
    (16 ≤ f.region.length ∧ p + 2 * (n 0 + n 1 + n 2 + n 3) ≤ f.region.length →
      exec .rtIoSample s = .next { s with
        out := s.outAfter
          ((if ¬(r 13 = 0 ∧ r 14 = 0) ∧ s.sub.dioEn = true then [.dio (r 17)] else []) ++
           (if s.sub.aioEn = true then
              [.aio (a 0 p) (a 1 (p + 2 * n 0)) (a 2 (p + 2 * (n 0 + n 1))) (a 3 (p + 2 * (n 0 + n 1 + n 2)))] else []))
          none [] })

/-- RT.ZB_RX (R218): the bytes after the 12-byte header are published if the subscriber is registered; no state changes. -/
def Obligations.ZigbeeDataPublished : Prop :=
  ∀ (s : State) (f : Frame), s.exposed = some f → s.par.rtrAttached = true → rtClass s.par.codes f.region = .zbRx →
    (f.region.length < 12 → exec .rtZbRx s = .next { s with out := s.outAfter [] none [.shortFrame] }) ∧
    (12 ≤ f.region.length →
      exec .rtZbRx s =
        .next { s with out := s.outAfter (if s.sub.rxdEn then [.rxd (f.region.drop 12)] else []) none [] })

/-- RT.UNKNOWN (R219): an empty region and every type byte that is none of the router's four are ignored: no state changes,
nothing is emitted. -/
def Obligations.UnknownTypeIgnored : Prop :=
  ∀ (s : State) (f : Frame), s.exposed = some f → s.par.rtrAttached = true →
    (∀ b, f.region.head? = some b →
      b ≠ s.par.codes.tIoSample ∧ b ≠ s.par.codes.tAtResp ∧ b ≠ s.par.codes.tRemoteAtResp ∧ b ≠ s.par.codes.tZbRx) →
    exec .rtUnknown s = .next { s with out := s.outAfter [] none [.unknownType] }

/-- SUBSCRIBE (R230): `sel` 0, 1 and 2 set their enable bit and nothing else; `sel` 3 has no effect. `res_ok` of the three
is log 13, and that `sel` 3 is performed as hardware does log 8. -/
def Obligations.SubscribeSetsItsBit : Prop :=
  ∀ s : State,
    exec (.subscribe 0) s =
      .next { s with sub := { s.sub with dioEn := true }, out := s.outAfter [] (some ⟨true, none⟩) [] } ∧
    exec (.subscribe 1) s =
      .next { s with sub := { s.sub with aioEn := true }, out := s.outAfter [] (some ⟨true, none⟩) [] } ∧
    exec (.subscribe 2) s =
      .next { s with sub := { s.sub with rxdEn := true }, out := s.outAfter [] (some ⟨true, none⟩) [] } ∧
    exec (.subscribe 3) s = .next { s with out := s.outAfter [] (some ⟨false, none⟩) [.refused] }

/-- Enable bits are set by SUBSCRIBE only and cleared by RESET only (R29, R35). -/
def Obligations.SubscriptionsOnlyClearedByReset : Prop :=
  ∀ (i : Instr) (s t : State), exec i s = .next t → t.sub ≠ s.sub →
    i = .reset ∨ ∃ sel, i = .subscribe sel ∧
      (s.sub.dioEn = true → t.sub.dioEn = true) ∧ (s.sub.aioEn = true → t.sub.aioEn = true) ∧
      (s.sub.rxdEn = true → t.sub.rxdEn = true)

/-- Event discipline (R231, R243): an operation emits at most one event, or DIO then AIO, and notes at most one cause. FRAME is
many RXBYTEs and is left out. -/
def Obligations.EventDiscipline : Prop :=
  ∀ (i : Instr) (s t : State), exec i s = .next t → (∀ r, i ≠ .frame r) →
    t.out.notes.length ≤ 1 ∧
    (t.out.events.length ≤ 1 ∨ ∃ v a0 a1 a2 a3, t.out.events = [.dio v, .aio a0 a1 a2 a3])

/-! ### The whole machine -/

/-- NOP changes no state and emits nothing; the reserved codes have no effect and `res_ok = 0` (R111, R240). That the model
performs the reserved codes as hardware does is its own choice (log 8), and NOP's `res_ok` is its reading (log 13). -/
def Obligations.NopAndReservedCodes : Prop :=
  ∀ s : State,
    exec .nop s = .next { s with out := s.outAfter [] (some ⟨true, none⟩) [] } ∧
    ∀ i ∈ [Instr.reservedB, .reservedC, .reservedD, .reservedE, .reservedF],
      exec i s = .next { s with out := s.outAfter [] (some ⟨false, none⟩) [.refused] }

/-- RESET (R270, R271): every register for which the spec states a reset value takes it, from any state; no event is emitted. -/
def Obligations.ResetOperation : Prop :=
  ∀ s : State, ∃ t, exec .reset s = .next t ∧
    t.asm.st = .awaitDelimiter ∧ t.asm.len = 0 ∧ t.asm.cnt = 0 ∧ t.asm.csum = 0xFF ∧ t.bytesAppended = 0 ∧
    t.dsp.nextId = s.par.idBand.lo ∧ (∀ i, ∀ h : i < 10, t.dsp.tbl[i] = ⟨false, .none⟩) ∧
    t.dsp.w.length = s.dsp.w.length ∧ (∀ x ∈ t.dsp.w, x.waiting = false) ∧
    t.sub = ⟨false, false, false⟩ ∧ KeepsInputs s t ∧ t.out = s.outAfter [] none []

/-- What reset leaves, as far as the spec gives it (R270), whatever `ID_LO` is. -/
def Obligations.ResetState : Prop :=
  State.reset.asm.st = .awaitDelimiter ∧ State.reset.asm.len = 0 ∧ State.reset.asm.cnt = 0 ∧
  State.reset.asm.csum = 0xFF ∧ State.reset.bytesAppended = 0 ∧
  State.reset.dsp.nextId = State.reset.par.idBand.lo ∧
  (∀ i, ∀ h : i < 10, State.reset.dsp.tbl[i] = ⟨false, .none⟩) ∧
  (∀ x ∈ State.reset.dsp.w, x.waiting = false) ∧ State.reset.sub = ⟨false, false, false⟩

/-- Every step keeps the invariants of R24 and R30 to R33 and the canonical form of the buffer. -/
def Obligations.StepKeepsInvariant : Prop :=
  ∀ s t : State, Inv s → step s = .next t → Inv t

/-- The invariant holds at reset. -/
def Obligations.ResetMeetsInvariant : Prop := Inv State.reset

/-- No instruction writes the parameters, the time input or the queue of requests, nor changes the number of waiters (R9,
R20). -/
def Obligations.ParametersNeverWritten : Prop :=
  ∀ (i : Instr) (s t : State), exec i s = .next t → KeepsInputs s t ∧ t.dsp.w.length = s.dsp.w.length

/-- An instruction leaves the TX stream as it is or appends one whole frame to it, so frames are contiguous and in the order of
their sends (R66, R161); it writes one only if it is a send or SERIALIZE. -/
def Obligations.TxGrowsByWholeFrames : Prop :=
  ∀ (i : Instr) (s t : State), i.wf = true → exec i s = .next t →
    t.out.tx = s.out.tx ∨
    ((i.isCorrelated = true ∨ (∃ ty body, i = .sendFf ty body) ∨ ∃ r, i = .serialize r) ∧
      ∃ r : List Byte, r.length ≤ 255 ∧ t.out.tx = s.out.tx ++ .flush :: (serialize r).map .byte)

/-- `asm.t_prev` is not read outside a frame (R24 (d), R130): in AwaitDelimiter an RXBYTE gives the same state whatever it
holds, and in Complete the state differs in nothing else. -/
def Obligations.IdleTimeNotRead : Prop :=
  ∀ (s : State) (b : Byte) (x : Time),
    (s.asm.st = .awaitDelimiter →
      exec (.rxbyte b) { s with asm := { s.asm with tPrev := x } } = exec (.rxbyte b) s) ∧
    (s.asm.st = .complete → ∀ t, exec (.rxbyte b) s = .next t →
      exec (.rxbyte b) { s with asm := { s.asm with tPrev := x } } = .next { t with asm := { t.asm with tPrev := x } })

/-- Buffer bytes at or above `cnt` are not read (R25, R62): from two states that meet the invariant of ASM and differ only in
such bytes, an RXBYTE gives states that differ only in such bytes. -/
def Obligations.UnwrittenBytesNotRead : Prop :=
  ∀ (s : State) (b : Byte) (m : Memory) (t u : State), AsmInv s →
    (∀ i, i < s.asm.cnt.toNat → m.read i = s.asm.buf.read i) →
    exec (.rxbyte b) s = .next t → exec (.rxbyte b) { s with asm := { s.asm with buf := m } } = .next u →
    u = { t with asm := { t.asm with buf := u.asm.buf } } ∧
    ∀ i, i < t.asm.cnt.toNat → u.asm.buf.read i = t.asm.buf.read i

/-- `BytesAppended` (R27): the table of its values, in 9 bits without wrap. -/
def Obligations.BytesAppendedTable : Prop :=
  ∀ s : State,
    (s.asm.st = .awaitDelimiter → s.bytesAppended.toNat = 0) ∧
    (s.asm.st = .lengthHigh → s.bytesAppended.toNat = 1) ∧
    (s.asm.st = .lengthLow → s.bytesAppended.toNat = 2) ∧
    (s.asm.st = .payload → s.bytesAppended.toNat = 3 + s.asm.cnt.toNat) ∧
    (s.asm.st = .complete → s.bytesAppended.toNat = s.asm.len.toNat + 4)

/-- The Frame view (R28): exposed in Complete only, with the buffer's first `len` bytes as region, type and ID absent when the
region is too short for them, and the running checksum, which is then the checksum of the region. -/
def Obligations.FrameView : Prop :=
  ∀ s : State, AsmInv s →
    (s.asm.st ≠ .complete → s.exposed = none) ∧
    (s.asm.st = .complete → ∃ f, s.exposed = some f ∧
      f.region.length = s.asm.len.toNat ∧ (∀ i, i < s.asm.len.toNat → f.region[i]? = s.asm.buf.read i) ∧
      f.type = (if 1 ≤ s.asm.len.toNat then s.asm.buf.read 0 else none) ∧
      f.id = (if 2 ≤ s.asm.len.toNat then s.asm.buf.read 1 else none) ∧
      f.body = f.region.drop 2 ∧ f.checksum = s.asm.csum ∧ f.checksum = cks f.region)
end

