-- ==== Sys2Proof/Laws/Decode.lean ====
section
/-! SUPPORT. The decode maps and the checksum: the small lemmas of their definitions (R22, R90, R92, R98, R106). -/

namespace Sys2Proof

@[simp] theorem sumBytes_nil : sumBytes [] = 0 := rfl

@[simp] theorem sumBytes_append (r q : List Byte) : sumBytes (r ++ q) = sumBytes r + sumBytes q := by simp [sumBytes]

@[simp] theorem sumBytes_singleton (b : Byte) : sumBytes [b] = b.toNat := by simp [sumBytes]

@[simp] theorem cks_nil : cks [] = 0xFF := rfl

/-- The subtraction of R92 never borrows. -/
theorem cks_toNat (r : List Byte) : (cks r).toNat = 0xFF - sumBytes r % 256 := by
  simp only [cks, BitVec.toNat_ofNat]; omega

/-- The running form of the checksum (R92 (c)). -/
theorem cks_append_byte (r : List Byte) (b : Byte) : cks (r ++ [b]) = cks r - b := by
  apply BitVec.eq_of_toNat_eq
  rw [BitVec.toNat_sub, cks_toNat, cks_toNat, sumBytes_append, sumBytes_singleton]
  have := b.isLt
  omega

@[simp] theorem serialize_length (r : List Byte) : (serialize r).length = r.length + 4 := by
  simp [serialize]

@[simp] theorem AsmSt.ofCode_code (a : AsmSt) : AsmSt.ofCode a.code = some a := by cases a <;> decide

/-- The selector byte gives back what it was made of. -/
theorem selByte_fields (a : AsmSt) (slow full ok : Bool) :
    (selByte a slow full ok).extractLsb' 0 3 = a.code ∧ (selByte a slow full ok).getLsbD 3 = slow ∧
      (selByte a slow full ok).getLsbD 4 = full ∧ (selByte a slow full ok).getLsbD 5 = ok := by
  cases a <;> cases slow <;> cases full <;> cases ok <;> decide

/-- A byte with the selector of a state of ASM decodes to the row R98 selects. -/
theorem decodeRxb_selByte (b : Byte) (a : AsmSt) (slow full ok : Bool) :
    decodeRxb [b, selByte a slow full ok] = .ok ((rxbRow a b slow full ok).toInstr b) := by
  obtain ⟨h1, h2, h3, h4⟩ := selByte_fields a slow full ok
  simp only [decodeRxb, h1, h2, h3, h4, AsmSt.ofCode_code]

/-- A command record decodes by its code, its bytes and its other fields. -/
theorem decodeCmd_cmdRecord (op ty : Byte) (bytes : List Byte) (cb : Option Byte) (k sel : Byte)
    (h : bytes.length ≤ 255) :
    decodeCmd (cmdRecord op ty bytes cb k sel) =
      .ok (decodeOp (op.extractLsb' 0 4) ty bytes cb k (sel.extractLsb' 0 2)) := by
  have hl : (lenLoByte bytes.length).toNat = bytes.length := by simp [lenLoByte]; omega
  cases cb <;> simp [decodeCmd, cmdRecord, hl]

end Sys2Proof
end

