-- ==== Sys2Proof/Laws/State.lean ====
section
/-! SUPPORT. What each named update does to each field of State, true by `rfl`: no later proof unfolds a record update. -/

namespace Sys2Proof.Machine

/-! ### quiet -/

@[simp] theorem State.quiet_asm (s : State) : (s.quiet).asm = s.asm := rfl
@[simp] theorem State.quiet_dsp (s : State) : (s.quiet).dsp = s.dsp := rfl
@[simp] theorem State.quiet_sub (s : State) : (s.quiet).sub = s.sub := rfl
@[simp] theorem State.quiet_par (s : State) : (s.quiet).par = s.par := rfl
@[simp] theorem State.quiet_now (s : State) : (s.quiet).now = s.now := rfl
@[simp] theorem State.quiet_inputs (s : State) : (s.quiet).inputs = s.inputs := rfl
@[simp] theorem State.quiet_out (s : State) : (s.quiet).out = ⟨s.out.tx, [], none, []⟩ := rfl
@[simp] theorem State.quiet_draws (s : State) : (s.quiet).draws = s.draws := rfl

/-! ### emit -/

@[simp] theorem State.emit_asm (s : State) (e : Event) : (s.emit e).asm = s.asm := rfl
@[simp] theorem State.emit_dsp (s : State) (e : Event) : (s.emit e).dsp = s.dsp := rfl
@[simp] theorem State.emit_sub (s : State) (e : Event) : (s.emit e).sub = s.sub := rfl
@[simp] theorem State.emit_par (s : State) (e : Event) : (s.emit e).par = s.par := rfl
@[simp] theorem State.emit_now (s : State) (e : Event) : (s.emit e).now = s.now := rfl
@[simp] theorem State.emit_inputs (s : State) (e : Event) : (s.emit e).inputs = s.inputs := rfl
@[simp] theorem State.emit_out (s : State) (e : Event) : (s.emit e).out = { s.out with events := s.out.events ++ [e] } := rfl
@[simp] theorem State.emit_draws (s : State) (e : Event) : (s.emit e).draws = s.draws := rfl

/-! ### note -/

@[simp] theorem State.note_asm (s : State) (c : Cause) : (s.note c).asm = s.asm := rfl
@[simp] theorem State.note_dsp (s : State) (c : Cause) : (s.note c).dsp = s.dsp := rfl
@[simp] theorem State.note_sub (s : State) (c : Cause) : (s.note c).sub = s.sub := rfl
@[simp] theorem State.note_par (s : State) (c : Cause) : (s.note c).par = s.par := rfl
@[simp] theorem State.note_now (s : State) (c : Cause) : (s.note c).now = s.now := rfl
@[simp] theorem State.note_inputs (s : State) (c : Cause) : (s.note c).inputs = s.inputs := rfl
@[simp] theorem State.note_out (s : State) (c : Cause) : (s.note c).out = { s.out with notes := s.out.notes ++ [c] } := rfl
@[simp] theorem State.note_draws (s : State) (c : Cause) : (s.note c).draws = s.draws := rfl

/-! ### answer -/

@[simp] theorem State.answer_asm (s : State) (ok : Bool) (id : Option Byte) : (s.answer ok id).asm = s.asm := rfl
@[simp] theorem State.answer_dsp (s : State) (ok : Bool) (id : Option Byte) : (s.answer ok id).dsp = s.dsp := rfl
@[simp] theorem State.answer_sub (s : State) (ok : Bool) (id : Option Byte) : (s.answer ok id).sub = s.sub := rfl
@[simp] theorem State.answer_par (s : State) (ok : Bool) (id : Option Byte) : (s.answer ok id).par = s.par := rfl
@[simp] theorem State.answer_now (s : State) (ok : Bool) (id : Option Byte) : (s.answer ok id).now = s.now := rfl
@[simp] theorem State.answer_inputs (s : State) (ok : Bool) (id : Option Byte) : (s.answer ok id).inputs = s.inputs := rfl
@[simp] theorem State.answer_out (s : State) (ok : Bool) (id : Option Byte) : (s.answer ok id).out = { s.out with result := some ⟨ok, id⟩ } := rfl
@[simp] theorem State.answer_draws (s : State) (ok : Bool) (id : Option Byte) : (s.answer ok id).draws = s.draws := rfl

/-! ### refuse -/

@[simp] theorem State.refuse_asm (s : State) : (s.refuse).asm = s.asm := rfl
@[simp] theorem State.refuse_dsp (s : State) : (s.refuse).dsp = s.dsp := rfl
@[simp] theorem State.refuse_sub (s : State) : (s.refuse).sub = s.sub := rfl
@[simp] theorem State.refuse_par (s : State) : (s.refuse).par = s.par := rfl
@[simp] theorem State.refuse_now (s : State) : (s.refuse).now = s.now := rfl
@[simp] theorem State.refuse_inputs (s : State) : (s.refuse).inputs = s.inputs := rfl
@[simp] theorem State.refuse_out (s : State) : (s.refuse).out = { s.out with result := some ⟨false, none⟩, notes := s.out.notes ++ [.refused] } := rfl
@[simp] theorem State.refuse_draws (s : State) : (s.refuse).draws = s.draws := rfl

/-! ### transmit -/

@[simp] theorem State.transmit_asm (s : State) (r : List Byte) : (s.transmit r).asm = s.asm := rfl
@[simp] theorem State.transmit_dsp (s : State) (r : List Byte) : (s.transmit r).dsp = s.dsp := rfl
@[simp] theorem State.transmit_sub (s : State) (r : List Byte) : (s.transmit r).sub = s.sub := rfl
@[simp] theorem State.transmit_par (s : State) (r : List Byte) : (s.transmit r).par = s.par := rfl
@[simp] theorem State.transmit_now (s : State) (r : List Byte) : (s.transmit r).now = s.now := rfl
@[simp] theorem State.transmit_inputs (s : State) (r : List Byte) : (s.transmit r).inputs = s.inputs := rfl
@[simp] theorem State.transmit_out (s : State) (r : List Byte) : (s.transmit r).out = { s.out with tx := s.out.tx ++ txFrame r } := rfl
@[simp] theorem State.transmit_draws (s : State) (r : List Byte) : (s.transmit r).draws = s.draws := rfl

/-! ### bufWrite -/

@[simp] theorem State.bufWrite_asm (s : State) (i : Nat) (v : Byte) : (s.bufWrite i v).asm = { s.asm with buf := s.asm.buf.write i v } := rfl
@[simp] theorem State.bufWrite_dsp (s : State) (i : Nat) (v : Byte) : (s.bufWrite i v).dsp = s.dsp := rfl
@[simp] theorem State.bufWrite_sub (s : State) (i : Nat) (v : Byte) : (s.bufWrite i v).sub = s.sub := rfl
@[simp] theorem State.bufWrite_par (s : State) (i : Nat) (v : Byte) : (s.bufWrite i v).par = s.par := rfl
@[simp] theorem State.bufWrite_now (s : State) (i : Nat) (v : Byte) : (s.bufWrite i v).now = s.now := rfl
@[simp] theorem State.bufWrite_inputs (s : State) (i : Nat) (v : Byte) : (s.bufWrite i v).inputs = s.inputs := rfl
@[simp] theorem State.bufWrite_out (s : State) (i : Nat) (v : Byte) : (s.bufWrite i v).out = s.out := rfl
@[simp] theorem State.bufWrite_draws (s : State) (i : Nat) (v : Byte) : (s.bufWrite i v).draws = s.draws := rfl

/-! ### clear -/

@[simp] theorem State.clear_asm (s : State) : (s.clear).asm = ⟨.awaitDelimiter, 0, 0, 0xFF, [], Config.freeTime s.draws 0⟩ := rfl
@[simp] theorem State.clear_dsp (s : State) : (s.clear).dsp = s.dsp := rfl
@[simp] theorem State.clear_sub (s : State) : (s.clear).sub = s.sub := rfl
@[simp] theorem State.clear_par (s : State) : (s.clear).par = s.par := rfl
@[simp] theorem State.clear_now (s : State) : (s.clear).now = s.now := rfl
@[simp] theorem State.clear_inputs (s : State) : (s.clear).inputs = s.inputs := rfl
@[simp] theorem State.clear_out (s : State) : (s.clear).out = s.out := rfl
@[simp] theorem State.clear_draws (s : State) : (s.clear).draws = s.draws + 1 := rfl

/-! ### setSlot -/

@[simp] theorem State.setSlot_asm (s : State) (id : Byte) (x : Slot) : (s.setSlot id x).asm = s.asm := rfl
@[simp] theorem State.setSlot_dsp (s : State) (id : Byte) (x : Slot) : (s.setSlot id x).dsp = { s.dsp with tbl := s.dsp.tbl.setIfInBounds id.toNat x } := rfl
@[simp] theorem State.setSlot_sub (s : State) (id : Byte) (x : Slot) : (s.setSlot id x).sub = s.sub := rfl
@[simp] theorem State.setSlot_par (s : State) (id : Byte) (x : Slot) : (s.setSlot id x).par = s.par := rfl
@[simp] theorem State.setSlot_now (s : State) (id : Byte) (x : Slot) : (s.setSlot id x).now = s.now := rfl
@[simp] theorem State.setSlot_inputs (s : State) (id : Byte) (x : Slot) : (s.setSlot id x).inputs = s.inputs := rfl
@[simp] theorem State.setSlot_out (s : State) (id : Byte) (x : Slot) : (s.setSlot id x).out = s.out := rfl
@[simp] theorem State.setSlot_draws (s : State) (id : Byte) (x : Slot) : (s.setSlot id x).draws = s.draws := rfl

/-! ### store -/

@[simp] theorem State.store_asm (s : State) (id : Byte) (cb : Cb) : (s.store id cb).asm = s.asm := rfl
@[simp] theorem State.store_dsp (s : State) (id : Byte) (cb : Cb) : (s.store id cb).dsp = { s.dsp with tbl := s.dsp.tbl.setIfInBounds id.toNat ⟨true, cb⟩ } := rfl
@[simp] theorem State.store_sub (s : State) (id : Byte) (cb : Cb) : (s.store id cb).sub = s.sub := rfl
@[simp] theorem State.store_par (s : State) (id : Byte) (cb : Cb) : (s.store id cb).par = s.par := rfl
@[simp] theorem State.store_now (s : State) (id : Byte) (cb : Cb) : (s.store id cb).now = s.now := rfl
@[simp] theorem State.store_inputs (s : State) (id : Byte) (cb : Cb) : (s.store id cb).inputs = s.inputs := rfl
@[simp] theorem State.store_out (s : State) (id : Byte) (cb : Cb) : (s.store id cb).out = s.out := rfl
@[simp] theorem State.store_draws (s : State) (id : Byte) (cb : Cb) : (s.store id cb).draws = s.draws := rfl

/-! ### freeSlot -/

@[simp] theorem State.freeSlot_asm (s : State) (id : Byte) : (s.freeSlot id).asm = s.asm := rfl
@[simp] theorem State.freeSlot_dsp (s : State) (id : Byte) : (s.freeSlot id).dsp = { s.dsp with tbl := s.dsp.tbl.setIfInBounds id.toNat ⟨false, .none⟩ } := rfl
@[simp] theorem State.freeSlot_sub (s : State) (id : Byte) : (s.freeSlot id).sub = s.sub := rfl
@[simp] theorem State.freeSlot_par (s : State) (id : Byte) : (s.freeSlot id).par = s.par := rfl
@[simp] theorem State.freeSlot_now (s : State) (id : Byte) : (s.freeSlot id).now = s.now := rfl
@[simp] theorem State.freeSlot_inputs (s : State) (id : Byte) : (s.freeSlot id).inputs = s.inputs := rfl
@[simp] theorem State.freeSlot_out (s : State) (id : Byte) : (s.freeSlot id).out = s.out := rfl
@[simp] theorem State.freeSlot_draws (s : State) (id : Byte) : (s.freeSlot id).draws = s.draws := rfl

/-! ### setWaiter -/

@[simp] theorem State.setWaiter_asm (s : State) (k : Byte) (x : Waiter) : (s.setWaiter k x).asm = s.asm := rfl
@[simp] theorem State.setWaiter_dsp (s : State) (k : Byte) (x : Waiter) : (s.setWaiter k x).dsp = { s.dsp with w := s.dsp.w.set k.toNat x } := rfl
@[simp] theorem State.setWaiter_sub (s : State) (k : Byte) (x : Waiter) : (s.setWaiter k x).sub = s.sub := rfl
@[simp] theorem State.setWaiter_par (s : State) (k : Byte) (x : Waiter) : (s.setWaiter k x).par = s.par := rfl
@[simp] theorem State.setWaiter_now (s : State) (k : Byte) (x : Waiter) : (s.setWaiter k x).now = s.now := rfl
@[simp] theorem State.setWaiter_inputs (s : State) (k : Byte) (x : Waiter) : (s.setWaiter k x).inputs = s.inputs := rfl
@[simp] theorem State.setWaiter_out (s : State) (k : Byte) (x : Waiter) : (s.setWaiter k x).out = s.out := rfl
@[simp] theorem State.setWaiter_draws (s : State) (k : Byte) (x : Waiter) : (s.setWaiter k x).draws = s.draws := rfl

/-! ### release -/

@[simp] theorem State.release_asm (s : State) (k : Byte) (x : Waiter) : (s.release k x).asm = s.asm := rfl
@[simp] theorem State.release_dsp (s : State) (k : Byte) (x : Waiter) : (s.release k x).dsp = { s.dsp with w := s.dsp.w.set k.toNat { x with waiting := false } } := rfl
@[simp] theorem State.release_sub (s : State) (k : Byte) (x : Waiter) : (s.release k x).sub = s.sub := rfl
@[simp] theorem State.release_par (s : State) (k : Byte) (x : Waiter) : (s.release k x).par = s.par := rfl
@[simp] theorem State.release_now (s : State) (k : Byte) (x : Waiter) : (s.release k x).now = s.now := rfl
@[simp] theorem State.release_inputs (s : State) (k : Byte) (x : Waiter) : (s.release k x).inputs = s.inputs := rfl
@[simp] theorem State.release_out (s : State) (k : Byte) (x : Waiter) : (s.release k x).out = s.out := rfl
@[simp] theorem State.release_draws (s : State) (k : Byte) (x : Waiter) : (s.release k x).draws = s.draws := rfl

/-! ### alloc -/

@[simp] theorem State.alloc_id (s : State) : s.alloc.1 = s.dsp.nextId := rfl
@[simp] theorem State.alloc_asm (s : State) : s.alloc.2.asm = s.asm := rfl
@[simp] theorem State.alloc_dsp (s : State) : s.alloc.2.dsp = { s.dsp with nextId := nextInBand s.par s.dsp.nextId } := rfl
@[simp] theorem State.alloc_sub (s : State) : s.alloc.2.sub = s.sub := rfl
@[simp] theorem State.alloc_par (s : State) : s.alloc.2.par = s.par := rfl
@[simp] theorem State.alloc_now (s : State) : s.alloc.2.now = s.now := rfl
@[simp] theorem State.alloc_inputs (s : State) : s.alloc.2.inputs = s.inputs := rfl
@[simp] theorem State.alloc_out (s : State) : s.alloc.2.out = s.out := rfl
@[simp] theorem State.alloc_draws (s : State) : s.alloc.2.draws = s.draws := rfl

/-! ### take -/

@[simp] theorem State.take_asm (s : State) (r : Request) (rest : List Request) : (s.take r rest).asm = s.asm := rfl
@[simp] theorem State.take_dsp (s : State) (r : Request) (rest : List Request) : (s.take r rest).dsp = s.dsp := rfl
@[simp] theorem State.take_sub (s : State) (r : Request) (rest : List Request) : (s.take r rest).sub = s.sub := rfl
@[simp] theorem State.take_par (s : State) (r : Request) (rest : List Request) : (s.take r rest).par = s.par := rfl
@[simp] theorem State.take_now (s : State) (r : Request) (rest : List Request) : (s.take r rest).now = r.now := rfl
@[simp] theorem State.take_inputs (s : State) (r : Request) (rest : List Request) : (s.take r rest).inputs = r.left ++ rest := rfl
@[simp] theorem State.take_out (s : State) (r : Request) (rest : List Request) : (s.take r rest).out = s.out := rfl
@[simp] theorem State.take_draws (s : State) (r : Request) (rest : List Request) : (s.take r rest).draws = if r.incomplete then s.draws + 1 else s.draws := rfl

end Sys2Proof.Machine
end

