-- ==== Sys2Proof/Laws/Memory.lean ====
section
/-! SUPPORT. The frame buffer: read after write, and that every memory operation keeps the canonical form (R25, R64). -/

namespace Sys2Proof.Machine

@[simp] theorem Memory.read_nil (a : Nat) : Memory.read [] a = none := rfl

@[simp] theorem Memory.read_cons (x : Nat) (v : Byte) (m : Memory) (a : Nat) :
    Memory.read ((x, v) :: m) a = if a = x then some v else Memory.read m a := rfl

/-- A read at the written address gives the written byte. -/
@[simp] theorem Memory.read_write_same (m : Memory) (a : Nat) (v : Byte) : (m.write a v).read a = some v := by
  induction m with
  | nil => simp [Memory.write]
  | cons c m ih =>
    obtain ⟨x, u⟩ := c
    simp only [Memory.write]
    split_ifs with h1 h2
    · simp
    · simp
    · simp [h2, ih]

/-- A read at any other address is as before. -/
theorem Memory.read_write_other (m : Memory) {a i : Nat} (v : Byte) (h : i ≠ a) : (m.write a v).read i = m.read i := by
  induction m with
  | nil => simp [Memory.write, h]
  | cons c m ih =>
    obtain ⟨x, u⟩ := c
    simp only [Memory.write]
    split_ifs with h1 h2
    · simp [h]
    · subst h2; simp [h]
    · simp [ih]

/-- Every entry of a written memory is the written one or an old one. -/
theorem Memory.mem_write {m : Memory} {a : Nat} {v : Byte} {c : Host.Cell} (h : c ∈ m.write a v) :
    c = (a, v) ∨ c ∈ m := by
  induction m with
  | nil => simpa [Memory.write] using h
  | cons d m ih =>
    obtain ⟨x, u⟩ := d
    simp only [Memory.write] at h
    split_ifs at h with h1 h2
    · simpa using h
    · rcases List.mem_cons.1 h with h | h
      · exact .inl h
      · exact .inr (List.mem_cons_of_mem _ h)
    · rcases List.mem_cons.1 h with h | h
      · exact .inr (h ▸ List.mem_cons_self)
      · exact (ih h).imp_right (List.mem_cons_of_mem _)

/-- The empty buffer is in canonical form. -/
theorem Memory.wf_nil : Memory.Wf [] := by simp [Memory.Wf]

/-- A write inside the buffer keeps the canonical form. -/
theorem Memory.write_wf {m : Memory} {a : Nat} {v : Byte} (hm : m.Wf) (ha : a < Config.bufBytes) : (m.write a v).Wf := by
  refine ⟨?_, fun c hc => ?_⟩
  · obtain ⟨hp, -⟩ := hm
    induction m with
    | nil => simp [Memory.write]
    | cons d m ih =>
      obtain ⟨x, u⟩ := d
      obtain ⟨h1, h2⟩ := List.pairwise_cons.1 hp
      simp only [Memory.write]
      split_ifs with ha' hx
      · refine List.pairwise_cons.2 ⟨fun c hc => ?_, hp⟩
        rcases List.mem_cons.1 hc with rfl | hc
        · exact ha'
        · exact lt_trans ha' (h1 c hc)
      · subst hx
        exact List.pairwise_cons.2 ⟨fun c hc => h1 c hc, h2⟩
      · refine List.pairwise_cons.2 ⟨fun c hc => ?_, ih h2⟩
        rcases Memory.mem_write hc with rfl | hc
        · show x < a
          omega
        · exact h1 c hc
  · rcases Memory.mem_write hc with rfl | hc
    · exact ha
    · exact hm.2 c hc

/-- The buffer of the state after reset is in canonical form. -/
theorem reset_buf_wf : Memory.Wf State.reset.asm.buf := Memory.wf_nil

/-- A listed byte is read as listed. -/
theorem State.bufByte_of_read {s : State} {i : Nat} {v : Byte} (h : s.asm.buf.read i = some v) : s.bufByte i = v := by
  simp [State.bufByte, h]

@[simp] theorem State.bufBytes_length (s : State) (n : Nat) : (s.bufBytes n).length = n := by simp [State.bufBytes]

@[simp] theorem State.bufBytes_zero (s : State) : s.bufBytes 0 = [] := rfl

/-- One byte more of the buffer. -/
theorem State.bufBytes_succ (s : State) (n : Nat) : s.bufBytes (n + 1) = s.bufBytes n ++ [s.bufByte n] := by
  simp [State.bufBytes, List.range_succ]

/-- `asm.buf[0..n)` depends only on the bytes below `n`. -/
theorem State.bufBytes_congr {s t : State} {n : Nat} (h : ∀ i, i < n → s.bufByte i = t.bufByte i) :
    s.bufBytes n = t.bufBytes n := by
  simpa [State.bufBytes] using h

@[simp] theorem State.quiet_bufByte (s : State) (i : Nat) : s.quiet.bufByte i = s.bufByte i := rfl

@[simp] theorem State.quiet_frame (s : State) : s.quiet.frame = s.frame := rfl

/-- A Frame is exposed exactly in Complete (R28). -/
theorem State.exposed_eq_some {s : State} {f : Frame} : s.exposed = some f ↔ s.asm.st = .complete ∧ s.frame = f := by
  simp [State.exposed]

end Sys2Proof.Machine
end

