-- ==== Sys2Proof/Laws/Ops.lean ====
section
/-! SUPPORT. One specification lemma for each shared operation, which later proofs cite instead of unfolding it: what the
router, the cases of RXBYTE and the senders can do, and what they leave unchanged. -/

namespace Sys2Proof.Machine

/-! ### The table -/

/-- The slot of an ID inside the table. -/
theorem State.lookup_eq_some {s : State} {id : Byte} {cb : Cb} :
    s.lookup id = some cb ↔ s.dsp.tbl[id.toNat]? = some ⟨true, cb⟩ := by
  unfold State.lookup
  cases h : s.dsp.tbl[id.toNat]? with
  | none => simp
  | some x => obtain ⟨o, c⟩ := x; cases o <;> simp

/-- A miss: the ID addresses nothing, or its slot is free (R214, R217). -/
theorem State.lookup_eq_none {s : State} {id : Byte} :
    s.lookup id = none ↔ 10 ≤ id.toNat ∨ ∃ x, s.dsp.tbl[id.toNat]? = some x ∧ x.occupied = false := by
  unfold State.lookup
  cases h : s.dsp.tbl[id.toNat]? with
  | none => simpa using h
  | some x =>
    have : id.toNat < 10 := by
      by_contra hc
      rw [Vector.getElem?_eq_none (by omega)] at h
      cases h
    obtain ⟨o, c⟩ := x
    cases o
    · simp
    · simpa using this

/-! ### The waiters -/

/-- All that `deliverSync` does: a live slot's waiter is released with the event, or nothing (R191). -/
theorem State.deliverSync_cases (s : State) (k id : Byte) (f : Frame) :
    (∃ x, s.dsp.w[k.toNat]? = some x ∧ x.waiting = true ∧ x.id = id ∧
      s.deliverSync k id f = (s.release k x).emit (.syncDone k f)) ∨
    ((∀ x, s.dsp.w[k.toNat]? = some x → ¬(x.waiting = true ∧ x.id = id)) ∧ s.deliverSync k id f = s) := by
  unfold State.deliverSync
  cases h : s.dsp.w[k.toNat]? with
  | none => exact .inr ⟨by simp, rfl⟩
  | some x =>
    by_cases hx : x.waiting = true ∧ x.id = id
    · exact .inl ⟨x, rfl, hx.1, hx.2, by simp [hx]⟩
    · refine .inr ⟨?_, ?_⟩
      · intro y hy; cases hy; exact hx
      · simp only [Bool.and_eq_true, beq_iff_eq, hx, if_false]

/-- All that the delivery of a callback does (R214). -/
theorem State.deliver_cases (s : State) (cb : Cb) (id : Byte) (f : Frame) :
    (s.deliver cb id f = s ∧ ∀ t, cb ≠ .tag t) ∨ (∃ t, cb = .tag t ∧ s.deliver cb id f = s.emit (.resp t id f)) ∨
    (∃ k x, cb = .sync k ∧ s.dsp.w[k.toNat]? = some x ∧ x.waiting = true ∧ x.id = id ∧
      s.deliver cb id f = (s.release k x).emit (.syncDone k f)) := by
  cases cb with
  | none => exact .inl ⟨rfl, by simp⟩
  | tag t => exact .inr (.inl ⟨t, rfl, rfl⟩)
  | sync k =>
    rcases s.deliverSync_cases k id f with ⟨x, h1, h2, h3, h4⟩ | ⟨-, h⟩
    · exact .inr (.inr ⟨k, x, rfl, h1, h2, h3, h4⟩)
    · exact .inl ⟨h, by simp⟩

/-! ### The router -/

/-- All that `respond` does: a note, or a delivery and then the slot kept or freed (R214). -/
theorem State.respond_cases (s : State) (f : Frame) :
    (f.id = none ∧ s.respond f = s.note .shortFrame) ∨
    (∃ id, f.id = some id ∧ s.lookup id = none ∧ s.respond f = s.note .correlationMiss) ∨
    (∃ id cb, f.id = some id ∧ s.lookup id = some cb ∧
      s.respond f = if keepsSlot s.par.codes f.region then s.deliver cb id f else (s.deliver cb id f).freeSlot id) := by
  unfold State.respond
  cases hf : f.id with
  | none => exact .inl ⟨rfl, rfl⟩
  | some id =>
    cases hl : s.lookup id with
    | none => exact .inr (.inl ⟨id, rfl, hl, by simp only [hl]⟩)
    | some cb => exact .inr (.inr ⟨id, cb, rfl, hl, by simp only [hl]⟩)

/-- What nothing in the router writes: ASM, the enable bits, the inputs, the ID counter, the TX stream, the command result. -/
structure RouterFrame (s t : State) : Prop where
  asm : t.asm = s.asm
  sub : t.sub = s.sub
  par : t.par = s.par
  now : t.now = s.now
  inputs : t.inputs = s.inputs
  draws : t.draws = s.draws
  nextId : t.dsp.nextId = s.dsp.nextId
  waiters : t.dsp.w.length = s.dsp.w.length
  tx : t.out.tx = s.out.tx
  result : t.out.result = s.out.result

theorem RouterFrame.refl (s : State) : RouterFrame s s := ⟨rfl, rfl, rfl, rfl, rfl, rfl, rfl, rfl, rfl, rfl⟩

theorem RouterFrame.trans {s t u : State} (h : RouterFrame s t) (k : RouterFrame t u) : RouterFrame s u :=
  ⟨k.asm.trans h.asm, k.sub.trans h.sub, k.par.trans h.par, k.now.trans h.now, k.inputs.trans h.inputs,
    k.draws.trans h.draws, k.nextId.trans h.nextId, k.waiters.trans h.waiters, k.tx.trans h.tx, k.result.trans h.result⟩

theorem State.emit_routerFrame (s : State) (e : Event) : RouterFrame s (s.emit e) :=
  ⟨rfl, rfl, rfl, rfl, rfl, rfl, rfl, rfl, rfl, rfl⟩

theorem State.note_routerFrame (s : State) (c : Cause) : RouterFrame s (s.note c) :=
  ⟨rfl, rfl, rfl, rfl, rfl, rfl, rfl, rfl, rfl, rfl⟩

theorem State.freeSlot_routerFrame (s : State) (id : Byte) : RouterFrame s (s.freeSlot id) :=
  ⟨rfl, rfl, rfl, rfl, rfl, rfl, rfl, rfl, rfl, rfl⟩

theorem State.release_routerFrame (s : State) (k : Byte) (x : Waiter) : RouterFrame s (s.release k x) :=
  ⟨rfl, rfl, rfl, rfl, rfl, rfl, rfl, by simp, rfl, rfl⟩

theorem State.deliver_routerFrame (s : State) (cb : Cb) (id : Byte) (f : Frame) : RouterFrame s (s.deliver cb id f) := by
  rcases s.deliver_cases cb id f with ⟨h, -⟩ | ⟨t, -, h⟩ | ⟨k, x, -, -, -, -, h⟩ <;> rw [h]
  · exact .refl s
  · exact s.emit_routerFrame _
  · exact (s.release_routerFrame k x).trans (State.emit_routerFrame _ _)

theorem State.respond_routerFrame (s : State) (f : Frame) : RouterFrame s (s.respond f) := by
  rcases s.respond_cases f with ⟨-, h⟩ | ⟨id, -, -, h⟩ | ⟨id, cb, -, -, h⟩ <;> rw [h]
  · exact s.note_routerFrame _
  · exact s.note_routerFrame _
  · split
    · exact s.deliver_routerFrame cb id f
    · exact (s.deliver_routerFrame cb id f).trans (State.freeSlot_routerFrame _ _)

/-- All that RT.IO_SAMPLE does: the note, or DIO and AIO as their conditions say (R211). -/
theorem State.ioSample_eq (s : State) (f : Frame) :
    s.ioSample f =
      if ioComplete f.region then
        { s with out := { s.out with events := s.out.events ++
            ((if ioDmask f.region ≠ 0 ∧ s.sub.dioEn = true then [.dio (byteAt f.region 17)] else []) ++
             if s.sub.aioEn = true then
               [.aio (ioAnalog f.region 0) (ioAnalog f.region 1) (ioAnalog f.region 2) (ioAnalog f.region 3)] else []) } }
      else s.note .shortFrame := by
  unfold State.ioSample
  split
  · by_cases h : ioDmask f.region = 0#16 <;> cases s.sub.dioEn <;> cases s.sub.aioEn <;>
      simp [h, State.emit]
  · rfl

theorem State.ioSample_routerFrame (s : State) (f : Frame) : RouterFrame s (s.ioSample f) := by
  rw [State.ioSample_eq]
  split <;> exact ⟨rfl, rfl, rfl, rfl, rfl, rfl, rfl, rfl, rfl, rfl⟩

theorem State.zbRx_routerFrame (s : State) (f : Frame) : RouterFrame s (s.zbRx f) := by
  unfold State.zbRx
  split_ifs <;> exact ⟨rfl, rfl, rfl, rfl, rfl, rfl, rfl, rfl, rfl, rfl⟩

/-- What routing a frame leaves unchanged (R210). -/
theorem State.route_routerFrame (s : State) (f : Frame) : RouterFrame s (s.route f) := by
  unfold State.route
  split
  · exact s.ioSample_routerFrame f
  · exact s.respond_routerFrame f
  · exact s.respond_routerFrame f
  · exact s.zbRx_routerFrame f
  · exact s.note_routerFrame _

/-- When a router case performed alone goes on, and with what (log 6). -/
theorem State.routeCase_eq_next {s t : State} {cls : RtClass} {act : State → Frame → State} :
    s.routeCase cls act = .next t ↔
      ∃ f, s.exposed = some f ∧ s.par.rtrAttached = true ∧ rtClass s.par.codes f.region = cls ∧ t = act s.quiet f := by
  unfold State.routeCase
  cases h : s.exposed with
  | none => simp
  | some f =>
    by_cases h2 : s.par.rtrAttached = true ∧ rtClass s.par.codes f.region = cls
    · simp [h2, eq_comm]
    · constructor
      · simp [h2]
      · rintro ⟨g, hg, h3, h4, -⟩
        cases hg
        exact absurd ⟨h3, h4⟩ h2

/-- When a case of RXBYTE performed alone goes on, and with what (log 6). -/
theorem State.rowCase_eq_next {s t u : State} {row : RxbRow} {b : Byte} :
    s.rowCase row b u = .next t ↔ s.selectRxb b = row ∧ t = u := by
  unfold State.rowCase
  split_ifs with h
  · simp [h, eq_comm]
  · simp [h]

/-! ### The cases of RXBYTE -/

/-- What no case of RXBYTE writes. -/
structure RowFrame (s t : State) : Prop where
  dsp : t.dsp = s.dsp
  sub : t.sub = s.sub
  par : t.par = s.par
  now : t.now = s.now
  inputs : t.inputs = s.inputs
  tx : t.out.tx = s.out.tx
  events : t.out.events = s.out.events
  result : t.out.result = s.out.result

theorem State.rxRow_rowFrame (s : State) (b : Byte) (row : RxbRow) : RowFrame s (s.rxRow b row) := by
  cases row <;> exact ⟨rfl, rfl, rfl, rfl, rfl, rfl, rfl, rfl⟩

/-- All that an RXBYTE does (R130): the drop, or the row, the time, and the hand-over of a completed frame. -/
theorem State.receive_cases (s : State) (b : Byte) :
    (s.selectRxb b = .drop ∧ s.receive b = s.rxDrop) ∨
    (s.selectRxb b ≠ .drop ∧ ∃ u, u = { s.rxRow b (s.selectRxb b) with
        asm := { (s.rxRow b (s.selectRxb b)).asm with tPrev := s.now } } ∧
      ((u.asm.st = .complete ∧ s.par.rtrAttached = true ∧ s.receive b = u.routeAndClear) ∨
       (¬(u.asm.st = .complete ∧ s.par.rtrAttached = true) ∧ s.receive b = u))) := by
  unfold State.receive
  split_ifs with h
  · exact .inl ⟨h, rfl⟩
  · refine .inr ⟨h, _, rfl, ?_⟩
    have hf := s.rxRow_rowFrame b (s.selectRxb b)
    simp only [State.finishRx, hf.now, hf.par]
    by_cases hc : (s.rxRow b (s.selectRxb b)).asm.st = .complete ∧ s.par.rtrAttached = true
    · exact .inl ⟨hc.1, hc.2, by simp [hc]⟩
    · exact .inr ⟨hc, by simp only [Bool.and_eq_true, decide_eq_true_eq, hc, if_false]⟩

end Sys2Proof.Machine
end

