-- ==== Sys2Proof/Laws/Select.lean ====
section
/-! SUPPORT. R98's map row by row: what the selection of each row says of the state and the byte. -/

namespace Sys2Proof

/-- A late delimiter (R133): mid-frame, the delimiter, more than `RESYNC_TICKS` ago. -/
abbrev lateDelim (a : AsmSt) (b : Byte) (slow : Bool) : Prop := a.midFrame = true ∧ b = 0x7E ∧ slow = true

theorem rxbRow_drop (a : AsmSt) (b : Byte) (slow full ok : Bool) :
    rxbRow a b slow full ok = .drop ↔ a = .complete := by
  by_cases hb : b = 0x7E#8 <;> by_cases h0 : b = 0#8 <;> cases a <;> cases slow <;> cases full <;> cases ok <;>
    simp [rxbRow, AsmSt.midFrame, hb, h0]

theorem rxbRow_resync (a : AsmSt) (b : Byte) (slow full ok : Bool) :
    rxbRow a b slow full ok = .resync ↔ lateDelim a b slow := by
  by_cases hb : b = 0x7E#8 <;> by_cases h0 : b = 0#8 <;> cases a <;> cases slow <;> cases full <;> cases ok <;>
    simp [rxbRow, AsmSt.midFrame, hb, h0, lateDelim]

theorem rxbRow_start (a : AsmSt) (b : Byte) (slow full ok : Bool) :
    rxbRow a b slow full ok = .start ↔ a = .awaitDelimiter ∧ b = 0x7E := by
  by_cases hb : b = 0x7E#8 <;> by_cases h0 : b = 0#8 <;> cases a <;> cases slow <;> cases full <;> cases ok <;>
    simp [rxbRow, AsmSt.midFrame, hb, h0]

theorem rxbRow_skip (a : AsmSt) (b : Byte) (slow full ok : Bool) :
    rxbRow a b slow full ok = .skip ↔ a = .awaitDelimiter ∧ b ≠ 0x7E := by
  by_cases hb : b = 0x7E#8 <;> by_cases h0 : b = 0#8 <;> cases a <;> cases slow <;> cases full <;> cases ok <;>
    simp [rxbRow, AsmSt.midFrame, hb, h0]

theorem rxbRow_lenhiOk (a : AsmSt) (b : Byte) (slow full ok : Bool) :
    rxbRow a b slow full ok = .lenhiOk ↔ a = .lengthHigh ∧ b = 0 := by
  by_cases hb : b = 0x7E#8 <;> by_cases h0 : b = 0#8 <;> cases a <;> cases slow <;> cases full <;> cases ok <;>
    simp_all [rxbRow, AsmSt.midFrame]

theorem rxbRow_lenhiBad (a : AsmSt) (b : Byte) (slow full ok : Bool) :
    rxbRow a b slow full ok = .lenhiBad ↔ a = .lengthHigh ∧ b ≠ 0 ∧ ¬lateDelim a b slow := by
  by_cases hb : b = 0x7E#8 <;> by_cases h0 : b = 0#8 <;> cases a <;> cases slow <;> cases full <;> cases ok <;>
    simp [rxbRow, AsmSt.midFrame, hb, h0, lateDelim]

theorem rxbRow_lenlo (a : AsmSt) (b : Byte) (slow full ok : Bool) :
    rxbRow a b slow full ok = .lenlo ↔ a = .lengthLow ∧ ¬lateDelim a b slow := by
  by_cases hb : b = 0x7E#8 <;> by_cases h0 : b = 0#8 <;> cases a <;> cases slow <;> cases full <;> cases ok <;>
    simp [rxbRow, AsmSt.midFrame, hb, h0, lateDelim]

theorem rxbRow_data (a : AsmSt) (b : Byte) (slow full ok : Bool) :
    rxbRow a b slow full ok = .data ↔ a = .payload ∧ ¬lateDelim a b slow ∧ full = false := by
  by_cases hb : b = 0x7E#8 <;> by_cases h0 : b = 0#8 <;> cases a <;> cases slow <;> cases full <;> cases ok <;>
    simp [rxbRow, AsmSt.midFrame, hb, h0, lateDelim]

theorem rxbRow_csumOk (a : AsmSt) (b : Byte) (slow full ok : Bool) :
    rxbRow a b slow full ok = .csumOk ↔ a = .payload ∧ ¬lateDelim a b slow ∧ full = true ∧ ok = true := by
  by_cases hb : b = 0x7E#8 <;> by_cases h0 : b = 0#8 <;> cases a <;> cases slow <;> cases full <;> cases ok <;>
    simp [rxbRow, AsmSt.midFrame, hb, h0, lateDelim]

theorem rxbRow_csumBad (a : AsmSt) (b : Byte) (slow full ok : Bool) :
    rxbRow a b slow full ok = .csumBad ↔ a = .payload ∧ ¬lateDelim a b slow ∧ full = true ∧ ok = false := by
  by_cases hb : b = 0x7E#8 <;> by_cases h0 : b = 0#8 <;> cases a <;> cases slow <;> cases full <;> cases ok <;>
    simp [rxbRow, AsmSt.midFrame, hb, h0, lateDelim]

/-- The byte of a row with a fixed byte (R98 rows 2, 3 and 5). -/
theorem rxbRow_fixed_byte {a : AsmSt} {b : Byte} {slow full ok : Bool} :
    (rxbRow a b slow full ok = .resync → b = 0x7E) ∧ (rxbRow a b slow full ok = .start → b = 0x7E) ∧
      (rxbRow a b slow full ok = .lenhiOk → b = 0) :=
  ⟨fun h => ((rxbRow_resync a b slow full ok).1 h).2.1, fun h => ((rxbRow_start a b slow full ok).1 h).2,
    fun h => ((rxbRow_lenhiOk a b slow full ok).1 h).2⟩

end Sys2Proof

namespace Sys2Proof.Machine

@[simp] theorem State.slow_iff (s : State) : s.slow = true ↔ 1000 < (s.now - s.asm.tPrev).toNat :=
  decide_eq_true_iff

@[simp] theorem State.full_eq_false (s : State) : s.full = false ↔ s.asm.cnt.toNat < s.asm.len.toNat := by
  simp [State.full]

@[simp] theorem State.full_eq_true (s : State) : s.full = true ↔ s.asm.len.toNat ≤ s.asm.cnt.toNat := by
  simp [State.full]

/-- A row that is selected, performed alone, goes on with its pseudocode on the quiet state (log 6). -/
theorem exec_selected_row (s : State) (b : Byte) :
    exec ((s.selectRxb b).toInstr b) s = .next (s.quiet.rxRow b (s.selectRxb b)) := by
  have hf := @rxbRow_fixed_byte s.asm.st b s.slow s.full (b == s.asm.csum)
  generalize hr : s.selectRxb b = row
  cases row with
  | resync => have hb := hf.1 hr; subst hb; exact if_pos hr
  | start => have hb := hf.2.1 hr; subst hb; exact if_pos hr
  | lenhiOk => have hb := hf.2.2 hr; subst hb; exact if_pos hr
  | drop => exact if_pos hr
  | skip => exact if_pos hr
  | lenhiBad => exact if_pos hr
  | lenlo => exact if_pos hr
  | data => exact if_pos hr
  | csumOk => exact if_pos hr
  | csumBad => exact if_pos hr

@[simp] theorem State.quiet_selectRxb (s : State) (b : Byte) : s.quiet.selectRxb b = s.selectRxb b := rfl

end Sys2Proof.Machine
end

