-- ==== Sys2Proof/Laws/Exec.lean ====
section
/-! SUPPORT. What one RXBYTE and one routed frame can do, said once: the selected case as an instruction and inside RXBYTE, the
effect of routing on a slot and on a waiter, and which fields the invariants read. -/

namespace Sys2Proof.Machine

/-! ### Rows -/

theorem State.midFrame_iff (s : State) :
    s.asm.st.midFrame = true ↔ s.asm.st = .lengthHigh ∨ s.asm.st = .lengthLow ∨ s.asm.st = .payload := by
  cases s.asm.st <;> simp [AsmSt.midFrame]

/-- The resync test in the spec's words (R133). -/
theorem State.late_iff (s : State) (b : Byte) :
    lateDelim s.asm.st b s.slow ↔
      (s.asm.st = .lengthHigh ∨ s.asm.st = .lengthLow ∨ s.asm.st = .payload) ∧ b = 0x7E ∧
        1000 < (s.now - s.asm.tPrev).toNat := by
  simp only [lateDelim, State.midFrame_iff, State.slow_iff]

/-- A selected row as an instruction of its own. -/
theorem exec_row {s : State} {b : Byte} {row : RxbRow} (h : s.selectRxb b = row) :
    exec (row.toInstr b) s = .next (s.quiet.rxRow b row) := by
  have := exec_selected_row s b
  rwa [h] at this

/-- An RXBYTE that neither drops its byte nor hands a frame over: the row, and the time recorded (R130). -/
theorem State.receive_row {s : State} {b : Byte} {row : RxbRow} (h : s.selectRxb b = row) (hd : row ≠ .drop)
    (hc : ¬((s.rxRow b row).asm.st = .complete ∧ s.par.rtrAttached = true)) :
    s.receive b = { s.rxRow b row with asm := { (s.rxRow b row).asm with tPrev := s.now } } := by
  subst h
  rcases s.receive_cases b with ⟨h3, -⟩ | ⟨-, u, rfl, ⟨h4, h5, -⟩ | ⟨-, h5⟩⟩
  · exact absurd h3 hd
  · exact absurd ⟨h4, h5⟩ hc
  · exact h5

/-- The same for the instruction. -/
theorem exec_rxbyte_row {s : State} {b : Byte} {row : RxbRow} (h : s.selectRxb b = row) (hd : row ≠ .drop)
    (hc : ¬((s.quiet.rxRow b row).asm.st = .complete ∧ s.par.rtrAttached = true)) :
    exec (.rxbyte b) s =
      .next { s.quiet.rxRow b row with asm := { (s.quiet.rxRow b row).asm with tPrev := s.now } } :=
  congrArg Host.Outcome.next (State.receive_row (s := s.quiet) h hd hc)

/-- Only RXB.CSUM_OK, and the drop, leave ASM in Complete (R145). -/
theorem State.rxRow_complete {s : State} {b : Byte} (hd : s.selectRxb b ≠ .drop)
    (hc : (s.rxRow b (s.selectRxb b)).asm.st = .complete) : s.selectRxb b = .csumOk := by
  have h1 : s.asm.st ≠ .complete := fun e => hd ((rxbRow_drop ..).2 e)
  have h2 : s.selectRxb b = .data → s.asm.st = .payload := fun e => ((rxbRow_data ..).1 e).1
  generalize s.selectRxb b = row at *
  cases row <;> simp_all [State.rxRow, State.rxResync, State.rxStart, State.rxSkip, State.rxLenhiOk, State.rxLenhiBad,
    State.rxLenlo, State.rxData, State.rxCsumBad]

/-! ### What routing does to a slot and to a waiter (R214, R191) -/

/-- Delivery leaves the table alone. -/
theorem State.deliver_tbl (s : State) (cb : Cb) (id : Byte) (f : Frame) : (s.deliver cb id f).dsp.tbl = s.dsp.tbl := by
  rcases s.deliver_cases cb id f with ⟨h, -⟩ | ⟨t, -, h⟩ | ⟨k, x, -, -, -, -, h⟩ <;> rw [h] <;> rfl

/-- A slot after a response is the slot before or empty. -/
theorem State.respond_slot (s : State) (f : Frame) (j : Nat) (h : j < 10) :
    (s.respond f).dsp.tbl[j] = s.dsp.tbl[j] ∨ (s.respond f).dsp.tbl[j] = ⟨false, .none⟩ := by
  rcases s.respond_cases f with ⟨-, e⟩ | ⟨id, -, -, e⟩ | ⟨id, cb, -, -, e⟩
  · exact .inl (by simp only [e, State.note_dsp])
  · exact .inl (by simp only [e, State.note_dsp])
  · split at e
    · exact .inl (by simp only [e, State.deliver_tbl])
    · simp only [e, State.freeSlot_dsp, State.deliver_tbl, Vector.getElem_setIfInBounds]
      split_ifs <;> simp

theorem State.ioSample_dsp (s : State) (f : Frame) : (s.ioSample f).dsp = s.dsp := by
  rw [State.ioSample_eq]; split <;> rfl

theorem State.zbRx_dsp (s : State) (f : Frame) : (s.zbRx f).dsp = s.dsp := by
  unfold State.zbRx; split_ifs <;> rfl

/-- A slot after routing is the slot before or empty. -/
theorem State.route_slot (s : State) (f : Frame) (j : Nat) (h : j < 10) :
    (s.route f).dsp.tbl[j] = s.dsp.tbl[j] ∨ (s.route f).dsp.tbl[j] = ⟨false, .none⟩ := by
  unfold State.route
  split
  · exact .inl (by simp only [State.ioSample_dsp])
  · exact s.respond_slot f j h
  · exact s.respond_slot f j h
  · exact .inl (by simp only [State.zbRx_dsp])
  · exact .inl rfl

/-- No waiter is touched and no event releases one. -/
structure WaitersKept (s t : State) : Prop where
  waiters : t.dsp.w = s.dsp.w
  events : ∀ k, t.releasesOf k = s.releasesOf k

/-- One waiting waiter is released, with its SYNC_DONE as the only event. -/
def WaiterDone (s t : State) (f : Frame) : Prop :=
  ∃ k x, s.dsp.w[k.toNat]? = some x ∧ x.waiting = true ∧ t.dsp.w = s.dsp.w.set k.toNat { x with waiting := false } ∧
    t.out.events = s.out.events ++ [.syncDone k f]

/-- Events that do not release the waiter change nothing here. -/
theorem releasesOf_append {s t : State} {l : List Event} {k : Byte} (h : t.out.events = s.out.events ++ l)
    (hl : ∀ e ∈ l, e.releases k = false) : t.releasesOf k = s.releasesOf k := by
  have : l.filter (Event.releases k) = [] := by
    simp only [List.filter_eq_nil_iff]
    exact fun e he => by simp [hl e he]
  simp [State.releasesOf, h, this]

/-- What a response does to the waiters (R214, R191). -/
theorem State.respond_waiters (s : State) (f : Frame) : WaitersKept s (s.respond f) ∨ WaiterDone s (s.respond f) f := by
  rcases s.respond_cases f with ⟨-, e⟩ | ⟨id, -, -, e⟩ | ⟨id, cb, -, -, e⟩
  · exact .inl (by rw [e]; exact ⟨rfl, fun _ => rfl⟩)
  · exact .inl (by rw [e]; exact ⟨rfl, fun _ => rfl⟩)
  · have hw : (s.respond f).dsp.w = (s.deliver cb id f).dsp.w := by rw [e]; split <;> rfl
    have ho : (s.respond f).out.events = (s.deliver cb id f).out.events := by rw [e]; split <;> rfl
    rcases s.deliver_cases cb id f with ⟨h, -⟩ | ⟨t, -, h⟩ | ⟨k, x, -, h1, h2, -, h⟩ <;> rw [h] at hw ho
    · exact .inl ⟨hw, fun _ => releasesOf_append (l := []) (by simpa using ho) (by simp)⟩
    · exact .inl ⟨hw, fun _ => releasesOf_append ho (by simp [Event.releases])⟩
    · exact .inr ⟨k, x, h1, h2, hw, ho⟩

/-- The same for routing. -/
theorem State.route_waiters (s : State) (f : Frame) : WaitersKept s (s.route f) ∨ WaiterDone s (s.route f) f := by
  unfold State.route
  split
  · refine .inl ⟨by rw [State.ioSample_dsp], ?_⟩
    rw [State.ioSample_eq]
    split
    · refine fun k => releasesOf_append rfl fun e he => ?_
      split_ifs at he <;> simp at he <;> (first | subst he | rcases he with rfl | rfl) <;> rfl
    · exact fun _ => rfl
  · exact s.respond_waiters f
  · exact s.respond_waiters f
  · refine .inl ⟨by rw [State.zbRx_dsp], ?_⟩
    unfold State.zbRx
    split_ifs
    · exact fun _ => rfl
    · exact fun _ => releasesOf_append rfl (by simp [Event.releases])
    · exact fun _ => rfl
  · exact .inl ⟨rfl, fun _ => rfl⟩

/-! ### RXBYTE as a whole -/

/-- What an RXBYTE does to DSP, to the enable bits and to the outputs: what its row does, or what routing the completed frame
does after it. -/
theorem State.receive_outer (s : State) (b : Byte) :
    ∃ u, RowFrame s u ∧ ((s.receive b).dsp = u.dsp ∧ (s.receive b).out = u.out ∨
      (s.receive b).dsp = (u.route u.frame).dsp ∧ (s.receive b).out = (u.route u.frame).out) := by
  have hf := s.rxRow_rowFrame b (s.selectRxb b)
  rcases s.receive_cases b with ⟨h3, h⟩ | ⟨-, u, hu, ⟨-, -, h⟩ | ⟨-, h⟩⟩
  · rw [h3] at hf
    exact ⟨_, hf, .inl ⟨by rw [h]; rfl, by rw [h]; rfl⟩⟩
  · refine ⟨u, ?_, .inr ⟨by rw [h]; rfl, by rw [h]; rfl⟩⟩
    subst hu
    exact ⟨hf.dsp, hf.sub, hf.par, hf.now, hf.inputs, hf.tx, hf.events, hf.result⟩
  · refine ⟨u, ?_, .inl ⟨by rw [h], by rw [h]⟩⟩
    subst hu
    exact ⟨hf.dsp, hf.sub, hf.par, hf.now, hf.inputs, hf.tx, hf.events, hf.result⟩

/-- What an RXBYTE never writes. -/
theorem State.receive_keeps (s : State) (b : Byte) :
    (s.receive b).sub = s.sub ∧ (s.receive b).par = s.par ∧ (s.receive b).now = s.now ∧
      (s.receive b).inputs = s.inputs ∧ (s.receive b).out.tx = s.out.tx := by
  have hf := s.rxRow_rowFrame b (s.selectRxb b)
  rcases s.receive_cases b with ⟨-, h⟩ | ⟨-, u, hu, ⟨-, -, h⟩ | ⟨-, h⟩⟩ <;> rw [h]
  · exact ⟨rfl, rfl, rfl, rfl, rfl⟩
  · have hr := u.route_routerFrame u.frame
    subst hu
    exact ⟨hr.sub.trans hf.sub, hr.par.trans hf.par, hr.now.trans hf.now, hr.inputs.trans hf.inputs, hr.tx.trans hf.tx⟩
  · subst hu
    exact ⟨hf.sub, hf.par, hf.now, hf.inputs, hf.tx⟩

/-- An RXBYTE releases a waiting waiter with its SYNC_DONE, or touches no waiter and emits no event that releases one. -/
theorem State.receive_waiters (s : State) (b : Byte) : WaitersKept s (s.receive b) ∨ ∃ f, WaiterDone s (s.receive b) f := by
  obtain ⟨u, hu, ⟨h1, h2⟩ | ⟨h1, h2⟩⟩ := s.receive_outer b
  · exact .inl ⟨by rw [h1, hu.dsp], fun k => by simp only [State.releasesOf, h2, hu.events]⟩
  · rcases u.route_waiters u.frame with h | ⟨k, x, h3, h4, h5, h6⟩
    · exact .inl ⟨by rw [h1, h.waiters, hu.dsp], fun k => by
        rw [State.releasesOf, h2, ← State.releasesOf, h.events, State.releasesOf, hu.events, State.releasesOf]⟩
    · rw [hu.dsp] at h3 h5; rw [hu.events] at h6
      exact .inr ⟨_, k, x, h3, h4, by rw [h1, h5], by rw [h2, h6]⟩

/-- A slot after an RXBYTE is the slot before or empty. -/
theorem State.receive_slot (s : State) (b : Byte) (j : Nat) (h : j < 10) :
    (s.receive b).dsp.tbl[j] = s.dsp.tbl[j] ∨ (s.receive b).dsp.tbl[j] = ⟨false, .none⟩ := by
  obtain ⟨u, hu, ⟨h1, -⟩ | ⟨h1, -⟩⟩ := s.receive_outer b
  · exact .inl (by simp only [h1, hu.dsp])
  · simp only [h1, ← hu.dsp]
    exact u.route_slot u.frame j h

/-! ### What the invariants read -/

/-- The invariant of ASM reads only these fields: every byte it reads has been written, so `draws` is not among them. -/
theorem AsmInv.congr {s t : State} (hi : AsmInv s) (h1 : t.asm.st = s.asm.st) (h2 : t.asm.len = s.asm.len)
    (h3 : t.asm.cnt = s.asm.cnt) (h4 : t.asm.csum = s.asm.csum) (h5 : t.asm.buf = s.asm.buf) : AsmInv t := by
  have hb : s.asm.st = .payload ∨ s.asm.st = .complete → t.bufBytes s.asm.cnt.toNat = s.bufBytes s.asm.cnt.toNat := by
    refine fun h => State.bufBytes_congr fun i hlt => ?_
    obtain ⟨v, hv⟩ := Option.isSome_iff_exists.1 (hi.written h i hlt)
    simp [State.bufByte, h5, hv]
  constructor
  · rw [h1, h2, h3, h4]; exact hi.idle
  · rw [h1, h2, h3]; exact hi.inRegion
  · rw [h1, h3, h4]; exact fun h => by rw [hb h]; exact hi.checksum h
  · rw [h1, h2, h3]; exact hi.whole
  · rw [h1, h3, h5]; exact hi.written
  · rw [h5]; exact hi.bufWf

/-- The invariant of DSP reads only DSP and the parameters. -/
theorem DspInv.congr {s t : State} (hi : DspInv s) (h1 : t.dsp = s.dsp) (h2 : t.par = s.par) : DspInv t := by
  constructor
  · rw [h1, h2]; exact hi.counter
  · rw [h1, h2]; exact hi.occupied
  · rw [h1]; exact hi.free
  · rw [h1]; exact hi.sync
  · rw [h1, h2]; exact hi.waiters

end Sys2Proof.Machine
end

