-- ==== Sys2Proof/Laws/PerInstr.lean ====
section
/-! SUPPORT. The statements made per instruction (LAWS.json): how many bytes an operation's word has at its port. -/

namespace Sys2Proof.Laws

/-- The most bytes a word has at a port: a command record is seven fields and the staging buffer (R106), a frame is `n + 4` bytes
(R90). -/
def WordSize.limit : Port → Nat
  | .rst => 0
  | .rx => 1
  | .timer => 1
  | .cmd => 7 + Config.lenMax
  | .asmStep => 2
  | .routeStep => 0
  | .rtrStep => 1
  | .wire => Config.lenMax + 4

/-- The word of a well-formed instruction fits its port. -/
def WordSize.Statement (i : Instr) : Prop :=
  i.wf = true → ∀ c : Codes, (encode c i).2.length ≤ WordSize.limit (encode c i).1

/-- A command record fits the command port when its bytes fit the staging buffer. -/
theorem cmdRecord_fits (op ty : Byte) (bytes : List Byte) (cb : Option Byte) (k sel : Byte)
    (h : fitsLen bytes = true) : (cmdRecord op ty bytes cb k sel).length ≤ WordSize.limit .cmd := by
  have h : bytes.length ≤ 255 := by simpa [fitsLen] using h
  simp [cmdRecord, WordSize.limit]
  omega

theorem WordSize.nop : WordSize.Statement (.nop) :=
  fun _ _ => cmdRecord_fits _ _ _ _ _ _ rfl

theorem WordSize.asmReset : WordSize.Statement (.asmReset) :=
  fun _ _ => cmdRecord_fits _ _ _ _ _ _ rfl

theorem WordSize.allocId : WordSize.Statement (.allocId) :=
  fun _ _ => cmdRecord_fits _ _ _ _ _ _ rfl

theorem WordSize.sendFf (ty : Byte) (body : List Byte) : WordSize.Statement (.sendFf ty body) :=
  fun h _ => cmdRecord_fits _ _ _ _ _ _ h

theorem WordSize.sendAsync (ty : Byte) (body : List Byte) (cb : Option Byte) : WordSize.Statement (.sendAsync ty body cb) :=
  fun h _ => cmdRecord_fits _ _ _ _ _ _ h

theorem WordSize.sendSync (ty : Byte) (body : List Byte) (k : Byte) : WordSize.Statement (.sendSync ty body k) :=
  fun h _ => cmdRecord_fits _ _ _ _ _ _ h

theorem WordSize.serialize (region : List Byte) : WordSize.Statement (.serialize region) :=
  fun h _ => cmdRecord_fits _ _ _ _ _ _ h

theorem WordSize.subscribe (sel : BitVec 2) : WordSize.Statement (.subscribe sel) :=
  fun _ _ => cmdRecord_fits _ _ _ _ _ _ rfl

theorem WordSize.sendAt (body : List Byte) (cb : Option Byte) : WordSize.Statement (.sendAt body cb) :=
  fun h _ => cmdRecord_fits _ _ _ _ _ _ h

theorem WordSize.sendRemoteAt (body : List Byte) (cb : Option Byte) : WordSize.Statement (.sendRemoteAt body cb) :=
  fun h _ => cmdRecord_fits _ _ _ _ _ _ h

theorem WordSize.sendData (body : List Byte) (cb : Option Byte) : WordSize.Statement (.sendData body cb) :=
  fun h _ => cmdRecord_fits _ _ _ _ _ _ h

theorem WordSize.reservedB : WordSize.Statement (.reservedB) :=
  fun _ _ => cmdRecord_fits _ _ _ _ _ _ rfl

theorem WordSize.reservedC : WordSize.Statement (.reservedC) :=
  fun _ _ => cmdRecord_fits _ _ _ _ _ _ rfl

theorem WordSize.reservedD : WordSize.Statement (.reservedD) :=
  fun _ _ => cmdRecord_fits _ _ _ _ _ _ rfl

theorem WordSize.reservedE : WordSize.Statement (.reservedE) :=
  fun _ _ => cmdRecord_fits _ _ _ _ _ _ rfl

theorem WordSize.reservedF : WordSize.Statement (.reservedF) :=
  fun _ _ => cmdRecord_fits _ _ _ _ _ _ rfl

theorem WordSize.rxbyte (b : Byte) : WordSize.Statement (.rxbyte b) :=
  fun _ _ => Nat.le_of_ble_eq_true rfl

theorem WordSize.syncExpire (k : Byte) : WordSize.Statement (.syncExpire k) :=
  fun _ _ => Nat.le_of_ble_eq_true rfl

theorem WordSize.reset : WordSize.Statement (.reset) :=
  fun _ _ => Nat.le_of_ble_eq_true rfl

theorem WordSize.rxbDrop (b : Byte) : WordSize.Statement (.rxbDrop b) :=
  fun _ _ => Nat.le_of_ble_eq_true rfl

theorem WordSize.rxbResync : WordSize.Statement (.rxbResync) :=
  fun _ _ => Nat.le_of_ble_eq_true rfl

theorem WordSize.rxbStart : WordSize.Statement (.rxbStart) :=
  fun _ _ => Nat.le_of_ble_eq_true rfl

theorem WordSize.rxbSkip (b : Byte) : WordSize.Statement (.rxbSkip b) :=
  fun _ _ => Nat.le_of_ble_eq_true rfl

theorem WordSize.rxbLenhiOk : WordSize.Statement (.rxbLenhiOk) :=
  fun _ _ => Nat.le_of_ble_eq_true rfl

theorem WordSize.rxbLenhiBad (b : Byte) : WordSize.Statement (.rxbLenhiBad b) :=
  fun _ _ => Nat.le_of_ble_eq_true rfl

theorem WordSize.rxbLenlo (b : Byte) : WordSize.Statement (.rxbLenlo b) :=
  fun _ _ => Nat.le_of_ble_eq_true rfl

theorem WordSize.rxbData (b : Byte) : WordSize.Statement (.rxbData b) :=
  fun _ _ => Nat.le_of_ble_eq_true rfl

theorem WordSize.rxbCsumOk (b : Byte) : WordSize.Statement (.rxbCsumOk b) :=
  fun _ _ => Nat.le_of_ble_eq_true rfl

theorem WordSize.rxbCsumBad (b : Byte) : WordSize.Statement (.rxbCsumBad b) :=
  fun _ _ => Nat.le_of_ble_eq_true rfl

theorem WordSize.routeAndClear : WordSize.Statement (.routeAndClear) :=
  fun _ _ => Nat.le_of_ble_eq_true rfl

theorem WordSize.rtIoSample : WordSize.Statement (.rtIoSample) :=
  fun _ _ => Nat.le_of_ble_eq_true rfl

theorem WordSize.rtAtResp : WordSize.Statement (.rtAtResp) :=
  fun _ _ => Nat.le_of_ble_eq_true rfl

theorem WordSize.rtRemoteAtResp : WordSize.Statement (.rtRemoteAtResp) :=
  fun _ _ => Nat.le_of_ble_eq_true rfl

theorem WordSize.rtZbRx : WordSize.Statement (.rtZbRx) :=
  fun _ _ => Nat.le_of_ble_eq_true rfl

theorem WordSize.rtUnknown : WordSize.Statement (.rtUnknown) :=
  fun _ _ => Nat.le_of_ble_eq_true rfl

theorem WordSize.frame (region : List Byte) : WordSize.Statement (.frame region) := by
  intro h c
  have h : region.length ≤ 255 := by simpa [Instr.wf, fitsLen] using h
  simp [encode, WordSize.limit]
  omega

end Sys2Proof.Laws
end

