-- ==== Sys2Proof/Laws/Ports.lean ====
section
/-! SUPPORT. Everything a step can do, and what a request asks for at each port, said once. -/

namespace Sys2Proof

/-- A record of at least 7 bytes of pins and 255 of `stg` is a whole command whatever it holds. -/
theorem decodeCmd_whole (l : List Byte) (h : 262 ≤ l.length) : ∃ i, decodeCmd l = .ok i := by
  match l, h with
  | op :: ty :: len :: hasCb :: tag :: k :: sel :: stg, h =>
    have := len.isLt
    have hs : ¬ stg.length < len.toNat := by simp only [List.length_cons] at h; omega
    simp [decodeCmd, hs]

/-- Only the whole frames of R90 decode at the wire. -/
theorem decodeWire_ok {l : List Byte} {i : Instr} (h : decodeWire l = .ok i) :
    ∃ r : List Byte, r.length ≤ 255 ∧ l = serialize r ∧ i = .frame r := by
  unfold decodeWire at h
  split at h
  · rename_i d hi lo rest
    split_ifs at h with h1 h2 h3 h4
    rw [not_not] at h1 h2 h3 h4
    simp only [Except.ok.injEq] at h
    have hlo := lo.isLt
    have hl : (rest.take lo.toNat).length = lo.toNat := by rw [List.length_take]; omega
    refine ⟨rest.take lo.toNat, by omega, ?_, h.symm⟩
    have e1 : lo.toNat / 256 = 0 := by omega
    simp only [serialize, hl, lenHiByte, lenLoByte, e1]
    rw [← h4, List.append_assoc, List.take_append_drop, h1, h2]
    simp
  · cases h

/-- A request that is one whole word leaves nothing behind. -/
theorem Request.left_eq_nil {r : Request} (h : r.port = .rx → r.data.length ≤ 1)
    (hw : r.port = .wire → r.data = [] ∨ ∃ i, decodeWire r.data = .ok i) : r.left = [] := by
  obtain ⟨n, p, d⟩ := r
  cases p with
  | rx => match d, h rfl with
    | [], _ => rfl
    | [_], _ => rfl
  | wire =>
    rcases hw rfl with rfl | ⟨i, hi⟩
    · rfl
    · simp only [Request.left, hi]
  | _ => rfl

/-- Only a command can be incomplete. -/
theorem Request.incomplete_eq_false {r : Request} (h : r.port ≠ .cmd) : r.incomplete = false := by
  obtain ⟨n, p, d⟩ := r
  cases p <;> first | rfl | exact absurd rfl h

/-- A whole command record is not incomplete. -/
theorem Request.incomplete_of_ok {r : Request} {i : Instr} (h : decodeCmd r.data = .ok i) : r.incomplete = false := by
  obtain ⟨n, p, d⟩ := r
  unfold Request.incomplete
  split
  · rename_i h1 h2; rw [h2] at h; simp [h]
  · rfl

end Sys2Proof

namespace Sys2Proof.Machine

/-- Everything a step can do: the operation that the head of the queue asks for, or nothing but the end of the strobes. -/
theorem step_cases (s : State) :
    (s.inputs = [] ∧ step s = .next s.quiet) ∨
    ∃ r rest, s.inputs = r :: rest ∧
      ((∃ i, (s.take r rest).requested r = some i ∧ step s = exec i (s.take r rest)) ∨
        ((s.take r rest).requested r = none ∧ step s = .next (s.take r rest).quiet)) := by
  unfold step
  cases h : s.inputs with
  | nil => exact .inl ⟨rfl, rfl⟩
  | cons r rest =>
    refine .inr ⟨r, rest, rfl, ?_⟩
    cases hr : (s.take r rest).requested r with
    | none => exact .inr ⟨rfl, by simp only [hr]⟩
    | some i => exact .inl ⟨i, rfl, by simp only [hr]⟩

/-- The word of a request decides what it asks for. -/
theorem State.requested_of_ok {s : State} {r : Request} {i : Instr}
    (h : decode s.par.codes r.port (s.portBytes r) = .ok i) : s.requested r = some i := by
  simp only [State.requested, h]

/-- A whole command record asks for its operation. -/
theorem State.requested_of_decodeCmd {s : State} {n : Time} {d : List Byte} {i : Instr} (h : decodeCmd d = .ok i) :
    s.requested ⟨n, .cmd, d⟩ = some i :=
  State.requested_of_ok (by
    simp [State.portBytes, Request.incomplete_of_ok (r := ⟨n, .cmd, d⟩) h, decode, h])

/-- A request that is one whole word is taken off the queue and nothing else. -/
theorem State.take_of_whole (s : State) {r : Request} (rest : List Request) (h1 : r.left = []) (h2 : r.incomplete = false) :
    s.take r rest = { s with now := r.now, inputs := rest } := by
  simp [State.take, h1, h2]

/-- Bytes at the RX port ask for the RXBYTE of the first (R104). -/
theorem State.requested_rx (s : State) (n : Time) (d : List Byte) :
    s.requested ⟨n, .rx, d⟩ = d.head?.map .rxbyte := by
  cases d <;> rfl

/-- Bytes on the wire ask for the frame they are, or for the RXBYTE of the first (R90, R100). -/
theorem State.requested_wire (s : State) (n : Time) (d : List Byte) :
    (∃ r, d = serialize r ∧ s.requested ⟨n, .wire, d⟩ = some (.frame r)) ∨
      ((∀ i, decodeWire d ≠ .ok i) ∧ s.requested ⟨n, .wire, d⟩ = d.head?.map .rxbyte) := by
  cases h : decodeWire d with
  | ok i =>
    obtain ⟨r, -, hd, rfl⟩ := decodeWire_ok h
    exact .inl ⟨r, hd, State.requested_of_ok (r := ⟨n, .wire, d⟩) h⟩
  | error e =>
    refine .inr ⟨by simp, ?_⟩
    unfold State.requested
    rw [show decode s.par.codes .wire (s.portBytes ⟨n, .wire, d⟩) = .error e from h]
    cases d <;> rfl

/-- A presented command asks for the operation of its record, filled up where it is incomplete (R106). -/
theorem State.requested_cmd (s : State) (n : Time) (b : Byte) (more : List Byte) :
    ∃ missing i, decodeCmd (b :: more ++ missing) = .ok i ∧ s.requested ⟨n, .cmd, b :: more⟩ = some i ∧
      (∀ j, decodeCmd (b :: more) = .ok j → missing = []) := by
  cases h : decodeCmd (b :: more) with
  | ok i =>
    exact ⟨[], i, by simpa using h, State.requested_of_decodeCmd h, fun _ _ => rfl⟩
  | error e =>
    obtain ⟨i, hi⟩ := decodeCmd_whole (s.fillRecord (b :: more)) (by
      simp only [State.fillRecord, List.length_append, List.length_map, List.length_range]; omega)
    refine ⟨_, i, hi, State.requested_of_ok ?_, by simp⟩
    have : (⟨n, .cmd, b :: more⟩ : Request).incomplete = true := by simp [Request.incomplete, h]
    simp [State.portBytes, this, decode, hi]

/-- A byte at the port of single cases asks for the row that R98 selects. -/
theorem State.requested_asmStep (s : State) (n : Time) (b : Byte) (more : List Byte) :
    s.requested ⟨n, .asmStep, b :: more⟩ = some ((s.selectRxb b).toInstr b) :=
  State.requested_of_ok (by simp only [State.portBytes, decode, decodeRxb_selByte]; rfl)

/-- Every operation of the command port completes in every state (R106, R110). -/
theorem exec_decodeOp (op : BitVec 4) (ty : Byte) (bytes : List Byte) (cb : Option Byte) (k : Byte) (sel : BitVec 2) (s : State) :
    ∃ t, exec (decodeOp op ty bytes cb k sel) s = .next t := by
  unfold decodeOp
  split <;> simp only [exec, execNop, execAsmReset, execAllocId, execSendFf, execSendAsync, execSendSync, execSerialize,
    execSubscribe, execSendAt, execSendRemoteAt, execSendData, execReservedB, execReservedC, execReservedD, execReservedE,
    execReservedF] <;> (try split_ifs) <;> (try split) <;> exact ⟨_, rfl⟩

/-- So does whatever a command record decodes to. -/
theorem exec_of_decodeCmd {l : List Byte} {i : Instr} (h : decodeCmd l = .ok i) (s : State) : ∃ t, exec i s = .next t := by
  unfold decodeCmd at h
  split at h
  · rename_i op ty len hasCb tag k sel stg
    by_cases hc : (usesStaging (op.extractLsb' 0 4) && decide (stg.length < len.toNat)) = true
    · rw [if_pos hc] at h; cases h
    · rw [if_neg hc] at h; cases h; exact exec_decodeOp ..
  · cases h

/-- What the head of the queue asks for is what the step performs. -/
theorem step_of_requested {s : State} {r : Request} {rest : List Request} {i : Instr} (h : s.inputs = r :: rest)
    (hr : (s.take r rest).requested r = some i) : step s = exec i (s.take r rest) := by
  simp only [step, h, hr]

end Sys2Proof.Machine
end

