-- ==== Sys2Proof/Laws/Waiters.lean ====
section
/-! SUPPORT. Everything an instruction can do to one waiter, said once (R190, R191, R192, R270): it keeps it, releases it with
exactly one event, arms it, or is RESET. -/

namespace Sys2Proof.Machine

/-- The waiter is kept and nothing releases it, or it was waiting and is released by one SYNC_DONE. -/
def ReceivesFor (s t : State) (k : Byte) (x : Waiter) : Prop :=
  (t.dsp.w[k.toNat]? = some x ∧ t.releasesOf k = s.releasesOf k) ∨
  (x.waiting = true ∧ t.dsp.w[k.toNat]? = some { x with waiting := false } ∧
    ∃ f, t.releasesOf k = s.releasesOf k ++ [.syncDone k f])

theorem WaitersKept.receivesFor {s t : State} {k : Byte} {x : Waiter} (hk : s.dsp.w[k.toNat]? = some x)
    (h : WaitersKept s t) : ReceivesFor s t k x := .inl ⟨by rw [h.waiters, hk], h.events k⟩

theorem WaiterDone.receivesFor {s t : State} {k : Byte} {x : Waiter} {f : Frame} (hk : s.dsp.w[k.toNat]? = some x)
    (h : WaiterDone s t f) : ReceivesFor s t k x := by
  obtain ⟨j, y, h1, h2, h3, h4⟩ := h
  by_cases hj : j = k
  · subst hj
    rw [hk] at h1
    cases h1
    have hlt : j.toNat < s.dsp.w.length := (List.getElem?_eq_some_iff.1 hk).1
    exact .inr ⟨h2, by rw [h3, List.getElem?_set_self hlt], f, by simp [State.releasesOf, h4, Event.releases]⟩
  · have hn : j.toNat ≠ k.toNat := fun e => hj (BitVec.eq_of_toNat_eq e)
    exact .inl ⟨by rw [h3, List.getElem?_set_ne hn, hk], releasesOf_append h4 (by simpa [Event.releases] using hj)⟩

/-- RXBYTEs one after another: one waiter is released at most once. -/
theorem State.receiveAll_waiter (l : List Byte) (s : State) {k : Byte} {x : Waiter} (hk : s.dsp.w[k.toNat]? = some x) :
    ReceivesFor s (l.foldl State.receive s) k x := by
  induction l generalizing s x with
  | nil => exact .inl ⟨hk, rfl⟩
  | cons b l ih =>
    have h1 : ReceivesFor s (s.receive b) k x := by
      rcases s.receive_waiters b with h | ⟨f, h⟩
      · exact h.receivesFor hk
      · exact h.receivesFor hk
    rw [List.foldl_cons]
    rcases h1 with ⟨h2, h3⟩ | ⟨h2, h3, f, h4⟩
    · have := ih (s.receive b) h2
      rwa [ReceivesFor, h3] at this
    · rcases ih (s.receive b) h3 with ⟨h5, h6⟩ | ⟨h5, -⟩
      · exact .inr ⟨h2, h5, f, by rw [h6, h4]⟩
      · cases h5

/-- What an instruction does to a waiter. -/
inductive WaiterStep (i : Instr) (s t : State) (k : Byte) (x : Waiter) : Prop where
  /-- Kept, with no event for it. -/
  | kept (h : t.dsp.w[k.toNat]? = some x) (he : t.releasesOf k = [])
  /-- Released by a response (R191). -/
  | done (f : Frame) (hw : x.waiting = true) (h : t.dsp.w[k.toNat]? = some { x with waiting := false })
      (he : t.releasesOf k = [.syncDone k f]) (hi : i ≠ .syncExpire k)
  /-- Released by its expiry (R192). -/
  | expired (hw : x.waiting = true) (h : t.dsp.w[k.toNat]? = some { x with waiting := false })
      (he : t.releasesOf k = [.syncNoframe k]) (hi : i = .syncExpire k) (ht : 500 ≤ (s.now - x.tStart).toNat)
  /-- Armed (R190). -/
  | armed (ty : Byte) (body : List Byte) (hw : x.waiting = false)
      (h : t.dsp.w[k.toNat]? = some ⟨true, s.dsp.nextId, s.now⟩) (he : t.releasesOf k = []) (hi : i = .sendSync ty body k)
  /-- RESET (R270, R271). -/
  | reset (hi : i = .reset)

/-- An operation that writes no waiter and emits nothing. -/
theorem WaiterStep.of_same {i : Instr} {s t : State} {k : Byte} {x : Waiter} (hk : s.dsp.w[k.toNat]? = some x)
    (h : t.dsp.w = s.dsp.w) (he : t.out.events = []) : WaiterStep i s t k x :=
  .kept (by rw [h, hk]) (by simp [State.releasesOf, he])

/-- What received bytes and routed frames do. -/
theorem WaiterStep.of_receives {i : Instr} {s t : State} {k : Byte} {x : Waiter} (h : ReceivesFor s.quiet t k x)
    (hi : i ≠ .syncExpire k) : WaiterStep i s t k x := by
  rcases h with ⟨h1, h2⟩ | ⟨h1, h2, f, h3⟩
  · exact .kept h1 h2
  · exact .done f h1 h2 h3 hi

/-- Routing a frame. -/
theorem State.route_receivesFor (s : State) (f : Frame) {k : Byte} {x : Waiter} (hk : s.dsp.w[k.toNat]? = some x) :
    ReceivesFor s (s.route f) k x := by
  rcases s.route_waiters f with h | h
  · exact h.receivesFor hk
  · exact h.receivesFor hk

/-- A router case performed alone is routing. -/
theorem routeCase_route {s t : State} {cls : RtClass} {act : State → Frame → State}
    (hact : ∀ (u : State) (f : Frame), rtClass u.par.codes f.region = cls → act u f = u.route f)
    (h : s.routeCase cls act = .next t) : ∃ f, t = s.quiet.route f := by
  unfold State.routeCase at h
  split at h
  · rename_i f hf
    split_ifs at h with hc
    simp only [Bool.and_eq_true, decide_eq_true_eq] at hc
    cases h
    exact ⟨f, hact s.quiet f hc.2⟩
  · cases h

/-- A row of RXBYTE performed alone touches no waiter. -/
theorem rowCase_waiter {i : Instr} {s t u : State} {row : RxbRow} {b : Byte} {k : Byte} {x : Waiter}
    (h : s.rowCase row b u = .next t) (hk : s.dsp.w[k.toNat]? = some x) (hw : u.dsp.w = s.dsp.w) (he : u.out.events = []) : WaiterStep i s t k x := by
  unfold State.rowCase at h
  split_ifs at h
  cases h
  exact .of_same hk hw he

/-- Everything an instruction can do to a waiter. -/
theorem exec_waiter {i : Instr} {s t : State} {k : Byte} {x : Waiter} (h : exec i s = .next t)
    (hk : s.dsp.w[k.toNat]? = some x) : WaiterStep i s t k x := by
  have send : ∀ ty body cb, WaiterStep i s (s.quiet.sendAsync ty body cb) k x := fun ty body cb => by
    unfold State.sendAsync
    split_ifs <;> exact .of_same hk rfl rfl
  cases i with
  | reset => exact .reset rfl
  | rxbyte b => cases h; exact .of_receives (State.receiveAll_waiter [b] s.quiet hk) (fun h => nomatch h)
  | frame r => cases h; exact .of_receives (State.receiveAll_waiter (serialize r) s.quiet hk) (fun h => nomatch h)
  | sendAsync ty body cb => cases h; exact send ..
  | sendAt body cb => cases h; exact send ..
  | sendRemoteAt body cb => cases h; exact send ..
  | sendData body cb => cases h; exact send ..
  | sendFf ty body => simp only [exec, execSendFf] at h; split_ifs at h <;> (cases h; exact .of_same hk rfl rfl)
  | sendSync ty body j =>
    simp only [exec, execSendSync] at h
    split_ifs at h with hc <;> cases h
    · exact .of_same hk rfl rfl
    · by_cases hj : j = k
      · subst hj
        simp only [Bool.or_eq_true, not_or, State.waiterFree, hk, Bool.not_not] at hc
        have hlt : j.toNat < s.dsp.w.length := (List.getElem?_eq_some_iff.1 hk).1
        exact .armed ty body (by simpa using hc.2) (by exact List.getElem?_set_self hlt) rfl rfl
      · have hn : j.toNat ≠ k.toNat := fun e => hj (BitVec.eq_of_toNat_eq e)
        exact .kept ((List.getElem?_set_ne hn).trans hk) rfl
  | syncExpire j =>
    simp only [exec, execSyncExpire] at h
    split at h
    · rename_i y hy
      split_ifs at h with hx
      cases h
      simp only [State.expirable, Bool.and_eq_true, decide_eq_true_eq] at hx
      by_cases hj : j = k
      · subst hj
        rw [hk] at hy
        cases hy
        have hlt : j.toNat < s.dsp.w.length := (List.getElem?_eq_some_iff.1 hk).1
        exact .expired hx.1 (List.getElem?_set_self hlt) (by simp [State.releasesOf, Event.releases]) rfl hx.2
      · have hn : j.toNat ≠ k.toNat := fun e => hj (BitVec.eq_of_toNat_eq e)
        exact .kept ((List.getElem?_set_ne hn).trans hk) (by simpa [State.releasesOf, Event.releases] using hj)
    · cases h
  | subscribe sel =>
    simp only [exec, execSubscribe] at h
    split at h <;> cases h <;> exact .of_same hk rfl rfl
  | routeAndClear =>
    simp only [exec, execRouteAndClear] at h
    split_ifs at h
    cases h
    exact .of_receives (s.quiet.route_receivesFor _ hk) (fun h => nomatch h)
  | rtIoSample =>
    obtain ⟨f, rfl⟩ := routeCase_route (fun u f hc => by simp only [State.route, hc]) h
    exact .of_receives (s.quiet.route_receivesFor f hk) (fun h => nomatch h)
  | rtAtResp =>
    obtain ⟨f, rfl⟩ := routeCase_route (fun u f hc => by simp only [State.route, hc]) h
    exact .of_receives (s.quiet.route_receivesFor f hk) (fun h => nomatch h)
  | rtRemoteAtResp =>
    obtain ⟨f, rfl⟩ := routeCase_route (fun u f hc => by simp only [State.route, hc]) h
    exact .of_receives (s.quiet.route_receivesFor f hk) (fun h => nomatch h)
  | rtZbRx =>
    obtain ⟨f, rfl⟩ := routeCase_route (fun u f hc => by simp only [State.route, hc]) h
    exact .of_receives (s.quiet.route_receivesFor f hk) (fun h => nomatch h)
  | rtUnknown =>
    change s.routeCase .unknown (fun u _ => u.unknownType) = _ at h
    obtain ⟨f, rfl⟩ := routeCase_route (fun u f hc => by simp only [State.route, hc]) h
    exact .of_receives (s.quiet.route_receivesFor f hk) (fun h => nomatch h)
  | rxbDrop b => exact rowCase_waiter h hk rfl rfl
  | rxbResync => exact rowCase_waiter h hk rfl rfl
  | rxbStart => exact rowCase_waiter h hk rfl rfl
  | rxbSkip b => exact rowCase_waiter h hk rfl rfl
  | rxbLenhiOk => exact rowCase_waiter h hk rfl rfl
  | rxbLenhiBad b => exact rowCase_waiter h hk rfl rfl
  | rxbLenlo b => exact rowCase_waiter h hk rfl rfl
  | rxbData b => exact rowCase_waiter h hk rfl rfl
  | rxbCsumOk b => exact rowCase_waiter h hk rfl rfl
  | rxbCsumBad b => exact rowCase_waiter h hk rfl rfl
  | _ => cases h; exact .of_same hk rfl rfl

end Sys2Proof.Machine
end

