-- ==== Sys2Proof/Tests/Slice0.lean ====
section
/-! SUPPORT. Tests with expected values from the spec (95_test_vectors.md and the rules' examples), the smoke test of
WellFormed, and one witness for the hypotheses of each statement. -/

set_option Elab.async false

namespace Sys2Proof.Machine

/-! ### Small states -/

/-- The reset state with `ID_LO = 1` and the default codes, RTR attached or not. -/
def start (rtr : Bool) : State := State.resetOf ⟨Codes.default, .fromOne, rtr⟩

/-- XFA as a whole after reset. -/
abbrev xfa : State := start true

/-- A stand-alone ASM after reset. -/
abbrev alone : State := start false

/-- The same state with ASM at a point of a frame: `csum` is the running checksum of the bytes stored. -/
def State.inFrame (s : State) (st : AsmSt) (len : Byte) (r : List Byte) (tPrev now : Time) : State :=
  { s with
    asm := { st, len, cnt := lenLoByte r.length, csum := cks r, buf := (List.range r.length).zip r, tPrev }
    now }

/-- The same state with a frame exposed. -/
def State.showing (s : State) (r : List Byte) : State := s.inFrame .complete (lenLoByte r.length) r 0 0

/-- The same state with slot 1 occupied. -/
def State.slot1 (s : State) (cb : Cb) : State := s.store 1 cb

/-- The same state with all three subscribers. -/
def State.subscribed (s : State) : State := { s with sub := ⟨true, true, true⟩ }

/-- The same state with waiter 0 armed for ID 1 at time 0, at a later time. -/
def State.armed (s : State) (now : Time) : State := { s.setWaiter 0 ⟨true, 1, 0⟩ with now }

/-- A next state that passes a check. -/
def ok (a : Answer) (p : State → Bool) : Bool :=
  match a with
  | .next t => p t
  | .fault _ => false
  | .refused _ => false

/-- A refusal with the given name. -/
def refuses (a : Answer) (r : Refusal) : Bool :=
  match a with
  | .next _ => false
  | .fault _ => false
  | .refused q => q == r

/-- The registers of ASM but for the buffer and the time. -/
def State.regs (s : State) : AsmSt × Byte × Byte × Byte := (s.asm.st, s.asm.len, s.asm.cnt, s.asm.csum)

/-! ### WellFormed: each check refuses an ill-formed term -/

theorem test_wf_body_256 : (Instr.sendFf 8 (List.replicate 256 0)).wf = false := by
  simp only [Instr.wf, fitsLen, List.length_replicate]; rfl
theorem test_wf_region_256 : (Instr.serialize (List.replicate 256 0)).wf = false := by
  simp only [Instr.wf, fitsLen, List.length_replicate]; rfl
theorem test_wf_frame_256 : (Instr.frame (List.replicate 256 0)).wf = false := by
  simp only [Instr.wf, fitsLen, List.length_replicate]; rfl
theorem test_wf_senders : ∀ i ∈ [Instr.sendAsync 8 (List.replicate 256 0) none, .sendSync 8 (List.replicate 256 0) 0,
    .sendAt (List.replicate 256 0) none, .sendRemoteAt (List.replicate 256 0) none, .sendData (List.replicate 256 0) none],
    i.wf = false := by
  intro i hi
  simp only [List.mem_cons, List.not_mem_nil, or_false] at hi
  rcases hi with rfl | rfl | rfl | rfl | rfl <;> simp only [Instr.wf, fitsLen, List.length_replicate] <;> rfl
theorem test_wf_skip_delimiter : (Instr.rxbSkip 0x7E).wf = false := by decide
theorem test_wf_lenhi_bad_zero : (Instr.rxbLenhiBad 0).wf = false := by decide

/-! ### Decoding: every constructor from a word of the spec -/

/-- R110: the codes without operands. -/
theorem test_decode_cmd_plain :
    decodeCmd [0x0, 0, 0, 0, 0, 0, 0] = .ok .nop ∧ decodeCmd [0x1, 0, 0, 0, 0, 0, 0] = .ok .asmReset ∧
    decodeCmd [0x2, 0, 0, 0, 0, 0, 0] = .ok .allocId ∧ decodeCmd [0xB, 0, 0, 0, 0, 0, 0] = .ok .reservedB ∧
    decodeCmd [0xC, 0, 0, 0, 0, 0, 0] = .ok .reservedC ∧ decodeCmd [0xD, 0, 0, 0, 0, 0, 0] = .ok .reservedD ∧
    decodeCmd [0xE, 0, 0, 0, 0, 0, 0] = .ok .reservedE ∧ decodeCmd [0xF, 0, 0, 0, 0, 0, 0] = .ok .reservedF := by decide

/-- R110, R106: the codes with operands; `stg` longer than `cmd_len` is cut, fields not named are ignored (U12). -/
theorem test_decode_cmd_operands :
    decodeCmd [0x3, 0x08, 2, 1, 9, 9, 3, 0x4E, 0x44, 0x99] = .ok (.sendFf 0x08 [0x4E, 0x44]) ∧
    decodeCmd [0x4, 0x08, 2, 1, 0xA5, 0, 0, 0x4E, 0x44] = .ok (.sendAsync 0x08 [0x4E, 0x44] (some 0xA5)) ∧
    decodeCmd [0x5, 0x08, 1, 0, 0, 7, 0, 0x4E] = .ok (.sendSync 0x08 [0x4E] 7) ∧
    decodeCmd [0x6, 0, 2, 0, 0, 0, 0, 0x08, 0x01] = .ok (.serialize [0x08, 0x01]) ∧
    decodeCmd [0x7, 0, 0, 0, 0, 0, 2] = .ok (.subscribe 2) ∧
    decodeCmd [0x8, 0, 1, 0, 0xA5, 0, 0, 0x4E] = .ok (.sendAt [0x4E] none) ∧
    decodeCmd [0x9, 0, 0, 1, 0x01, 0, 0] = .ok (.sendRemoteAt [] (some 0x01)) ∧
    decodeCmd [0xA, 0, 1, 0, 0, 0, 0, 0x48] = .ok (.sendData [0x48] none) := by decide

/-- R98: a byte and a state; bit 3 late, bit 4 `cnt = len`, bit 5 `b = csum`. -/
theorem test_decode_rxb :
    decodeRxb [0x7E, 0b001100] = .ok (.rxbDrop 0x7E) ∧ decodeRxb [0x7E, 0b001011] = .ok .rxbResync ∧
    decodeRxb [0x7E, 0b001000] = .ok .rxbStart ∧ decodeRxb [0x55, 0b000000] = .ok (.rxbSkip 0x55) ∧
    decodeRxb [0x00, 0b000001] = .ok .rxbLenhiOk ∧ decodeRxb [0x7E, 0b000001] = .ok (.rxbLenhiBad 0x7E) ∧
    decodeRxb [0x7E, 0b000010] = .ok (.rxbLenlo 0x7E) ∧ decodeRxb [0x88, 0b000011] = .ok (.rxbData 0x88) ∧
    decodeRxb [0xE4, 0b110011] = .ok (.rxbCsumOk 0xE4) ∧ decodeRxb [0xE5, 0b010011] = .ok (.rxbCsumBad 0xE5) := by decide

/-- The ports with no code (R103, R104, R192), ROUTE_AND_CLEAR, R99 and R90. -/
theorem test_decode_ports :
    decode Codes.default .rst [] = .ok .reset ∧ decode Codes.default .rx [0x7E] = .ok (.rxbyte 0x7E) ∧
    decode Codes.default .timer [0] = .ok (.syncExpire 0) ∧ decode Codes.default .routeStep [] = .ok .routeAndClear ∧
    decode Codes.default .rtrStep [0x92] = .ok .rtIoSample ∧ decode Codes.default .rtrStep [0x88, 1] = .ok .rtAtResp ∧
    decode Codes.default .rtrStep [0x97, 2] = .ok .rtRemoteAtResp ∧ decode Codes.default .rtrStep [0x90] = .ok .rtZbRx ∧
    decode Codes.default .rtrStep [0x8A, 6] = .ok .rtUnknown ∧ decode Codes.default .rtrStep [] = .ok .rtUnknown ∧
    decode Codes.default .wire [0x7E, 0x00, 0x02, 0x08, 0x01, 0xF6] = .ok (.frame [0x08, 0x01]) := by decide

/-- What is no word is refused by name (R100, U4). -/
theorem test_decode_refusals :
    decodeCmd [] = .error .shortRecord ∧ decodeCmd [3, 8, 2, 0, 0, 0, 0, 1] = .error .shortStaging ∧
    decodeRxb [0x55, 5] = .error .badState ∧ decodeWire [0x7F, 0, 0, 0xFF] = .error .badDelimiter ∧
    decodeWire [0x7E, 1, 0, 0xFF] = .error .badLength ∧ decodeWire [0x7E, 0, 1, 0xFF] = .error .badFrameSize ∧
    decodeWire [0x7E, 0, 0, 0xFE] = .error .badChecksum := by decide

/-- Words of the opcode table, as `decodeTableWord` numbers them. -/
theorem test_decode_table :
    decodeTableWord 8 0x2 = some .allocId ∧ decodeTableWord 8 0xF = some .reservedF ∧
    decodeTableWord 8 0x92 = some .rtIoSample ∧ decodeTableWord 8 0x7E = some .rxbStart ∧
    decodeTableWord 32 0xFF00007E = some (.frame []) := by decide

/-- S1 and V14: serialized frames. -/
theorem test_serialize :
    serialize [] = [0x7E, 0x00, 0x00, 0xFF] ∧ serialize [0x08, 0x01] = [0x7E, 0x00, 0x02, 0x08, 0x01, 0xF6] ∧
    serialize [0x7E, 0x7E, 0x7E] = [0x7E, 0x00, 0x03, 0x7E, 0x7E, 0x7E, 0x85] ∧ cks [0xFF] = 0x00 ∧
    cks [0x88, 0x01, 0x4E, 0x44, 0x00] = 0xE4 := by decide

/-! ### ASM (V1 to V13, P1) -/

theorem test_rxbyte_start : ok (exec (.rxbyte 0x7E) alone) (fun t => t.regs == (.lengthHigh, 0, 0, 0xFF)) = true := by decide
theorem test_rxbyte_routes_and_clears :
    ok (exec (.rxbyte 0xDE) ((xfa.slot1 (.tag 0xA5)).inFrame .payload 5 [0x88, 1, 0x4E, 0x4A, 0] 0 0)) (fun t =>
      t.regs == (.awaitDelimiter, 0, 0, 0xFF) && t.dsp.tbl[1] == ⟨false, .none⟩ &&
      t.out.events == [.resp 0xA5 1 ⟨[0x88, 1, 0x4E, 0x4A, 0], 0xDE⟩]) = true := by decide
theorem test_drop : ok (exec (.rxbDrop 0x7E) (alone.showing [])) (fun t =>
    t.regs == (.complete, 0, 0, 0xFF) && t.bytesAppended == 4 && t.asm.tPrev == 0) = true := by decide
theorem test_resync_1001 : ok (exec .rxbResync (alone.inFrame .payload 5 [0x88] 0 1001)) (fun t =>
    t.regs == (.lengthHigh, 0, 0, 0xFF) && t.bytesAppended == 1) = true := by decide
theorem test_not_late_1000 : ok (exec (.rxbyte 0x7E) (alone.inFrame .payload 5 [0x88] 0 1000)) (fun t =>
    t.regs == (.payload, 5, 2, 0xF9) && t.asm.buf.read 1 == some 0x7E) = true := by decide
theorem test_start : ok (exec .rxbStart alone) (fun t => t.asm.st == .lengthHigh && t.bytesAppended == 1) = true := by decide
theorem test_skip : ok (exec (.rxbSkip 0x55) alone) (fun t => t.regs == (.awaitDelimiter, 0, 0, 0xFF)) = true := by decide
theorem test_lenhi_ok : ok (exec .rxbLenhiOk (alone.inFrame .lengthHigh 0 [] 0 0)) (fun t =>
    t.asm.st == .lengthLow && t.bytesAppended == 2) = true := by decide
theorem test_lenhi_bad : ok (exec (.rxbLenhiBad 0x7E) (alone.inFrame .lengthHigh 0 [] 0 1000)) (fun t =>
    t.regs == (.awaitDelimiter, 0, 0, 0xFF)) = true := by decide
theorem test_lenlo : ok (exec (.rxbLenlo 5) (alone.inFrame .lengthLow 0 [] 0 0)) (fun t =>
    t.regs == (.payload, 5, 0, 0xFF) && t.bytesAppended == 3) = true := by decide
theorem test_data : ok (exec (.rxbData 0x01) (alone.inFrame .payload 5 [0x88] 0 0)) (fun t =>
    t.regs == (.payload, 5, 2, 0x76) && t.asm.buf == [(0, 0x88), (1, 0x01)]) = true := by decide
theorem test_data_wraps : ok (exec (.rxbData 0x10) (alone.inFrame .payload 5 [0xFA] 0 0)) (fun t =>
    t.asm.csum == 0xF5) = true := by decide
theorem test_csum_ok : ok (exec (.rxbCsumOk 0xE4) (alone.inFrame .payload 5 [0x88, 1, 0x4E, 0x44, 0] 0 0)) (fun t =>
    t.bytesAppended == 9 && t.exposed == some ⟨[0x88, 1, 0x4E, 0x44, 0], 0xE4⟩) = true := by decide
theorem test_csum_late_delimiter : refuses (exec (.rxbCsumOk 0x7E) (alone.inFrame .payload 1 [0x81] 0 1500))
    (.rowNotSelected .csumOk) = true := by decide
theorem test_csum_bad : ok (exec (.rxbCsumBad 0xE5) (alone.inFrame .payload 5 [0x88, 1, 0x4E, 0x44, 0] 0 0)) (fun t =>
    t.regs == (.awaitDelimiter, 0, 0, 0xFF)) = true := by decide
theorem test_asm_reset : ok (exec .asmReset (alone.inFrame .payload 5 [0x88] 0 0)) (fun t =>
    t.regs == (.awaitDelimiter, 0, 0, 0xFF)) = true := by decide
theorem test_route_and_clear : ok (exec .routeAndClear (xfa.showing [0x8A, 0x06])) (fun t =>
    t.regs == (.awaitDelimiter, 0, 0, 0xFF) && t.out.events == [] && t.out.notes == [.unknownType]) = true := by decide
theorem test_frame : ok (exec (.frame [0x08, 0x01]) alone) (fun t =>
    t.regs == (.complete, 2, 2, 0xF6) && t.exposed == some ⟨[0x08, 0x01], 0xF6⟩) = true := by decide
theorem test_frame_routed : ok (exec (.frame [0x8A, 0x06]) xfa) (fun t =>
    t.regs == (.awaitDelimiter, 0, 0, 0xFF) && t.out.notes == [.unknownType]) = true := by decide

/-! ### SER and DSP (V14, V20 to V29) -/

theorem test_ser : ok (exec (.serialize [0x08, 0x52, 0x4E, 0x4A]) xfa) (fun t =>
    txBytes t.out.tx == [0x7E, 0x00, 0x04, 0x08, 0x52, 0x4E, 0x4A, 0x0D] && t.out.tx.head? == some .flush) = true := by decide
theorem test_alloc : ok (exec .allocId xfa) (fun t => t.resId == some 1 && t.dsp.nextId == 2) = true := by decide
theorem test_alloc_wraps_to_two :
    ok (exec .allocId { State.resetOf ⟨Codes.default, .fromTwo, true⟩ with dsp := { nextId := 9, tbl := .replicate 10 .empty, w := [] } })
      (fun t => t.resId == some 9 && t.dsp.nextId == 2) = true := by decide
theorem test_send_ff : ok (exec (.sendFf 0x08 [0x4E, 0x44]) xfa) (fun t =>
    txBytes t.out.tx == [0x7E, 0x00, 0x04, 0x08, 0x00, 0x4E, 0x44, 0x65] && t.resId == some 0 && t.dsp.nextId == 1) = true := by
  decide
theorem test_send_async : ok (exec (.sendAsync 0x08 [0x4E, 0x44] (some 0xA5)) xfa) (fun t =>
    txBytes t.out.tx == [0x7E, 0x00, 0x04, 0x08, 0x01, 0x4E, 0x44, 0x64] && t.resId == some 1 && t.dsp.nextId == 2 &&
    t.dsp.tbl[1] == ⟨true, .tag 0xA5⟩) = true := by decide
theorem test_send_async_253 (body : List Byte) (h : body.length = 253) : ok (exec (.sendAsync 0x08 body none) xfa) (fun t =>
    t.resOk == some false && t.dsp.nextId == 1 && t.out.tx == []) = true := by
  simp only [exec, execSendAsync, State.sendAsync, if_pos (show body.length > Config.bodyMax by simp [h])]; decide
theorem test_send_at : ok (exec (.sendAt [0x4E, 0x44] (some 0xA5)) xfa) (fun t =>
    txBytes t.out.tx == [0x7E, 0x00, 0x04, 0x08, 0x01, 0x4E, 0x44, 0x64]) = true := by decide
theorem test_send_remote_at :
    ok (exec (.sendRemoteAt [0x00, 0x13, 0xA2, 0x00, 0x40, 0x0A, 0x01, 0x27, 0xFF, 0xFE, 0x02, 0x44, 0x31, 0x05] (some 1)) xfa)
      (fun t => (txBytes t.out.tx).take 5 == [0x7E, 0x00, 0x10, 0x17, 0x01] && (txBytes t.out.tx).getLast? == some 0x47) = true := by
  decide
theorem test_send_data :
    ok (exec (.sendData [0x00, 0x13, 0xA2, 0x00, 0x40, 0x0A, 0x01, 0x27, 0xFF, 0xFE, 0x00, 0x00, 0x48, 0x69] none) xfa)
      (fun t => (txBytes t.out.tx).getLast? == some 0x19 && t.dsp.tbl[1] == ⟨true, .none⟩ && t.dsp.nextId == 2) = true := by decide
theorem test_send_sync : ok (exec (.sendSync 0x08 [0x4E, 0x4A] 0) xfa) (fun t =>
    txBytes t.out.tx == [0x7E, 0x00, 0x04, 0x08, 0x01, 0x4E, 0x4A, 0x5E] && t.dsp.tbl[1] == ⟨true, .sync 0⟩ &&
    t.dsp.w == [⟨true, 1, 0⟩]) = true := by decide
theorem test_send_sync_busy : ok (exec (.sendSync 0x08 [0x4E, 0x4A] 0) (xfa.armed 10)) (fun t =>
    t.resOk == some false && t.dsp.nextId == 1) = true := by decide
theorem test_expire_500 : ok (exec (.syncExpire 0) ((xfa.slot1 (.sync 0)).armed 500)) (fun t =>
    t.out.events == [.syncNoframe 0] && t.dsp.w == [⟨false, 1, 0⟩] && t.dsp.tbl[1] == ⟨true, .sync 0⟩) = true := by decide
theorem test_expire_499 : refuses (exec (.syncExpire 0) (xfa.armed 499)) (.expireNotEnabled 0) = true := by decide

/-! ### RTR (V30 to V43) -/

theorem test_io_sample :
    ok (exec .rtIoSample (xfa.subscribed.showing
      [0x92, 0x00, 0x13, 0xA2, 0x00, 0x40, 0x0A, 0x01, 0x27, 0xFF, 0xFE, 0x01, 0x01, 0x00, 0x10, 0x01, 0x00, 0x10, 0x03, 0xFF]))
      (fun t => t.out.events == [.dio 0x10, .aio (some 0x03FF) none none none]) = true := by decide
theorem test_io_sample_mask_bits :
    ok (exec .rtIoSample (xfa.subscribed.showing
      [0x92, 0x00, 0x13, 0xA2, 0x00, 0x40, 0x0A, 0x01, 0x27, 0xFF, 0xFE, 0x01, 0x01, 0x00, 0x00, 0xF5, 0x01, 0x11, 0x02, 0x22, 0x99]))
      (fun t => t.out.events == [.aio (some 0x0111) none (some 0x0222) none]) = true := by decide
theorem test_at_resp_discovery :
    ok (exec .rtAtResp ((xfa.slot1 (.tag 0xA5)).showing [0x88, 0x01, 0x4E, 0x44])) (fun t =>
      t.out.events == [.resp 0xA5 1 ⟨[0x88, 0x01, 0x4E, 0x44], 0xE4⟩] && t.dsp.tbl[1] == ⟨true, .tag 0xA5⟩) = true := by decide
theorem test_at_resp_sync :
    ok (exec .rtAtResp (((xfa.slot1 (.sync 0)).armed 120).showing [0x88, 0x01, 0x4E, 0x4A, 0x00])) (fun t =>
      t.out.events == [.syncDone 0 ⟨[0x88, 0x01, 0x4E, 0x4A, 0x00], 0xDE⟩] && t.dsp.w == [⟨false, 1, 0⟩] &&
      t.dsp.tbl[1] == ⟨false, .none⟩) = true := by decide
theorem test_remote_at_resp :
    ok (exec .rtRemoteAtResp ((xfa.store 2 (.tag 0x07)).showing
      [0x97, 0x02, 0x00, 0x13, 0xA2, 0x00, 0x40, 0x0A, 0x01, 0x27, 0xFF, 0xFE, 0x44, 0x31, 0x00])) (fun t =>
      t.out.events.length == 1 && t.evResp == some (0x07, 2) && t.dsp.tbl[2] == ⟨false, .none⟩) = true := by decide
theorem test_remote_at_resp_miss :
    ok (exec .rtRemoteAtResp ((xfa.slot1 (.tag 0x07)).showing [0x97, 0x0A, 0x4E, 0x4A, 0x00])) (fun t =>
      t.out.events == [] && t.out.notes == [.correlationMiss] && t.dsp.tbl[1] == ⟨true, .tag 0x07⟩) = true := by decide
theorem test_zb_rx :
    ok (exec .rtZbRx (xfa.subscribed.showing
      [0x90, 0x00, 0x13, 0xA2, 0x00, 0x40, 0x0A, 0x01, 0x27, 0xFF, 0xFE, 0x01, 0x48, 0x69])) (fun t =>
      t.out.events == [.rxd [0x48, 0x69]] && t.evRxd == some (2, [0x48, 0x69])) = true := by decide
theorem test_zb_rx_11 :
    ok (exec .rtZbRx (xfa.subscribed.showing [0x90, 0, 0, 0, 0, 0, 0, 0, 0, 0, 0])) (fun t =>
      t.out.events == [] && t.out.notes == [.shortFrame]) = true := by decide
theorem test_unknown : ok (exec .rtUnknown (xfa.showing [0x08, 0x01, 0x4E, 0x44])) (fun t =>
    t.out.events == [] && t.out.notes == [.unknownType]) = true := by decide
theorem test_subscribe : ok (exec (.subscribe 0) xfa) (fun t => t.subEn == 0b001) = true := by decide
theorem test_subscribe_3 : ok (exec (.subscribe 3) xfa) (fun t => t.subEn == 0 && t.resOk == some false) = true := by decide

/-! ### System -/

theorem test_nop : ok (exec .nop xfa) (fun t => t.out.events == [] && t.resId == none && t.dsp == xfa.dsp) = true := by decide
theorem test_reserved : ∀ i ∈ [Instr.reservedB, .reservedC, .reservedD, .reservedE, .reservedF],
    ok (exec i xfa) (fun t => t.resOk == some false && t.dsp == xfa.dsp) = true := by decide
theorem test_reset :
    ok (exec .reset (((xfa.slot1 (.sync 0)).armed 7).subscribed.inFrame .payload 5 [0x88] 0 0)) (fun t =>
      t.regs == (.awaitDelimiter, 0, 0, 0xFF) && t.dsp.nextId == 1 && t.dsp.tbl == .replicate 10 .empty &&
      t.dsp.w.map Waiter.waiting == [false] && t.subEn == 0 && t.out.events == []) = true := by decide
/-- R100 (b), R139: bytes on the wire with a wrong checksum are received one by one; at the fourth the frame is discarded. -/
theorem test_wire_bad_checksum :
    (match Host.Core.run Sys2Proof.core 4 { xfa with inputs := [⟨0, .wire, [0x7E, 0x00, 0x00, 0xFE]⟩] } with
      | .next t => t.regs == (.awaitDelimiter, 0, 0, 0xFF) && t.out.notes == [.badChecksum] && t.inputs == []
      | _ => false) = true := by decide
set_option maxRecDepth 4000 in
/-- R106: a command presented with fewer staging bytes than `cmd_len` is performed; the missing byte is a free value. -/
theorem test_short_staging : ok (step { xfa with inputs := [⟨0, .cmd, [3, 8, 2, 0, 0, 0, 0, 0x4E]⟩] }) (fun t =>
    t.resId == some 0 && (txBytes t.out.tx).take 6 == [0x7E, 0x00, 0x04, 0x08, 0x00, 0x4E]) = true := by decide
theorem test_step_fetches : ok (step (xfa.withFetchWord 8 0x2)) (fun t => t.resId == some 1 && t.inputs == []) = true := by decide

/-! ### Witnesses: a state and operands that meet the hypotheses of each statement, at the boundaries of its clauses -/

/-- A state of which one request is left. -/
def State.asked (s : State) (p : Port) (data : List Byte) : State := { s with inputs := [⟨0, p, data⟩] }

theorem witness_DecodeOfEncode : Codes.default.Distinct ∧ (Instr.frame []).wf = true ∧ (Instr.rxbSkip 0x7F).wf = true ∧
    ∀ body : List Byte, body.length = 255 → (Instr.sendSync 8 body 0).wf = true := by
  refine ⟨by decide, by decide, by decide, fun body h => ?_⟩
  simp [Instr.wf, fitsLen, h]

theorem witness_ChecksumLaws : (0 < 8 ∧ cks [0x7E] ^^^ (1#8 <<< 0) = 0x80) ∧ (7 < 8 ∧ cks [0x7E] ^^^ (1#8 <<< 7) = 0x01) := by decide

theorem witness_StepRunsDecoded :
    (let s := xfa.asked .cmd [2, 0, 0, 0, 0, 0, 0]
     let r : Request := ⟨0, .cmd, [2, 0, 0, 0, 0, 0, 0]⟩
     s.inputs = r :: [] ∧ decode s.par.codes r.port ((s.take r []).portBytes r) = .ok .allocId ∧ r.incomplete = false) ∧
    (let s := xfa.asked .rx [0x7E, 0x00]
     let r : Request := ⟨0, .rx, [0x7E, 0x00]⟩
     s.inputs = r :: [] ∧ decode s.par.codes r.port ((s.take r []).portBytes r) = .ok (.rxbyte 0x7E)) :=
  ⟨⟨rfl, by decide, rfl⟩, rfl, rfl⟩

theorem witness_StepRunsEncodedOperation :
    (Instr.frame [1]).wf = true ∧ (Instr.frame [1]).isOperation = true ∧
      (xfa.asked .wire (serialize [1])).inputs =
        ⟨0, (encode xfa.par.codes (.frame [1])).1, (encode xfa.par.codes (.frame [1])).2⟩ :: [] := by decide

theorem witness_StepIdle : xfa.inputs = [] ∧ (xfa.asked .timer []).inputs = ⟨0, .timer, []⟩ :: [] := ⟨rfl, rfl⟩

theorem witness_AgentRequestsAlwaysComplete :
    (xfa.asked .rst []).inputs = ⟨0, .rst, []⟩ :: [] ∧
    ((xfa.asked .wire [0x7E, 0x00, 0x00, 0xFE]).inputs = ⟨0, .wire, [0x7E, 0x00, 0x00, 0xFE]⟩ :: [] ∧
      ∀ r : List Byte, r.length ≤ 255 → [0x7E, 0x00, 0x00, 0xFE] ≠ serialize r) ∧
    ((xfa.asked .cmd [3, 8, 2, 0, 0, 0, 0, 1]).inputs = ⟨0, .cmd, 3 :: [8, 2, 0, 0, 0, 0, 1]⟩ :: [] ∧
      decode xfa.par.codes .cmd [3, 8, 2, 0, 0, 0, 0, 1] = .error .shortStaging) ∧
    decode xfa.par.codes .cmd [2, 0, 0, 0, 0, 0, 0] = .ok .allocId ∧
    (xfa.asked .asmStep [0x7E]).inputs = ⟨0, .asmStep, 0x7E :: []⟩ :: [] := by
  refine ⟨rfl, ⟨rfl, fun r _ h => ?_⟩, ⟨rfl, by decide⟩, by decide, rfl⟩
  have hl := congrArg List.length h
  rw [serialize_length] at hl
  have : r = [] := List.length_eq_zero_iff.1 (by simpa using hl)
  subst this
  exact absurd h (by decide)

/-- The pins of a cycle with a command and nothing else. -/
def pins (rst rx : Bool) (now : Time) (stg : List Byte) : Cycle :=
  { rst, now, rxValid := rx, rxData := 0x7E, cmdValid := true, cmdOp := 2, cmdType := 0, cmdLen := 0, cmdHasCb := false,
    cmdTag := 0, cmdK := 0, cmdSel := 0, stg }

theorem witness_CommandPinsDecode : (pins false false 0 (.replicate 255 0)).stg.length = 255 := List.length_replicate

theorem witness_HardwarePriority :
    ((pins true true 0 []).rst = true) ∧ ((pins false true 0 []).rst = false ∧ (pins false true 0 []).rxValid = true) ∧
    ((xfa.armed 0).dsp.w[0]? = some ⟨true, 1, 0⟩ ∧ 500 ≤ ((pins false false 500 []).now - 0).toNat) ∧
    (∀ x ∈ (xfa.armed 0).dsp.w, x.waiting = true → ((pins false false 499 []).now - x.tStart).toNat < 500) := by decide

theorem witness_CaseSelection :
    (alone.inFrame .payload 0 [] 0 0).asm.cnt.toNat ≤ (alone.inFrame .payload 0 [] 0 0).asm.len.toNat ∧
    (alone.inFrame .payload 255 [1] 0 0).asm.cnt.toNat ≤ (alone.inFrame .payload 255 [1] 0 0).asm.len.toNat := by decide

theorem witness_RxbyteRunsSelectedCase :
    (alone.showing []).selectRxb 0x7E = .drop ∧ alone.selectRxb 0x7E ≠ .drop ∧
    ((xfa.inFrame .payload 0 [] 0 0).selectRxb 0xFF = .csumOk ∧ xfa.par.rtrAttached = true) := by decide

theorem witness_SkipChangesNothingButTime : alone.asm.st = .awaitDelimiter ∧ (0x7F : Byte) ≠ 0x7E := by decide

theorem witness_DelimiterAndHighLengthAdvance :
    alone.asm.st = .awaitDelimiter ∧ (alone.inFrame .lengthHigh 0 [] 0 0).asm.st = .lengthHigh := by decide

theorem witness_LateDelimiterRestarts : ∀ st ∈ [AsmSt.lengthHigh, .lengthLow, .payload],
    let s := alone.inFrame st 0 [] 0 1001
    (s.asm.st = .lengthHigh ∨ s.asm.st = .lengthLow ∨ s.asm.st = .payload) ∧ 1000 < (s.now - s.asm.tPrev).toNat := by decide

theorem witness_BadLengthResets :
    let s := alone.inFrame .lengthHigh 0 [] 0 1000
    s.asm.st = .lengthHigh ∧ (0x7E : Byte) ≠ 0x00 ∧ ¬((0x7E : Byte) = 0x7E ∧ 1000 < (s.now - s.asm.tPrev).toNat) := by decide

theorem witness_LowLengthOpensPayload :
    let s := alone.inFrame .lengthLow 0 [] 0 1000
    s.asm.st = .lengthLow ∧ ¬((0x7E : Byte) = 0x7E ∧ 1000 < (s.now - s.asm.tPrev).toNat) := by decide

theorem witness_DataByteStored :
    let s := alone.inFrame .payload 1 [] 0 1000
    s.asm.st = .payload ∧ s.asm.cnt.toNat < s.asm.len.toNat ∧
      ¬((0x7E : Byte) = 0x7E ∧ 1000 < (s.now - s.asm.tPrev).toNat) := by decide

theorem witness_ValidChecksumCompletes :
    let s := alone.inFrame .payload 1 [0x81] 0 1000
    s.asm.st = .payload ∧ s.asm.cnt = s.asm.len ∧ ¬(s.asm.csum = 0x7E ∧ 1000 < (s.now - s.asm.tPrev).toNat) ∧
      s.par.rtrAttached = false ∧ s.asm.csum = 0x7E := by decide

theorem witness_InvalidChecksumDiscards :
    let s := alone.inFrame .payload 0 [] 0 1000
    s.asm.st = .payload ∧ s.asm.cnt = s.asm.len ∧ (0x7E : Byte) ≠ s.asm.csum ∧
      ¬((0x7E : Byte) = 0x7E ∧ 1000 < (s.now - s.asm.tPrev).toNat) := by decide

theorem witness_CompleteDropsEveryByte : (alone.showing [1]).asm.st = .complete := by decide

theorem witness_UnselectedRowsRefused :
    (alone.selectRxb 0x7E ≠ .skip ∧ ((0x7E : Byte) = 0x7E ∨ (RxbRow.skip ≠ .start ∧ RxbRow.skip ≠ .resync)) ∧
      ((0x7E : Byte) = 0x00 ∨ RxbRow.skip ≠ .lenhiOk)) ∧ alone.asm.st ≠ .complete := by decide

theorem witness_RouteAndClearRoutesThenClears :
    (xfa.showing [0x8A]).exposed = some ⟨[0x8A], 0x75⟩ ∧ (xfa.showing [0x8A]).par.rtrAttached = true := by decide

theorem witness_NeverCompleteBetweenOperations :
    let s := xfa.inFrame .payload 0 [] 0 0
    (Instr.rxbyte 0xFF).isOperation = true ∧ s.par.rtrAttached = true ∧ s.asm.st ≠ .complete ∧
      ∃ t, exec (.rxbyte 0xFF) s = .next t :=
  ⟨rfl, rfl, by decide, _, rfl⟩

theorem witness_OnlyListedTransitions :
    (∃ t, exec (.rxbyte 0x7E) alone = .next t) ∧ (∃ t, exec .nop alone = .next t) ∧ Instr.nop.isOperation = true ∧
      Instr.nop ≠ .asmReset ∧ Instr.nop ≠ .reset ∧ (∀ b, Instr.nop ≠ .rxbyte b) ∧ ∀ r, Instr.nop ≠ .frame r :=
  ⟨⟨_, rfl⟩, ⟨_, rfl⟩, rfl, by decide, by decide, fun _ => Instr.noConfusion, fun _ => Instr.noConfusion⟩

theorem witness_AcceptanceLaw :
    let bytes := [((0x7E : Byte), (0 : Time)), (0x00, 1000), (0x01, 2000), (0x7E, 3000), (0x81, 4000)]
    let slow := [((0x7E : Byte), (0 : Time)), (0x00, 5000), (0x00, 9000), (0xFE, 20000)]
    alone.asm.st = .awaitDelimiter ∧ alone.par.rtrAttached = false ∧
      (bytes.map Prod.fst = [0x7E, 0x00, BitVec.ofNat 8 [(0x7E : Byte)].length] ++ [0x7E] ++ [cks [0x7E]] ∧ timely bytes) ∧
      (slow.map Prod.fst = [0x7E, 0x00, BitVec.ofNat 8 ([] : List Byte).length] ++ [] ++ [0xFE] ∧
        (0x7E : Byte) ∉ [BitVec.ofNat 8 ([] : List Byte).length] ++ [] ++ [0xFE] ∧ (0xFE : Byte) ≠ cks []) := by
  refine ⟨rfl, rfl, ⟨by decide, ?_⟩, by decide⟩
  simp only [timely, List.isChain_cons_cons, List.isChain_singleton]; decide

theorem witness_ReceivedFrameIsRouted : xfa.asm.st = .awaitDelimiter ∧ xfa.par.rtrAttached = true ∧
    ∀ r : List Byte, r.length = 255 → r.length ≤ 255 := ⟨rfl, rfl, fun _ h => h.le⟩

theorem witness_SerializeAppendsOneFrame : (List.replicate 255 (0xFF : Byte)).length ≤ 255 := by rw [List.length_replicate]

theorem witness_AllocIdReturnsAndAdvances :
    inBand xfa.par xfa.dsp.nextId.toNat ∧ inBand xfa.par (9 : Byte).toNat := by decide

theorem witness_AllocationCyclesThroughBand :
    (xfa.dsp.nextId = xfa.par.idBand.lo ∧ 0 < 1 ∧ 9 < 10) ∧
    (State.resetOf ⟨Codes.default, .fromTwo, true⟩).dsp.nextId = IdBand.fromTwo.lo := by decide

theorem witness_SendFfSendsWithIdZero :
    (List.replicate 252 (0 : Byte)).length ≤ 252 ∧ 252 < (List.replicate 253 (0 : Byte)).length := by
  simp only [List.length_replicate]; decide

theorem witness_SendAsyncStoresAndSends :
    252 < (List.replicate 253 (0 : Byte)).length ∧
    (List.replicate 252 (0 : Byte)).length ≤ 252 ∧ inBand xfa.par xfa.dsp.nextId.toNat :=
  ⟨by rw [List.length_replicate]; decide, by rw [List.length_replicate], by decide⟩

theorem witness_CommandSendersAreAsync : (List.replicate 252 (0 : Byte)).length ≤ 252 := by rw [List.length_replicate]

theorem witness_SendSyncArmsWaiter :
    (List.replicate 252 (0 : Byte)).length ≤ 252 ∧ inBand xfa.par xfa.dsp.nextId.toNat ∧
      xfa.dsp.w[(0 : Byte).toNat]? = some ⟨false, 0, 0⟩ ∧ (⟨false, 0, 0⟩ : Waiter).waiting = false :=
  ⟨by rw [List.length_replicate], by decide, by decide, rfl⟩

theorem witness_RefusedSendsChangeNothing :
    252 < (List.replicate 253 (0 : Byte)).length ∧ xfa.dsp.w.length ≤ (1 : Byte).toNat ∧
      ∃ x, (xfa.armed 0).dsp.w[(0 : Byte).toNat]? = some x ∧ x.waiting = true :=
  ⟨by rw [List.length_replicate]; decide, by decide, ⟨true, 1, 0⟩, by decide, rfl⟩

theorem witness_SyncExpireReleasesWaiter :
    ((xfa.armed 500).dsp.w[(0 : Byte).toNat]? = some ⟨true, 1, 0⟩ ∧ 500 ≤ ((xfa.armed 500).now - 0).toNat) ∧
    ((xfa.armed 499).dsp.w[(0 : Byte).toNat]? = some ⟨true, 1, 0⟩ ∧ ((xfa.armed 499).now - 0).toNat < 500) ∧
    xfa.dsp.w[(1 : Byte).toNat]? = none := by decide

theorem witness_WaiterReleasedOnce :
    (∃ t, exec (.syncExpire 0) (xfa.armed 500) = .next t ∧ Event.syncNoframe 0 ∈ t.out.events) ∧
    ∃ t f, exec .rtAtResp (((xfa.slot1 (.sync 0)).armed 120).showing [0x88, 1]) = .next t ∧ Event.syncDone 0 f ∈ t.out.events :=
  ⟨⟨_, rfl, by decide⟩, _, ⟨[0x88, 1], 0x76⟩, rfl, by decide⟩

theorem witness_WaitersArmedAndReleasedOnlyByRule :
    (∃ t x y, exec (.sendSync 8 [] 0) xfa = .next t ∧ xfa.dsp.w[0]? = some x ∧ t.dsp.w[0]? = some y ∧ x.waiting = false ∧
      y.waiting = true) ∧
    ∃ t x y, exec (.syncExpire 0) (xfa.armed 500) = .next t ∧ (xfa.armed 500).dsp.w[0]? = some x ∧ t.dsp.w[0]? = some y ∧
      x.waiting = true ∧ y.waiting = false :=
  ⟨⟨_, ⟨false, 0, 0⟩, ⟨true, 1, 0⟩, rfl, rfl, rfl, rfl, rfl⟩, _, ⟨true, 1, 0⟩, ⟨false, 1, 0⟩, rfl, rfl, rfl, rfl, rfl⟩

/-- An execution: waiter 0 is 500 ticks old at its first instant and expires there; nothing is asked for. -/
def expiryRun : Run where
  state
    | 0 => xfa.armed 500
    | 1 => (((xfa.armed 500).quiet.release 0 ⟨true, 1, 0⟩).emit (.syncNoframe 0)).note .sendTimeout
    | _ => ((xfa.armed 500).quiet.release 0 ⟨true, 1, 0⟩)
  clock _ := 500
  asked _ := []
  done
    | 0 => some (.syncExpire 0)
    | _ => none

theorem expiryRun_legal : expiryRun.Legal where
  asked _ _ h := nomatch h
  idle
    | 0, h => nomatch h
    | 1, _ => rfl
    | _ + 2, _ => rfl
  performs
    | 0, _, rfl => ⟨⟨⟨true, 1, 0⟩, rfl, rfl, by decide⟩, rfl⟩
    | _ + 1, _, h => nomatch h

/-- After the expiry nothing is open, so nothing stays open. -/
theorem expiryRun_fair : expiryRun.WeaklyFair := by
  intro n i h
  have h1 := h (n + 1) (by omega)
  have hw : (expiryRun.state (n + 1)).dsp.w = [⟨false, 1, 0⟩] := by cases n <;> rfl
  cases i with
  | syncExpire k =>
    obtain ⟨x, hx, hx1, -⟩ := h1
    rw [hw, List.getElem?_singleton] at hx
    split_ifs at hx
    cases hx
    cases hx1
  | _ => cases h1

theorem witness_FairRunReleasesWaiter :
    expiryRun.Legal ∧ expiryRun.WeaklyFair ∧ (expiryRun.state 0).dsp.w[(0 : Byte).toNat]? = some ⟨true, 1, 0⟩ ∧
      (∀ m, 0 ≤ m → expiryRun.done m ≠ some .reset) ∧ ∀ m, 500 ≤ (expiryRun.clock m - 0).toNat :=
  ⟨expiryRun_legal, expiryRun_fair, rfl, fun m _ => by cases m <;> exact fun h => (nomatch h), fun _ =>
    (by decide : 500 ≤ ((500 : Time) - 0).toNat)⟩

theorem witness_TableWrittenOnlyByRule :
    (∃ t, exec (.sendAsync 8 [] none) xfa = .next t ∧ t.dsp.tbl[1] ≠ xfa.dsp.tbl[1]) ∧
    (∃ t, exec .rtAtResp ((xfa.slot1 .none).showing [0x88, 1]) = .next t ∧
      t.dsp.tbl[1] ≠ ((xfa.slot1 .none).showing [0x88, 1]).dsp.tbl[1]) ∧
    ∃ t, exec .reset (xfa.slot1 .none) = .next t ∧ t.dsp.tbl[1] ≠ (xfa.slot1 .none).dsp.tbl[1] :=
  ⟨⟨_, rfl, by decide⟩, ⟨_, rfl, by decide⟩, _, rfl, by decide⟩

theorem witness_UncorrelatedResponseDropped : ∀ ty ∈ [((0x88 : Byte), RtClass.atResp), (0x97, .remoteAtResp)],
    (xfa.showing [ty.1]).exposed = some ⟨[ty.1], cks [ty.1]⟩ ∧ rtClass Codes.default [ty.1] = ty.2 ∧
    rtClass Codes.default [ty.1, 10] = ty.2 ∧ ([ty.1] : List Byte).length < 2 ∧ 10 ≤ (10 : Byte).toNat ∧
    ∃ x, xfa.dsp.tbl[(9 : Byte).toNat]? = some x ∧ x.occupied = false := by
  intro ty h
  simp only [List.mem_cons, List.not_mem_nil, or_false] at h
  rcases h with rfl | rfl <;> exact ⟨by decide, by decide, by decide, by decide, by decide, .empty, by decide, rfl⟩

theorem witness_CorrelatedResponseDelivered :
    ∀ cb ∈ [Cb.none, .tag 5, .sync 0], ∀ r ∈ [[(0x88 : Byte), 1], [0x88, 1, 0x4E], [0x88, 1, 0x4E, 0x44], [0x97, 1, 0x4E, 0x4A]],
      let s := ((xfa.slot1 cb).armed 0).showing r
      s.exposed = some ⟨r, cks r⟩ ∧ s.par.rtrAttached = true ∧ r[1]? = some 1 ∧
        s.dsp.tbl[(1 : Byte).toNat]? = some ⟨true, cb⟩ ∧ s.dsp.w[(0 : Byte).toNat]? = some ⟨true, 1, 0⟩ ∧
        (rtClass s.par.codes r = .atResp ∨ rtClass s.par.codes r = .remoteAtResp) := by decide

/-- The stale waiters of the same statement: one that does not wait, and one that waits for another ID. -/
theorem witness_CorrelatedResponseDelivered_stale :
    ∀ s ∈ [xfa.slot1 (.sync 0), (xfa.slot1 (.sync 0)).setWaiter 0 ⟨true, 2, 0⟩],
      (s.showing [0x88, 1]).exposed = some ⟨[0x88, 1], 0x76⟩ ∧ (s.showing [0x88, 1]).par.rtrAttached = true ∧
        rtClass Codes.default [0x88, 1] = .atResp ∧
        (s.showing [0x88, 1]).dsp.tbl[(1 : Byte).toNat]? = some ⟨true, .sync 0⟩ ∧
        ∀ x, (s.showing [0x88, 1]).dsp.w[(0 : Byte).toNat]? = some x → ¬(x.waiting = true ∧ x.id = 1) := by
  intro s hs
  simp only [List.mem_cons, List.not_mem_nil, or_false] at hs
  rcases hs with rfl | rfl <;> refine ⟨by decide, rfl, by decide, rfl, fun x h => ?_⟩ <;> cases h <;> decide

theorem witness_IoSamplePublished : ∀ n ∈ [15, 16, 17, 18],
    let r := (0x92 : Byte) :: List.replicate 12 0 ++ ([0, 0, 1, 2, 3].take (n - 13))
    r.length = n ∧ (xfa.showing r).exposed = some ⟨r, cks r⟩ ∧ rtClass xfa.par.codes r = .ioSample := by decide

theorem witness_ZigbeeDataPublished : ∀ n ∈ [11, 12],
    let r := (0x90 : Byte) :: List.replicate (n - 1) 0
    r.length = n ∧ (xfa.showing r).exposed = some ⟨r, cks r⟩ ∧ rtClass xfa.par.codes r = .zbRx := by decide

theorem witness_UnknownTypeIgnored :
    (xfa.showing []).exposed = some ⟨[], 0xFF⟩ ∧ (xfa.showing [0x8A]).exposed = some ⟨[0x8A], 0x75⟩ ∧
    (0x8A ≠ xfa.par.codes.tIoSample ∧ 0x8A ≠ xfa.par.codes.tAtResp ∧ 0x8A ≠ xfa.par.codes.tRemoteAtResp ∧
      0x8A ≠ xfa.par.codes.tZbRx) := by decide

theorem witness_SubscriptionsOnlyClearedByReset :
    (∃ t, exec (.subscribe 1) xfa = .next t ∧ t.sub ≠ xfa.sub) ∧
    ∃ t, exec .reset xfa.subscribed = .next t ∧ t.sub ≠ xfa.subscribed.sub :=
  ⟨⟨_, rfl, by decide⟩, _, rfl, by decide⟩

theorem witness_EventDiscipline : (∃ t, exec (.rxbyte 0x7E) xfa = .next t) ∧ ∀ r, Instr.rxbyte 0x7E ≠ .frame r :=
  ⟨⟨_, rfl⟩, fun _ h => by cases h⟩

/-- A state in the middle of a frame, and one at its end, meet the invariant of ASM. -/
theorem witness_AsmInv :
    AsmInv (alone.inFrame .payload 2 [0x08] 0 0) ∧ AsmInv (alone.inFrame .complete 2 [0x08, 0x01] 0 0) := by
  constructor <;> exact ⟨by decide, by decide, by decide, by decide, by decide, by decide⟩

theorem witness_StepKeepsInvariant :
    Inv (alone.inFrame .payload 2 [0x08] 0 0) ∧ ∃ t, step (alone.inFrame .payload 2 [0x08] 0 0) = .next t :=
  ⟨⟨witness_AsmInv.1, ⟨by decide, by decide, by decide, by decide, by decide⟩⟩, _, rfl⟩

theorem witness_ParametersNeverWritten : ∃ t, exec .reset xfa = .next t := ⟨_, rfl⟩

theorem witness_TxGrowsByWholeFrames :
    (Instr.serialize []).wf = true ∧ (∃ t, exec (.serialize []) xfa = .next t) ∧ ∃ t, exec (.sendFf 8 []) xfa = .next t :=
  ⟨rfl, ⟨_, rfl⟩, _, rfl⟩

theorem witness_IdleTimeNotRead :
    alone.asm.st = .awaitDelimiter ∧ (alone.showing []).asm.st = .complete ∧ ∃ t, exec (.rxbyte 0) (alone.showing []) = .next t :=
  ⟨rfl, rfl, _, rfl⟩

theorem witness_UnwrittenBytesNotRead :
    let s := alone.inFrame .payload 2 [0x08] 0 0
    AsmInv s ∧ (∀ i, i < s.asm.cnt.toNat → Memory.read [(0, 0x08), (1, 0x55)] i = s.asm.buf.read i) ∧
      (∃ t, exec (.rxbyte 0x01) s = .next t) ∧
      ∃ u, exec (.rxbyte 0x01) { s with asm := { s.asm with buf := [(0, 0x08), (1, 0x55)] } } = .next u :=
  ⟨witness_AsmInv.1, by decide, ⟨_, rfl⟩, _, rfl⟩

theorem witness_BytesAppendedTable :
    alone.asm.st = .awaitDelimiter ∧
    (alone.inFrame .lengthHigh 0 [] 0 0).bytesAppended = 1 ∧ (alone.inFrame .lengthLow 0 [] 0 0).bytesAppended = 2 ∧
    ({ alone with asm := { alone.asm with st := .payload, len := 255, cnt := 255 } } : State).bytesAppended = 258 ∧
    ({ alone with asm := { alone.asm with st := .complete, len := 255, cnt := 255 } } : State).bytesAppended = 259 := by decide

theorem witness_FrameView :
    AsmInv (alone.inFrame .complete 2 [0x08, 0x01] 0 0) ∧ (alone.inFrame .complete 2 [0x08, 0x01] 0 0).asm.st = .complete ∧
    AsmInv (alone.inFrame .payload 2 [0x08] 0 0) ∧ (alone.inFrame .payload 2 [0x08] 0 0).asm.st ≠ .complete :=
  ⟨witness_AsmInv.2, rfl, witness_AsmInv.1, by decide⟩

end Sys2Proof.Machine
end

section
/-! The frame of every instruction: the parameters, the time input, the queue of requests and the number of waiters. -/

namespace Sys2Proof.Machine

/-- What no instruction writes: the parameters (R9), the time input and the queue of requests (R20), the number of
waiters (R33; log 16). -/
structure ExecFrame (s t : State) : Prop where
  par : t.par = s.par
  now : t.now = s.now
  inputs : t.inputs = s.inputs
  waiters : t.dsp.w.length = s.dsp.w.length

theorem ExecFrame.refl (s : State) : ExecFrame s s := ⟨rfl, rfl, rfl, rfl⟩

theorem ExecFrame.trans {s t u : State} (h : ExecFrame s t) (k : ExecFrame t u) : ExecFrame s u :=
  ⟨k.par.trans h.par, k.now.trans h.now, k.inputs.trans h.inputs, k.waiters.trans h.waiters⟩

theorem RouterFrame.execFrame {s t : State} (h : RouterFrame s t) : ExecFrame s t :=
  ⟨h.par, h.now, h.inputs, h.waiters⟩

theorem RowFrame.execFrame {s t : State} (h : RowFrame s t) : ExecFrame s t :=
  ⟨h.par, h.now, h.inputs, by rw [h.dsp]⟩

/-! ### The shared operations -/

theorem State.quiet_execFrame (s : State) : ExecFrame s s.quiet := ⟨rfl, rfl, rfl, rfl⟩

theorem State.clear_execFrame (s : State) : ExecFrame s s.clear := ⟨rfl, rfl, rfl, rfl⟩

theorem State.setWaiter_execFrame (s : State) (k : Byte) (x : Waiter) : ExecFrame s (s.setWaiter k x) :=
  ⟨rfl, rfl, rfl, by simp⟩

/-- Allocation, the slot and the frame on TX touch neither the waiters nor the inputs (R171, R173, R175). -/
theorem State.sendWith_execFrame (s : State) (ty : Byte) (body : List Byte) (cb : Cb) :
    ExecFrame s (s.sendWith ty body cb) := ⟨rfl, rfl, rfl, rfl⟩

theorem State.sendAsync_execFrame (s : State) (ty : Byte) (body : List Byte) (cb : Option Byte) :
    ExecFrame s (s.sendAsync ty body cb) := by
  unfold State.sendAsync
  split_ifs
  · exact ⟨rfl, rfl, rfl, rfl⟩
  · exact s.sendWith_execFrame ty body (cbOf cb)

theorem State.routeAndClear_execFrame (s : State) : ExecFrame s s.routeAndClear :=
  (s.route_routerFrame s.frame).execFrame.trans (State.clear_execFrame _)

/-- An RXBYTE changes DSP only by routing a completed frame, which keeps the number of waiters. -/
theorem State.receive_execFrame (s : State) (b : Byte) : ExecFrame s (s.receive b) := by
  obtain ⟨-, hpar, hnow, hinputs, -⟩ := s.receive_keeps b
  refine ⟨hpar, hnow, hinputs, ?_⟩
  obtain ⟨u, hu, ⟨h, -⟩ | ⟨h, -⟩⟩ := s.receive_outer b
  · rw [h, hu.dsp]
  · rw [h, (u.route_routerFrame u.frame).waiters, hu.dsp]

theorem State.receiveAll_execFrame (l : List Byte) (s : State) : ExecFrame s (l.foldl State.receive s) := by
  induction l generalizing s with
  | nil => exact .refl s
  | cons b l ih => exact (s.receive_execFrame b).trans (ih _)

/-- A router case performed alone writes no more than the case it performs. -/
theorem routeCase_execFrame {s t : State} {cls : RtClass} {act : State → Frame → State}
    (hact : ∀ u f, RouterFrame u (act u f)) (h : s.routeCase cls act = .next t) : ExecFrame s t := by
  obtain ⟨f, -, -, -, rfl⟩ := State.routeCase_eq_next.1 h
  exact s.quiet_execFrame.trans (hact s.quiet f).execFrame

/-- A case of RXBYTE performed alone writes no more than its row. -/
theorem rowCase_execFrame {s t : State} {row : RxbRow} {b : Byte}
    (h : s.rowCase row b (s.quiet.rxRow b row) = .next t) : ExecFrame s t := by
  obtain ⟨-, rfl⟩ := State.rowCase_eq_next.1 h
  exact s.quiet_execFrame.trans (s.quiet.rxRow_rowFrame b row).execFrame

/-! ### Every instruction -/

/-- No instruction writes the parameters, the time input or the queue, nor adds or removes a waiter. -/
theorem exec_execFrame {i : Instr} {s t : State} (h : exec i s = .next t) : ExecFrame s t := by
  have send : ∀ ty body cb, ExecFrame s (s.quiet.sendAsync ty body cb) := fun ty body cb =>
    s.quiet_execFrame.trans (s.quiet.sendAsync_execFrame ty body cb)
  cases i with
  | sendFf ty body =>
    simp only [exec, execSendFf] at h
    split_ifs at h <;> (cases h; exact ⟨rfl, rfl, rfl, rfl⟩)
  | sendAsync ty body cb => cases h; exact send ..
  | sendAt body cb => cases h; exact send ..
  | sendRemoteAt body cb => cases h; exact send ..
  | sendData body cb => cases h; exact send ..
  | sendSync ty body k =>
    simp only [exec, execSendSync] at h
    split_ifs at h <;> cases h
    · exact ⟨rfl, rfl, rfl, rfl⟩
    · exact (s.quiet_execFrame.trans (s.quiet.sendWith_execFrame ty body _)).trans (State.setWaiter_execFrame _ k _)
  | syncExpire k =>
    simp only [exec, execSyncExpire] at h
    split at h
    · split_ifs at h
      cases h
      exact ⟨rfl, rfl, rfl, by simp⟩
    · cases h
  | subscribe sel =>
    simp only [exec, execSubscribe] at h
    split at h <;> (cases h; exact ⟨rfl, rfl, rfl, rfl⟩)
  | reset => cases h; exact ⟨rfl, rfl, rfl, by simp⟩
  | rxbyte b => cases h; exact s.quiet_execFrame.trans (s.quiet.receive_execFrame b)
  | frame r => cases h; exact s.quiet_execFrame.trans (s.quiet.receiveAll_execFrame (serialize r))
  | routeAndClear =>
    simp only [exec, execRouteAndClear] at h
    split_ifs at h
    cases h
    exact s.quiet_execFrame.trans s.quiet.routeAndClear_execFrame
  | rtIoSample => exact routeCase_execFrame State.ioSample_routerFrame h
  | rtAtResp => exact routeCase_execFrame State.respond_routerFrame h
  | rtRemoteAtResp => exact routeCase_execFrame State.respond_routerFrame h
  | rtZbRx => exact routeCase_execFrame State.zbRx_routerFrame h
  | rtUnknown => exact routeCase_execFrame (fun u _ => u.note_routerFrame .unknownType) h
  | rxbDrop b => exact rowCase_execFrame (row := .drop) h
  | rxbResync => exact rowCase_execFrame (row := .resync) h
  | rxbStart => exact rowCase_execFrame (row := .start) h
  | rxbSkip b => exact rowCase_execFrame (row := .skip) h
  | rxbLenhiOk => exact rowCase_execFrame (row := .lenhiOk) h
  | rxbLenhiBad b => exact rowCase_execFrame (row := .lenhiBad) h
  | rxbLenlo b => exact rowCase_execFrame (row := .lenlo) h
  | rxbData b => exact rowCase_execFrame (row := .data) h
  | rxbCsumOk b => exact rowCase_execFrame (row := .csumOk) h
  | rxbCsumBad b => exact rowCase_execFrame (row := .csumBad) h
  | nop | asmReset | allocId | serialize | reservedB | reservedC | reservedD | reservedE | reservedF =>
    cases h; exact ⟨rfl, rfl, rfl, rfl⟩

/-- Settles O55, by cases on the instruction (`exec_execFrame`). -/
theorem parametersNeverWritten : Obligations.ParametersNeverWritten := by
  intro i s t h
  obtain ⟨hpar, hnow, hinputs, hwaiters⟩ := exec_execFrame h
  exact ⟨⟨hpar, hnow, hinputs⟩, hwaiters⟩

end Sys2Proof.Machine
end

section
/-! Everything an instruction can do, said once: the cases that the invariants, the table and the enable bits are proved from. -/

namespace Sys2Proof.Machine

/-- What an instruction that goes on does to the state, in the terms of the shared operations. -/
inductive ExecEffect (i : Instr) (s : State) : State → Prop where
  /-- Outputs only: NOP, the reserved codes, SERIALIZE, SEND_FF, every refusal (R111, R160, R174, R176). -/
  | output (o : Out) : ExecEffect i s { s with out := o }
  /-- ASM_RESET (R142). -/
  | asmReset (hi : i = .asmReset) : ExecEffect i s (s.quiet.clear.answer true none)
  /-- ALLOC_ID (R172). -/
  | allocId (hi : i = .allocId) : ExecEffect i s (s.quiet.alloc.2.answer true (some s.dsp.nextId))
  /-- An accepted asynchronous send (R175, R180 to R182). -/
  | send (hi : i.isCorrelated = true) (ty : Byte) (body : List Byte) (cb : Option Byte) :
      ExecEffect i s (s.quiet.sendWith ty body (cbOf cb))
  /-- An accepted SEND_SYNC (R190). -/
  | sendSync (ty : Byte) (body : List Byte) (k : Byte) (hi : i = .sendSync ty body k) (hk : s.waiterFree k = true) :
      ExecEffect i s ((s.quiet.sendWith ty body (.sync k)).setWaiter k ⟨true, s.dsp.nextId, s.now⟩)
  /-- SYNC_EXPIRE of a waiter whose time is up (R192). -/
  | expire (k : Byte) (x : Waiter) (hi : i = .syncExpire k) (hx : s.dsp.w[k.toNat]? = some x)
      (he : s.expirable x = true) :
      ExecEffect i s (((s.quiet.release k x).emit (.syncNoframe k)).note .sendTimeout)
  /-- SUBSCRIBE, which clears no enable bit (R230). -/
  | subscribe (sel : BitVec 2) (sub : Sub) (o : Out) (hi : i = .subscribe sel)
      (hsub : (s.sub.dioEn = true → sub.dioEn = true) ∧ (s.sub.aioEn = true → sub.aioEn = true) ∧
        (s.sub.rxdEn = true → sub.rxdEn = true)) :
      ExecEffect i s { s with sub := sub, out := o }
  /-- RXBYTE, or the RXBYTEs of a FRAME (R130, R144). -/
  | receive (hi : i.mayRoute = true) (l : List Byte) : ExecEffect i s (l.foldl State.receive s.quiet)
  /-- A selected case of RXBYTE performed alone (log 6). -/
  | row (b : Byte) (row : RxbRow) (h : s.selectRxb b = row) : ExecEffect i s (s.quiet.rxRow b row)
  /-- A router case performed alone (log 6). -/
  | route (hi : i.mayRoute = true) (f : Frame) : ExecEffect i s (s.quiet.route f)
  /-- ROUTE_AND_CLEAR (R141). -/
  | routeAndClear (hi : i.mayRoute = true) : ExecEffect i s s.quiet.routeAndClear
  /-- RESET (R270). -/
  | reset {t : State} (hi : i = .reset) (h : execReset s = .next t) : ExecEffect i s t

theorem State.sendAsync_effect {i : Instr} (hi : i.isCorrelated = true) (s : State) (ty : Byte) (body : List Byte)
    (cb : Option Byte) : ExecEffect i s (s.quiet.sendAsync ty body cb) := by
  unfold State.sendAsync
  split_ifs
  · exact .output _
  · exact .send hi ty body cb

theorem rowCase_effect {i : Instr} {s t : State} {row : RxbRow} {b : Byte}
    (h : s.rowCase row b (s.quiet.rxRow b row) = .next t) : ExecEffect i s t := by
  obtain ⟨hsel, rfl⟩ := State.rowCase_eq_next.1 h
  exact .row b row hsel

/-- The case of ROUTE that a class names (R210). -/
def routeAct : RtClass → State → Frame → State
  | .ioSample => State.ioSample
  | .atResp => State.respond
  | .remoteAtResp => State.respond
  | .zbRx => State.zbRx
  | .unknown => fun s _ => s.unknownType

/-- Routing performs the case of the frame's class. -/
theorem State.route_eq_routeAct (s : State) (f : Frame) : s.route f = routeAct (rtClass s.par.codes f.region) s f := by
  unfold State.route
  split <;> rename_i h <;> rw [h] <;> rfl

theorem routeCase_effect {i : Instr} {s t : State} {cls : RtClass} (hi : i.mayRoute = true)
    (h : s.routeCase cls (routeAct cls) = .next t) : ExecEffect i s t := by
  obtain ⟨f, -, -, hc, rfl⟩ := State.routeCase_eq_next.1 h
  subst hc
  exact s.quiet.route_eq_routeAct f ▸ .route hi f

/-- Every instruction that goes on has one of the effects. -/
theorem exec_effect {i : Instr} {s t : State} (h : exec i s = .next t) : ExecEffect i s t := by
  cases i with
  | nop | serialize | reservedB | reservedC | reservedD | reservedE | reservedF => cases h; exact .output _
  | sendFf ty body => simp only [exec, execSendFf] at h; split_ifs at h <;> (cases h; exact .output _)
  | asmReset => cases h; exact .asmReset rfl
  | allocId => cases h; exact .allocId rfl
  | sendAsync ty body cb => cases h; exact s.sendAsync_effect rfl ty body cb
  | sendAt body cb => cases h; exact s.sendAsync_effect rfl _ body cb
  | sendRemoteAt body cb => cases h; exact s.sendAsync_effect rfl _ body cb
  | sendData body cb => cases h; exact s.sendAsync_effect rfl _ body cb
  | sendSync ty body k =>
    simp only [exec, execSendSync] at h
    split_ifs at h with hc <;> cases h
    · exact .output _
    · simp only [Bool.or_eq_true, not_or, Bool.not_eq_true', Bool.not_eq_false] at hc
      exact .sendSync ty body k rfl hc.2
  | syncExpire k =>
    simp only [exec, execSyncExpire] at h
    split at h
    · rename_i x hx
      split_ifs at h with he
      cases h
      exact .expire k x rfl hx he
    · cases h
  | subscribe sel =>
    simp only [exec, execSubscribe] at h
    split at h <;> cases h
    · exact .subscribe sel _ _ rfl ⟨fun _ => rfl, id, id⟩
    · exact .subscribe sel _ _ rfl ⟨id, fun _ => rfl, id⟩
    · exact .subscribe sel _ _ rfl ⟨id, id, fun _ => rfl⟩
    · exact .output _
  | reset => exact .reset rfl h
  | rxbyte b => cases h; exact .receive rfl [b]
  | frame r => cases h; exact .receive rfl (serialize r)
  | routeAndClear =>
    simp only [exec, execRouteAndClear] at h
    split_ifs at h
    cases h
    exact .routeAndClear rfl
  | rtIoSample => exact routeCase_effect (cls := .ioSample) rfl h
  | rtAtResp => exact routeCase_effect (cls := .atResp) rfl h
  | rtRemoteAtResp => exact routeCase_effect (cls := .remoteAtResp) rfl h
  | rtZbRx => exact routeCase_effect (cls := .zbRx) rfl h
  | rtUnknown => exact routeCase_effect (cls := .unknown) rfl h
  | rxbDrop b => exact rowCase_effect (row := .drop) h
  | rxbResync => exact rowCase_effect (row := .resync) h
  | rxbStart => exact rowCase_effect (row := .start) h
  | rxbSkip b => exact rowCase_effect (row := .skip) h
  | rxbLenhiOk => exact rowCase_effect (row := .lenhiOk) h
  | rxbLenhiBad b => exact rowCase_effect (row := .lenhiBad) h
  | rxbLenlo b => exact rowCase_effect (row := .lenlo) h
  | rxbData b => exact rowCase_effect (row := .data) h
  | rxbCsumOk b => exact rowCase_effect (row := .csumOk) h
  | rxbCsumBad b => exact rowCase_effect (row := .csumBad) h

end Sys2Proof.Machine
end

section
/-! The invariant of every step (R24, R30 to R33, R62): each shared operation keeps the invariant of ASM and that of DSP. -/

namespace Sys2Proof.Machine

/-! ### The invariant of ASM -/

/-- The invariant of ASM reads ASM only. -/
theorem AsmInv.of_asm_eq {s t : State} (hi : AsmInv s) (h : t.asm = s.asm) : AsmInv t :=
  hi.congr (by rw [h]) (by rw [h]) (by rw [h]) (by rw [h]) (by rw [h])

/-- Outside the region the registers are at rest, and that is all the invariant asks (R24 (a)). -/
theorem AsmInv.of_idle {s : State} (hst : s.asm.st = .awaitDelimiter ∨ s.asm.st = .lengthHigh ∨ s.asm.st = .lengthLow)
    (hreg : s.asm.len = 0 ∧ s.asm.cnt = 0 ∧ s.asm.csum = 0xFF) (hbuf : s.asm.buf.Wf) : AsmInv s := by
  have hno : ¬(s.asm.st = .payload ∨ s.asm.st = .complete) := by
    rcases hst with h | h | h <;> simp [h]
  exact ⟨fun _ => hreg, fun h => absurd h hno, fun h => absurd h hno, fun h => absurd (.inr h) hno,
    fun h => absurd h hno, hbuf⟩

theorem State.clear_asmInv (s : State) : AsmInv s.clear := .of_idle (.inl rfl) ⟨rfl, rfl, rfl⟩ Memory.wf_nil

/-- RXB.LENLO opens a region of which nothing is written yet (R136). -/
theorem AsmInv.rxLenlo {s : State} (hi : AsmInv s) (b : Byte) : AsmInv (s.rxLenlo b) where
  idle h := by simp [State.rxLenlo] at h
  inRegion _ := Nat.zero_le _
  checksum _ := rfl
  whole h := nomatch h
  written _ i h := absurd h (Nat.not_lt_zero i)
  bufWf := hi.bufWf

/-- The buffer after RXB.DATA (R137). -/
theorem State.rxData_bufByte (s : State) (b : Byte) (i : Nat) :
    (s.rxData b).bufByte i = if i = s.asm.cnt.toNat then b else s.bufByte i := by
  split_ifs with h
  · subst h; exact State.bufByte_of_read (Memory.read_write_same ..)
  · simp [State.bufByte, State.rxData, Memory.read_write_other _ b h]

/-- RXB.DATA lengthens the written region by its byte (R137). -/
theorem AsmInv.rxData {s : State} (hi : AsmInv s) (b : Byte) (hst : s.asm.st = .payload)
    (hlt : s.asm.cnt.toNat < s.asm.len.toNat) : AsmInv (s.rxData b) := by
  have hlen := s.asm.len.isLt
  have hcnt : (s.rxData b).asm.cnt.toNat = s.asm.cnt.toNat + 1 := by
    show (s.asm.cnt + 1).toNat = _
    bv_omega
  have hst' : (s.rxData b).asm.st = .payload := hst
  constructor
  · intro h; simp [hst'] at h
  · intro _; rw [hcnt]; exact hlt
  · intro _
    have hold : (s.rxData b).bufBytes s.asm.cnt.toNat = s.bufBytes s.asm.cnt.toNat :=
      State.bufBytes_congr fun i h => by rw [State.rxData_bufByte, if_neg h.ne]
    rw [hcnt, State.bufBytes_succ, hold, State.rxData_bufByte, if_pos rfl, cks_append_byte,
      ← hi.checksum (.inl hst)]
    rfl
  · intro h; simp [hst'] at h
  · intro _ i h
    rw [hcnt] at h
    by_cases hc : i = s.asm.cnt.toNat
    · subst hc; exact Option.isSome_of_eq_some (Memory.read_write_same ..)
    · exact (congrArg Option.isSome (Memory.read_write_other _ b hc)).trans (hi.written (.inl hst) i (by omega))
  · exact Memory.write_wf hi.bufWf (by simp; omega)

/-- RXB.CSUM_OK completes a region of which every byte is written (R138). -/
theorem AsmInv.rxCsumOk {s : State} (hi : AsmInv s) (hst : s.asm.st = .payload)
    (hfull : s.asm.len.toNat ≤ s.asm.cnt.toNat) : AsmInv s.rxCsumOk where
  idle h := by simp [State.rxCsumOk] at h
  inRegion _ := hi.inRegion (.inl hst)
  checksum _ := hi.checksum (.inl hst)
  whole _ := BitVec.eq_of_toNat_eq (le_antisymm (hi.inRegion (.inl hst)) hfull)
  written _ := hi.written (.inl hst)
  bufWf := hi.bufWf

/-- The selected case keeps the invariant of ASM (R98, R131 to R140). -/
theorem AsmInv.rxRow {s : State} (hi : AsmInv s) {b : Byte} {row : RxbRow} (h : s.selectRxb b = row) :
    AsmInv (s.rxRow b row) := by
  unfold State.selectRxb at h
  cases row with
  | drop => exact hi.of_asm_eq rfl
  | skip => exact hi
  | resync => exact .of_idle (.inr (.inl rfl)) ⟨rfl, rfl, rfl⟩ Memory.wf_nil
  | start => exact .of_idle (.inr (.inl rfl)) (hi.idle (.inl ((rxbRow_start ..).1 h).1)) hi.bufWf
  | lenhiOk => exact .of_idle (.inr (.inr rfl)) (hi.idle (.inr (.inl ((rxbRow_lenhiOk ..).1 h).1))) hi.bufWf
  | lenhiBad => exact s.clear_asmInv.of_asm_eq rfl
  | csumBad => exact s.clear_asmInv.of_asm_eq rfl
  | lenlo => exact hi.rxLenlo b
  | data =>
    obtain ⟨hst, -, hfull⟩ := (rxbRow_data ..).1 h
    exact hi.rxData b hst ((State.full_eq_false s).1 hfull)
  | csumOk =>
    obtain ⟨hst, -, hfull, -⟩ := (rxbRow_csumOk ..).1 h
    exact hi.rxCsumOk hst ((State.full_eq_true s).1 hfull)

/-- An RXBYTE keeps the invariant of ASM (R130). -/
theorem AsmInv.receive {s : State} (hi : AsmInv s) (b : Byte) : AsmInv (s.receive b) := by
  have hrow := hi.rxRow (b := b) rfl
  rcases s.receive_cases b with ⟨hd, h⟩ | ⟨-, u, rfl, ⟨-, -, h⟩ | ⟨-, h⟩⟩ <;> rw [h]
  · exact hi.of_asm_eq rfl
  · exact State.clear_asmInv _
  · exact hrow.congr rfl rfl rfl rfl rfl

/-! ### The invariant of DSP -/

/-- The allocator stays in the band (R171). -/
theorem nextInBand_inBand {p : Params} {id : Byte} (h : inBand p id.toNat) : inBand p (nextInBand p id).toNat := by
  unfold nextInBand
  split_ifs with h9
  · cases hp : p.idBand <;> simp [inBand, hp, IdBand.lo]
  · have hne : id.toNat ≠ 9 := fun e => h9 (BitVec.eq_of_toNat_eq e)
    obtain ⟨hlo, hhi⟩ := h
    have : (id + 1).toNat = id.toNat + 1 := by bv_omega
    constructor <;> omega

/-- A correlated send writes the slot of the counter's ID only, and occupies it (R173). -/
theorem State.sendWith_slot (s : State) (ty : Byte) (body : List Byte) (cb : Cb) (j : Nat) (h : j < 10) :
    (s.sendWith ty body cb).dsp.tbl[j] = if s.dsp.nextId.toNat = j then ⟨true, cb⟩ else s.dsp.tbl[j] :=
  Vector.getElem_setIfInBounds h

/-- A correlated send stores an occupied slot at the counter's ID and advances the counter (R173, R175). -/
theorem DspInv.sendWith {s : State} (hi : DspInv s) (ty : Byte) (body : List Byte) {cb : Cb}
    (hcb : ∀ k, cb = .sync k → k.toNat < s.dsp.w.length) : DspInv (s.sendWith ty body cb) := by
  constructor
  · exact nextInBand_inBand hi.counter
  · intro j h ho
    rw [State.sendWith_slot] at ho
    split_ifs at ho with hj
    · exact hj ▸ hi.counter
    · exact hi.occupied j h ho
  · intro j h ho
    rw [State.sendWith_slot] at ho ⊢
    split_ifs at ho ⊢
    exact hi.free j h ho
  · intro j h k hk
    rw [State.sendWith_slot] at hk
    split_ifs at hk
    · exact hcb k hk
    · exact hi.sync j h k hk
  · exact hi.waiters

/-- A written waiter that does not wait, or waits for an ID of the band (R33). -/
theorem DspInv.setWaiter {s : State} (hi : DspInv s) (k : Byte) {x : Waiter}
    (hx : x.waiting = true → inBand s.par x.id.toNat) : DspInv (s.setWaiter k x) where
  counter := hi.counter
  occupied := hi.occupied
  free := hi.free
  sync i h j hj := by simpa using hi.sync i h j hj
  waiters y hy hw := by
    rcases List.mem_or_eq_of_mem_set hy with hy | rfl
    · exact hi.waiters y hy hw
    · exact hx hw

/-- Routing empties slots and releases waiters, and both keep the invariant (R191, R214). -/
theorem DspInv.route {s : State} (hi : DspInv s) (f : Frame) : DspInv (s.route f) := by
  have hr := s.route_routerFrame f
  have hslot := s.route_slot f
  constructor
  · rw [hr.par, hr.nextId]; exact hi.counter
  · intro j h ho
    rw [hr.par]
    rcases hslot j h with e | e <;> rw [e] at ho
    · exact hi.occupied j h ho
    · cases ho
  · intro j h ho
    rcases hslot j h with e | e <;> rw [e] at ho ⊢
    exact hi.free j h ho
  · intro j h k hk
    rw [hr.waiters]
    rcases hslot j h with e | e <;> rw [e] at hk
    · exact hi.sync j h k hk
    · cases hk
  · intro y hy hw
    rw [hr.par]
    rcases s.route_waiters f with hk | ⟨k, x, -, -, e, -⟩
    · exact hi.waiters y (hk.waiters ▸ hy) hw
    · rw [e] at hy
      rcases List.mem_or_eq_of_mem_set hy with hy | rfl
      · exact hi.waiters y hy hw
      · cases hw

/-- An RXBYTE changes DSP only by routing. -/
theorem DspInv.receive {s : State} (hi : DspInv s) (b : Byte) : DspInv (s.receive b) := by
  obtain ⟨-, hpar, -⟩ := s.receive_keeps b
  obtain ⟨u, hu, ⟨h, -⟩ | ⟨h, -⟩⟩ := s.receive_outer b
  · exact hi.congr (h.trans hu.dsp) hpar
  · exact ((hi.congr hu.dsp hu.par).route u.frame).congr h
      (hpar.trans (hu.par.symm.trans (u.route_routerFrame u.frame).par.symm))

/-- DSP after reset, with any number of waiters that do not wait (R270). -/
theorem DspInv.of_reset {s : State} (hid : s.dsp.nextId = s.par.idBand.lo) (htbl : s.dsp.tbl = .replicate 10 .empty)
    (hw : ∀ x ∈ s.dsp.w, x.waiting = false) : DspInv s := by
  have hslot : ∀ j, ∀ h : j < 10, s.dsp.tbl[j] = ⟨false, .none⟩ := fun j h => by
    simp only [htbl, Vector.getElem_replicate]; rfl
  constructor
  · rw [hid]; cases hp : s.par.idBand <;> simp [inBand, hp, IdBand.lo]
  · intro j h ho; rw [hslot] at ho; cases ho
  · intro j h _; rw [hslot]
  · intro j h k hk; rw [hslot] at hk; cases hk
  · intro x hx hwait; rw [hw x hx] at hwait; cases hwait

/-! ### The whole invariant -/

theorem Inv.congr {s t : State} (hi : Inv s) (hasm : t.asm = s.asm) (hdsp : t.dsp = s.dsp) (hpar : t.par = s.par) :
    Inv t :=
  ⟨hi.asm.of_asm_eq hasm, hi.dsp.congr hdsp hpar⟩

theorem Inv.receiveAll {s : State} (hi : Inv s) (l : List Byte) : Inv (l.foldl State.receive s) := by
  induction l generalizing s with
  | nil => exact hi
  | cons b l ih => exact ih ⟨hi.asm.receive b, hi.dsp.receive b⟩

/-- A free waiter that is there has an index of the list of waiters. -/
theorem State.lt_of_waiterFree {s : State} {k : Byte} (h : s.waiterFree k = true) : k.toNat < s.dsp.w.length := by
  by_contra hk
  simp [State.waiterFree, List.getElem?_eq_none (not_lt.1 hk)] at h

/-- Every effect of an instruction keeps the invariant. -/
theorem ExecEffect.inv {i : Instr} {s t : State} (he : ExecEffect i s t) (hi : Inv s) : Inv t := by
  have hq : Inv s.quiet := hi.congr rfl rfl rfl
  cases he with
  | output o => exact hi.congr rfl rfl rfl
  | asmReset => exact ⟨s.clear_asmInv.of_asm_eq rfl, hi.dsp.congr rfl rfl⟩
  | allocId =>
    exact ⟨hi.asm.of_asm_eq rfl, nextInBand_inBand hi.dsp.counter, hi.dsp.occupied, hi.dsp.free, hi.dsp.sync,
      hi.dsp.waiters⟩
  | send _ ty body cb =>
    exact ⟨hi.asm.of_asm_eq rfl, hq.dsp.sendWith ty body fun k h => by cases cb <;> cases h⟩
  | sendSync ty body k _ hk =>
    have hlt := State.lt_of_waiterFree hk
    exact ⟨hi.asm.of_asm_eq rfl,
      (hq.dsp.sendWith ty body fun j h => by cases h; exact hlt).setWaiter k fun _ => hi.dsp.counter⟩
  | expire k x =>
    have hset := hi.dsp.setWaiter k (x := { x with waiting := false }) (fun h => nomatch h)
    exact ⟨hi.asm.of_asm_eq rfl, hset.congr rfl rfl⟩
  | subscribe => exact hi.congr rfl rfl rfl
  | receive _ l => exact hq.receiveAll l
  | row b row h =>
    exact ⟨hq.asm.rxRow h, hi.dsp.congr (s.quiet.rxRow_rowFrame b row).dsp (s.quiet.rxRow_rowFrame b row).par⟩
  | route _ f => exact ⟨hq.asm.of_asm_eq (s.quiet.route_routerFrame f).asm, hq.dsp.route f⟩
  | routeAndClear => exact ⟨State.clear_asmInv _, (hq.dsp.route s.quiet.frame).congr rfl rfl⟩
  | reset _ h =>
    cases h
    exact ⟨s.clear_asmInv.of_asm_eq rfl, .of_reset rfl rfl (by simp [resetWaiter])⟩

/-- Settles O53: a step ends the strobes or performs an instruction (`step_cases`), and every effect of an instruction
keeps the invariant (`ExecEffect.inv`). -/
theorem stepKeepsInvariant : Obligations.StepKeepsInvariant := by
  intro s t hi h
  rcases step_cases s with ⟨-, e⟩ | ⟨r, rest, -, ⟨i, -, e⟩ | ⟨-, e⟩⟩ <;> rw [e] at h
  · cases h; exact hi.congr rfl rfl rfl
  · exact (exec_effect h).inv (hi.congr rfl rfl rfl)
  · cases h; exact hi.congr rfl rfl rfl

/-- Settles O54: no frame is open and no waiter waits. -/
theorem resetMeetsInvariant : Obligations.ResetMeetsInvariant :=
  ⟨.of_idle (.inl rfl) ⟨rfl, rfl, rfl⟩ reset_buf_wf,
    .of_reset rfl rfl fun x hx => by rw [List.eq_of_mem_replicate hx]; rfl⟩

end Sys2Proof.Machine
end

section
/-! Who writes the table and the enable bits (R29, R31, R35, R38). -/

namespace Sys2Proof.Machine

/-- A slot after RXBYTEs is the slot before or empty. -/
theorem State.receiveAll_slot (l : List Byte) (s : State) (j : Nat) (h : j < 10) :
    (l.foldl State.receive s).dsp.tbl[j] = s.dsp.tbl[j] ∨ (l.foldl State.receive s).dsp.tbl[j] = ⟨false, .none⟩ := by
  induction l generalizing s with
  | nil => exact .inl rfl
  | cons b l ih =>
    rcases ih (s.receive b) with e | e
    · exact (s.receive_slot b j h).imp e.trans e.trans
    · exact .inr e

/-- The slot that a correlated send changes (R173). -/
theorem State.sendWith_slot_changed {s : State} {ty : Byte} {body : List Byte} {cb : Cb} {j : Nat} {h : j < 10}
    (hne : (s.sendWith ty body cb).dsp.tbl[j] ≠ s.dsp.tbl[j]) :
    j = s.dsp.nextId.toNat ∧ (s.sendWith ty body cb).dsp.tbl[j].occupied = true := by
  rw [State.sendWith_slot] at hne ⊢
  split_ifs at hne ⊢ with hj
  · exact ⟨hj.symm, rfl⟩
  · exact absurd rfl hne

/-- Settles O41: of the effects of an instruction, only a correlated send, routing and RESET write the table. -/
theorem tableWrittenOnlyByRule : Obligations.TableWrittenOnlyByRule := by
  intro i s t j h he hne
  cases exec_effect he with
  | output | asmReset | allocId | expire | subscribe => exact absurd rfl hne
  | send hi ty body cb => exact .inl ⟨hi, State.sendWith_slot_changed (s := s.quiet) hne⟩
  | sendSync ty body k hi =>
    exact .inl ⟨by rw [hi]; rfl, State.sendWith_slot_changed (s := s.quiet) (ty := ty) (body := body) hne⟩
  | row b row => exact absurd (by rw [(s.quiet.rxRow_rowFrame b row).dsp]; rfl) hne
  | receive hi l => exact .inr ⟨.inl hi, (s.quiet.receiveAll_slot l j h).resolve_left hne⟩
  | route hi f => exact .inr ⟨.inl hi, (s.quiet.route_slot f j h).resolve_left hne⟩
  | routeAndClear hi => exact .inr ⟨.inl hi, (s.quiet.route_slot _ j h).resolve_left hne⟩
  | reset hi h =>
    cases h
    exact .inr ⟨.inr hi, Vector.getElem_replicate h⟩

theorem State.receiveAll_sub (l : List Byte) (s : State) : (l.foldl State.receive s).sub = s.sub := by
  induction l generalizing s with
  | nil => rfl
  | cons b l ih => exact (ih _).trans (s.receive_keeps b).1

/-- Settles O48: of the effects of an instruction, only SUBSCRIBE and RESET write an enable bit. -/
theorem subscriptionsOnlyClearedByReset : Obligations.SubscriptionsOnlyClearedByReset := by
  intro i s t he hne
  cases exec_effect he with
  | output | asmReset | allocId | send | sendSync | expire => exact absurd rfl hne
  | subscribe sel sub o hi hsub => exact .inr ⟨sel, hi, hsub⟩
  | row b row => exact absurd (s.quiet.rxRow_rowFrame b row).sub hne
  | receive _ l => exact absurd (s.quiet.receiveAll_sub l) hne
  | route _ f => exact absurd (s.quiet.route_routerFrame f).sub hne
  | routeAndClear => exact absurd (s.quiet.route_routerFrame _).sub hne
  | reset hi => exact .inl hi

end Sys2Proof.Machine
end

section
/-! What an RXBYTE does not read, and the views of ASM: `asm.t_prev` outside a frame (R24 (d)), the buffer at or above
`cnt` (R25, R62), BytesAppended (R27), the Frame (R28). -/

namespace Sys2Proof.Machine

/-! ### The time of the previous byte -/

/-- In Complete an RXBYTE is the drop (R140). -/
theorem exec_rxbyte_complete {s : State} (b : Byte) (h : s.asm.st = .complete) :
    exec (.rxbyte b) s = .next s.quiet.rxDrop :=
  congrArg Host.Outcome.next (if_pos ((rxbRow_drop ..).2 h))

/-- In AwaitDelimiter an RXBYTE is the start or the skip, with the time recorded (R130 to R132). -/
theorem exec_rxbyte_awaitDelimiter {s : State} (b : Byte) (h : s.asm.st = .awaitDelimiter) :
    exec (.rxbyte b) s = .next { s.quiet with
      asm := { s.asm with st := if b = 0x7E then .lengthHigh else .awaitDelimiter, tPrev := s.now } } := by
  by_cases hb : b = 0x7E
  · rw [if_pos hb, exec_rxbyte_row ((rxbRow_start ..).2 ⟨h, hb⟩) (by decide) (fun hc => nomatch hc.1)]
    rfl
  · have hst : s.quiet.asm.st ≠ .complete := by simp [h]
    rw [if_neg hb, exec_rxbyte_row ((rxbRow_skip ..).2 ⟨h, hb⟩) (by decide) (fun hc => hst hc.1), ← h]
    rfl

/-- Settles O57: both states outside a frame have an equation for RXBYTE without a read of `asm.t_prev`. -/
theorem idleTimeNotRead : Obligations.IdleTimeNotRead := by
  intro s b x
  refine ⟨fun h => ?_, fun h t ht => ?_⟩
  · rw [exec_rxbyte_awaitDelimiter b h, exec_rxbyte_awaitDelimiter b (by exact h)]
    rfl
  · rw [exec_rxbyte_complete b h] at ht
    rw [exec_rxbyte_complete b (by exact h)]
    cases ht
    rfl

/-! ### The buffer at or above `cnt` -/

/-- The same state with another buffer. -/
def State.withBuf (s : State) (m : Memory) : State := { s with asm := { s.asm with buf := m } }

/-- `m` holds the bytes of the buffer below `cnt`. -/
def State.AgreesBelow (s : State) (m : Memory) : Prop := ∀ i, i < s.asm.cnt.toNat → m.read i = s.asm.buf.read i

@[simp] theorem State.withBuf_dsp (s : State) (m : Memory) : (s.withBuf m).dsp = s.dsp := rfl
@[simp] theorem State.withBuf_sub (s : State) (m : Memory) : (s.withBuf m).sub = s.sub := rfl
@[simp] theorem State.withBuf_par (s : State) (m : Memory) : (s.withBuf m).par = s.par := rfl
@[simp] theorem State.withBuf_lookup (s : State) (m : Memory) (id : Byte) : (s.withBuf m).lookup id = s.lookup id := rfl
@[simp] theorem State.withBuf_clear (s : State) (m : Memory) : (s.withBuf m).clear = s.clear := rfl
@[simp] theorem State.withBuf_note (s : State) (m : Memory) (c : Cause) :
    (s.withBuf m).note c = (s.note c).withBuf m := rfl
@[simp] theorem State.withBuf_emit (s : State) (m : Memory) (e : Event) :
    (s.withBuf m).emit e = (s.emit e).withBuf m := rfl
@[simp] theorem State.withBuf_freeSlot (s : State) (m : Memory) (id : Byte) :
    (s.withBuf m).freeSlot id = (s.freeSlot id).withBuf m := rfl

/-- Delivery does not touch the buffer. -/
@[simp] theorem State.withBuf_deliver (s : State) (m : Memory) (cb : Cb) (id : Byte) (f : Frame) :
    (s.withBuf m).deliver cb id f = (s.deliver cb id f).withBuf m := by
  cases cb with
  | none => rfl
  | tag t => rfl
  | sync k =>
    simp only [State.deliver, State.deliverSync, State.withBuf_dsp]
    split
    · split_ifs <;> rfl
    · rfl

@[simp] theorem State.withBuf_respond (s : State) (m : Memory) (f : Frame) :
    (s.withBuf m).respond f = (s.respond f).withBuf m := by
  simp only [State.respond, State.withBuf_lookup, State.withBuf_par, State.withBuf_note, State.withBuf_deliver,
    State.withBuf_freeSlot]
  split
  · rfl
  · split
    · rfl
    · split_ifs <;> rfl

@[simp] theorem State.withBuf_ioSample (s : State) (m : Memory) (f : Frame) :
    (s.withBuf m).ioSample f = (s.ioSample f).withBuf m := by
  rw [State.ioSample_eq, State.ioSample_eq]
  split <;> rfl

@[simp] theorem State.withBuf_zbRx (s : State) (m : Memory) (f : Frame) :
    (s.withBuf m).zbRx f = (s.zbRx f).withBuf m := by
  by_cases hlen : f.len < Config.zbRxHdr
  · simp only [State.zbRx, hlen, if_true, State.withBuf_note]
  · cases hrx : s.sub.rxdEn <;> simp [State.zbRx, hlen, hrx]

/-- The router reads its frame, not the buffer (R210). -/
theorem State.withBuf_route (s : State) (m : Memory) (f : Frame) :
    (s.withBuf m).route f = (s.route f).withBuf m := by
  unfold State.route
  simp only [State.withBuf_par, State.withBuf_ioSample, State.withBuf_respond, State.withBuf_zbRx]
  split <;> rfl

/-- A case of RXBYTE reads no buffer byte, and the buffers after it agree below `cnt`. -/
theorem State.withBuf_rxRow {s : State} {m : Memory} (hm : s.AgreesBelow m) (b : Byte) (row : RxbRow) :
    ∃ m', (s.withBuf m).rxRow b row = (s.rxRow b row).withBuf m' ∧ (s.rxRow b row).AgreesBelow m' := by
  cases row with
  | drop | start | skip | lenhiOk | csumOk => exact ⟨m, rfl, hm⟩
  | resync | lenhiBad | csumBad => exact ⟨[], rfl, fun _ _ => rfl⟩
  | lenlo => exact ⟨m, rfl, fun i h => absurd h (Nat.not_lt_zero i)⟩
  | data =>
    refine ⟨m.write s.asm.cnt.toNat b, rfl, fun i h => ?_⟩
    show (m.write s.asm.cnt.toNat b).read i = (s.asm.buf.write s.asm.cnt.toNat b).read i
    by_cases hi : i = s.asm.cnt.toNat
    · subst hi
      rw [Memory.read_write_same, Memory.read_write_same]
    · have hle : i < (s.asm.cnt + 1).toNat := h
      rw [Memory.read_write_other _ b hi, Memory.read_write_other _ b hi]
      exact hm i (by bv_omega)

/-- The Frame of a completed region lies below `cnt` (R24, R28). -/
theorem State.withBuf_frame {s : State} {m : Memory} (hm : s.AgreesBelow m) (hw : s.asm.cnt = s.asm.len) :
    (s.withBuf m).frame = s.frame := by
  have hb : (s.withBuf m).bufBytes s.asm.len.toNat = s.bufBytes s.asm.len.toNat :=
    State.bufBytes_congr fun i h => congrArg (Option.getD · _) (hm i (hw ▸ h))
  exact congrArg (Frame.mk · s.asm.csum) hb

/-- The hand-over does not depend on the buffer above `cnt` (R141). -/
theorem State.withBuf_routeAndClear {s : State} {m : Memory} (hm : s.AgreesBelow m) (hw : s.asm.cnt = s.asm.len) :
    (s.withBuf m).routeAndClear = s.routeAndClear := by
  rw [State.routeAndClear, State.withBuf_frame hm hw, State.withBuf_route, State.withBuf_clear, State.routeAndClear]

/-- The time recorded at the end of an RXBYTE (R130). -/
def State.recordTime (s : State) : State := { s with asm := { s.asm with tPrev := s.now } }

theorem State.finishRx_of_complete {s : State} (h : s.asm.st = .complete ∧ s.par.rtrAttached = true) :
    s.finishRx = s.recordTime.routeAndClear := if_pos (by simp [h])

theorem State.finishRx_of_open {s : State} (h : ¬(s.asm.st = .complete ∧ s.par.rtrAttached = true)) :
    s.finishRx = s.recordTime := if_neg (by simpa using h)

/-- The end of an RXBYTE reads the buffer only in a hand-over, and then below `cnt`. -/
theorem State.withBuf_finishRx {s : State} {m : Memory} (hm : s.AgreesBelow m)
    (hw : s.asm.st = .complete → s.asm.cnt = s.asm.len) :
    ∃ m', (s.withBuf m).finishRx = s.finishRx.withBuf m' ∧ s.finishRx.AgreesBelow m' := by
  by_cases hc : s.asm.st = .complete ∧ s.par.rtrAttached = true
  · have hsame : (s.withBuf m).finishRx = s.finishRx := by
      rw [State.finishRx_of_complete hc, State.finishRx_of_complete (by exact hc)]
      exact State.withBuf_routeAndClear (s := s.recordTime) hm (hw hc.1)
    exact ⟨s.finishRx.asm.buf, hsame, fun _ _ => rfl⟩
  · rw [State.finishRx_of_open hc, State.finishRx_of_open (by exact hc)]
    exact ⟨m, rfl, hm⟩

/-- An RXBYTE reads no byte at or above `cnt`. -/
theorem State.withBuf_receive {s : State} {m : Memory} (hi : AsmInv s) (hm : s.AgreesBelow m) (b : Byte) :
    ∃ m', (s.withBuf m).receive b = (s.receive b).withBuf m' ∧ (s.receive b).AgreesBelow m' := by
  have hsel : (s.withBuf m).selectRxb b = s.selectRxb b := rfl
  unfold State.receive
  rw [hsel]
  split_ifs with hd
  · exact ⟨m, rfl, hm⟩
  · obtain ⟨m', hrow, hm'⟩ := State.withBuf_rxRow hm b (s.selectRxb b)
    rw [hrow]
    exact State.withBuf_finishRx hm' (hi.rxRow rfl).whole

/-- Settles O58: RXBYTE commutes with another buffer that agrees below `cnt` (`State.withBuf_receive`). -/
theorem unwrittenBytesNotRead : Obligations.UnwrittenBytesNotRead := by
  intro s b m t u hi hm ht hu
  obtain ⟨m', h, hm'⟩ := State.withBuf_receive (s := s.quiet) (hi.of_asm_eq rfl) hm b
  cases ht
  have hu : u = (s.quiet.receive b).withBuf m' := (Host.Outcome.next.inj hu).symm.trans h
  subst hu
  exact ⟨rfl, hm'⟩

/-! ### The views -/

/-- Settles O59, by the table's cases; `cnt` and `len` are below 256, so no sum wraps at 512. -/
theorem bytesAppendedTable : Obligations.BytesAppendedTable := by
  intro s
  refine ⟨fun h => by simp [State.bytesAppended, h], fun h => by simp [State.bytesAppended, h],
    fun h => by simp [State.bytesAppended, h], fun h => ?_, fun h => ?_⟩
  · simp only [State.bytesAppended, h]
    bv_omega
  · simp only [State.bytesAppended, h]
    bv_omega

/-- A byte of the exposed region is the one in the buffer (R28). -/
theorem AsmInv.frame_region_getElem? {s : State} (hi : AsmInv s) (hst : s.asm.st = .complete) (i : Nat) :
    s.frame.region[i]? = if i < s.asm.len.toNat then s.asm.buf.read i else none := by
  show (s.bufBytes s.asm.len.toNat)[i]? = _
  split_ifs with hlt
  · obtain ⟨v, hv⟩ := Option.isSome_iff_exists.1 (hi.written (.inr hst) i (hi.whole hst ▸ hlt))
    simp [State.bufBytes, hlt, hv, State.bufByte_of_read hv]
  · exact List.getElem?_eq_none (by simpa using hlt)

/-- Settles O60: the region is the written part of the buffer (`AsmInv.frame_region_getElem?`). -/
theorem frameView : Obligations.FrameView := by
  intro s hi
  refine ⟨fun h => if_neg h, fun h => ⟨s.frame, if_pos h, s.bufBytes_length _, fun i hlt => ?_,
    hi.frame_region_getElem? h 0, hi.frame_region_getElem? h 1, rfl, rfl, ?_⟩⟩
  · rw [hi.frame_region_getElem? h, if_pos hlt]
  · show s.asm.csum = cks (s.bufBytes s.asm.len.toNat)
    rw [← hi.whole h]
    exact hi.checksum (.inr h)

end Sys2Proof.Machine
end

section
/-! Who writes the TX stream, and what a step takes from the queue (R63, R66, R69). -/

namespace Sys2Proof.Machine

/-! ### The TX stream -/

/-- Exactly one whole frame, of a region that the 8-bit length can express, is appended to the TX stream (R66, R105). -/
def TxGainsFrame (s t : State) : Prop := ∃ r : List Byte, r.length ≤ 255 ∧ t.out.tx = s.out.tx ++ txFrame r

/-- SER appends the frame of its region (R160). -/
theorem State.transmit_txGainsFrame (s : State) {r : List Byte} (h : r.length ≤ 255) : TxGainsFrame s (s.transmit r) :=
  ⟨r, h, rfl⟩

/-- A body that is not refused makes a region that the 8-bit length can express (R94, R176). -/
theorem sendRegion_length_le {body : List Byte} (ty id : Byte) (h : ¬ body.length > Config.bodyMax) :
    (sendRegion ty id body).length ≤ 255 := by
  have hbody : body.length ≤ 252 := not_lt.1 h
  simp only [sendRegion, List.length_append, List.length_cons, List.length_nil]
  omega

/-- An accepted correlated send appends the frame of its type, the counter's ID and its body (R175). -/
theorem State.sendWith_txGainsFrame (s : State) (ty : Byte) {body : List Byte} (cb : Cb)
    (h : ¬ body.length > Config.bodyMax) : TxGainsFrame s (s.sendWith ty body cb) :=
  ⟨_, sendRegion_length_le ty s.dsp.nextId h, rfl⟩

/-- An asynchronous send is refused and writes nothing, or appends its frame (R175, R176). -/
theorem State.sendAsync_tx (s : State) (ty : Byte) (body : List Byte) (cb : Option Byte) :
    (s.sendAsync ty body cb).out.tx = s.out.tx ∨ TxGainsFrame s (s.sendAsync ty body cb) := by
  unfold State.sendAsync
  split_ifs with h
  · exact .inl rfl
  · exact .inr (s.sendWith_txGainsFrame ty (cbOf cb) h)

theorem State.receiveAll_tx (l : List Byte) (s : State) : (l.foldl State.receive s).out.tx = s.out.tx := by
  induction l generalizing s with
  | nil => rfl
  | cons b l ih =>
    obtain ⟨-, -, -, -, htx⟩ := s.receive_keeps b
    exact (ih _).trans htx

/-- A case of RXBYTE performed alone writes TX only if its pseudocode does. -/
theorem rowCase_tx {s t u : State} {row : RxbRow} {b : Byte} (h : s.rowCase row b u = .next t)
    (hu : u.out.tx = s.out.tx) : t.out.tx = s.out.tx := by
  obtain ⟨-, rfl⟩ := State.rowCase_eq_next.1 h
  exact hu

/-- A router case performed alone does not write TX. -/
theorem routeCase_tx {s t : State} {cls : RtClass} {act : State → Frame → State}
    (hact : ∀ u f, RouterFrame u (act u f)) (h : s.routeCase cls act = .next t) : t.out.tx = s.out.tx := by
  obtain ⟨f, -, -, -, rfl⟩ := State.routeCase_eq_next.1 h
  exact (hact s.quiet f).tx

/-- The operations that R66 lets write the TX stream. -/
def WritesTx (i : Instr) : Prop :=
  i.isCorrelated = true ∨ (∃ ty body, i = .sendFf ty body) ∨ ∃ r, i = .serialize r

/-- Every instruction keeps the TX stream, or is a send or SERIALIZE and appends one whole frame. -/
theorem exec_tx {i : Instr} {s t : State} (hwf : i.wf = true) (h : exec i s = .next t) :
    t.out.tx = s.out.tx ∨ (WritesTx i ∧ TxGainsFrame s t) := by
  have async : ∀ ty body cb, i.isCorrelated = true → t = s.quiet.sendAsync ty body cb →
      t.out.tx = s.out.tx ∨ (WritesTx i ∧ TxGainsFrame s t) := fun ty body cb hi ht =>
    ht ▸ (s.quiet.sendAsync_tx ty body cb).imp_right fun hg => ⟨.inl hi, hg⟩
  cases i with
  | sendAsync | sendAt | sendRemoteAt | sendData => cases h; exact async _ _ _ rfl rfl
  | sendSync ty body k =>
    simp only [exec, execSendSync] at h
    split_ifs at h with hc <;> cases h
    · exact .inl rfl
    · simp only [Bool.or_eq_true, decide_eq_true_eq, not_or] at hc
      exact .inr ⟨.inl rfl, s.quiet.sendWith_txGainsFrame ty (.sync k) hc.1⟩
  | sendFf ty body =>
    simp only [exec, execSendFf] at h
    split_ifs at h with hc <;> cases h
    · exact .inl rfl
    · exact .inr ⟨.inr (.inl ⟨ty, body, rfl⟩), s.quiet.transmit_txGainsFrame (sendRegion_length_le ty Config.idNone hc)⟩
  | serialize r =>
    cases h
    exact .inr ⟨.inr (.inr ⟨r, rfl⟩), s.quiet.transmit_txGainsFrame (of_decide_eq_true hwf)⟩
  | syncExpire k =>
    simp only [exec, execSyncExpire] at h
    split at h
    · split_ifs at h
      cases h
      exact .inl rfl
    · cases h
  | subscribe sel =>
    simp only [exec, execSubscribe] at h
    split at h <;> (cases h; exact .inl rfl)
  | rxbyte b => cases h; exact .inl (s.quiet.receiveAll_tx [b])
  | frame r => cases h; exact .inl (s.quiet.receiveAll_tx (serialize r))
  | routeAndClear =>
    simp only [exec, execRouteAndClear] at h
    split_ifs at h
    cases h
    exact .inl (s.quiet.route_routerFrame s.quiet.frame).tx
  | rtIoSample => exact .inl (routeCase_tx State.ioSample_routerFrame h)
  | rtAtResp | rtRemoteAtResp => exact .inl (routeCase_tx State.respond_routerFrame h)
  | rtZbRx => exact .inl (routeCase_tx State.zbRx_routerFrame h)
  | rtUnknown => exact .inl (routeCase_tx (fun u _ => u.note_routerFrame .unknownType) h)
  | rxbDrop | rxbResync | rxbStart | rxbSkip | rxbLenhiOk | rxbLenhiBad | rxbLenlo | rxbData | rxbCsumOk | rxbCsumBad =>
    exact .inl (rowCase_tx h rfl)
  | nop | asmReset | allocId | reset | reservedB | reservedC | reservedD | reservedE | reservedF =>
    cases h; exact .inl rfl

/-- Settles O56, by cases on the instruction (`exec_tx`). -/
theorem txGrowsByWholeFrames : Obligations.TxGrowsByWholeFrames :=
  fun _ _ _ hwf h => exec_tx hwf h

/-! ### Taking a request -/

/-- A word at the wire is whole when it decodes (R90). -/
theorem decodeWire_of_decode {s : State} {c : Codes} {r : Request} {i : Instr} (hp : r.port = .wire)
    (h : decode c r.port (s.portBytes r) = .ok i) : decodeWire r.data = .ok i := by
  obtain ⟨n, p, d⟩ := r
  cases hp
  exact h

/-- Of a batch at the RX port the first byte is received and the others stay at the head of the queue (R104). -/
theorem State.take_batch (s : State) (n : Time) (b c : Byte) (more : List Byte) (rest : List Request) :
    s.take ⟨n, .rx, b :: c :: more⟩ rest = { s with now := n, inputs := ⟨n, .rx, c :: more⟩ :: rest } := rfl

/-- Settles O5: what the word decodes to is what is requested (`State.requested_of_ok`), and the step performs it
(`step_of_requested`). -/
theorem stepRunsDecoded : Obligations.StepRunsDecoded := by
  intro s r rest i hin hdec
  refine ⟨step_of_requested hin (State.requested_of_ok hdec), fun hwhole hrx => ?_, fun b c more hp hd => ?_⟩
  · have hleft : r.left = [] := Request.left_eq_nil hrx fun hw => .inr ⟨i, decodeWire_of_decode hw hdec⟩
    exact s.take_of_whole rest hleft hwhole
  · obtain ⟨n, p, d⟩ := r
    cases hp
    cases hd
    exact ⟨(Except.ok.inj hdec).symm, s.take_batch n b c more rest⟩

end Sys2Proof.Machine
end

section
/-! The encodings (R90 to R92, R98, R99, R106, R110): the decoder undoes the encoder at each port, and the laws of the wire
format and the checksum. -/

namespace Sys2Proof.Machine

/-! ### The wire format and the checksum -/

/-- A serialized region of at most 255 bytes is a whole frame (R90, R91). -/
theorem decodeWire_serialize {r : List Byte} (h : r.length ≤ 255) : decodeWire (serialize r) = .ok (.frame r) := by
  have hhi : lenHiByte r.length = 0 := by rw [lenHiByte, Nat.div_eq_of_lt (by omega)]; rfl
  have hlo : (lenLoByte r.length).toNat = r.length := Nat.mod_eq_of_lt (by omega)
  simp [serialize, decodeWire, hhi, hlo]

/-- The wire decoder accepts exactly the serialized regions of at most 255 bytes. -/
theorem decodeWire_eq_ok_frame {l r : List Byte} :
    decodeWire l = .ok (.frame r) ↔ r.length ≤ 255 ∧ l = serialize r := by
  constructor
  · intro h
    obtain ⟨q, hlen, hl, hq⟩ := decodeWire_ok h
    cases hq
    exact ⟨hlen, hl⟩
  · rintro ⟨hlen, rfl⟩
    exact decodeWire_serialize hlen

/-- After the delimiter and the length stand the region and one byte more, so the region can be read off (R162 (c)). -/
theorem serialize_injective : Function.Injective serialize := by
  intro r q h
  have hbody : r ++ [cks r] = q ++ [cks q] := by
    simp only [serialize, List.cons_append, List.nil_append, List.cons.injEq] at h
    exact h.2.2.2
  exact (List.append_inj' hbody rfl).1

/-- Settles O3, by `decodeWire_eq_ok_frame` and `serialize_injective`. -/
theorem wireFrameIffSerialized : Obligations.WireFrameIffSerialized :=
  ⟨fun _ _ _ => decodeWire_eq_ok_frame, fun _ _ h => serialize_injective h, serialize_length⟩

/-- The byte that makes the sum 0xFF modulo 256 is the checksum (R92 (b)). -/
theorem eq_cks_iff (r : List Byte) (c : Byte) : c = cks r ↔ (sumBytes r + c.toNat) % 256 = 0xFF := by
  have hc := c.isLt
  rw [← BitVec.toNat_inj, cks_toNat]
  omega

/-- The checksum is the complement of the byte sum (R92 (a)). -/
theorem cks_eq_not_sum (r : List Byte) : cks r = ~~~BitVec.ofNat 8 (sumBytes r) := by
  apply BitVec.eq_of_toNat_eq
  rw [cks_toNat, BitVec.toNat_not, BitVec.toNat_ofNat]

/-- A byte with one bit flipped is another byte. -/
theorem xor_oneBit_ne (x : Byte) {j : Nat} (hj : j < 8) : x ^^^ (1#8 <<< j) ≠ x := by
  intro h
  have hbit := congrArg (fun y : Byte => y.getLsbD j) h
  simp [hj] at hbit

/-- Settles O4: `sumBytes` is the sum that the laws write out. -/
theorem checksumLaws : Obligations.ChecksumLaws := by
  refine ⟨cks_nil, fun r => ⟨cks_toNat r, cks_eq_not_sum r, eq_cks_iff r, fun c => ?_, fun j hj => xor_oneBit_ne _ hj,
    cks_append_byte r, List.getLast?_concat⟩⟩
  exact (eq_cks_iff r c).trans (by rw [sumBytes]; omega)

/-! ### Decoding what the encoder writes, port by port -/

/-- A command record at the command port (R106, R110). -/
theorem decode_encode_of_record {c : Codes} {i : Instr} {op ty : Byte} {bytes : List Byte} {cb : Option Byte} {k sel : Byte}
    (henc : encode c i = (.cmd, cmdRecord op ty bytes cb k sel)) (hlen : fitsLen bytes = true)
    (hop : decodeOp (op.extractLsb' 0 4) ty bytes cb k (sel.extractLsb' 0 2) = i) :
    decode c (encode c i).1 (encode c i).2 = .ok i := by
  rw [henc, ← hop]
  exact decodeCmd_cmdRecord op ty bytes cb k sel (of_decide_eq_true hlen)

/-- A case of RXBYTE and its selector (R98). -/
theorem decode_encode_of_row {c : Codes} {i : Instr} {b : Byte} {a : AsmSt} {slow full ok : Bool} {row : RxbRow}
    (henc : encode c i = (.asmStep, [b, selByte a slow full ok])) (hrow : rxbRow a b slow full ok = row)
    (hi : row.toInstr b = i) : decode c (encode c i).1 (encode c i).2 = .ok i := by
  rw [henc, ← hi, ← hrow]
  exact decodeRxb_selByte b a slow full ok

/-- A case of ROUTE and its type byte (R99). -/
theorem decode_encode_of_class {c : Codes} {i : Instr} {r : List Byte} {cls : RtClass}
    (henc : encode c i = (.rtrStep, r)) (hcls : rtClass c r = cls) (hi : cls.toInstr = i) :
    decode c (encode c i).1 (encode c i).2 = .ok i := by
  rw [henc, ← hi, ← hcls]
  rfl

/-- A field laid out in the low bits of a byte is read back (log 4). -/
theorem extractLsb'_setWidth_byte {n : Nat} (x : BitVec n) (h : n ≤ 8) : (x.setWidth 8).extractLsb' 0 n = x := by
  rw [← BitVec.setWidth_eq_extractLsb' h, BitVec.setWidth_setWidth_of_le x h, BitVec.setWidth_eq]

/-- The operations of R110 decode back whatever the type codes are. -/
theorem decode_encode_operation (c : Codes) {i : Instr} (hwf : i.wf = true) (hop : i.isOperation = true) :
    decode c (encode c i).1 (encode c i).2 = .ok i := by
  cases i with
  | nop => exact decode_encode_of_record rfl hwf rfl
  | asmReset => exact decode_encode_of_record rfl hwf rfl
  | allocId => exact decode_encode_of_record rfl hwf rfl
  | sendFf ty body => exact decode_encode_of_record rfl hwf rfl
  | sendAsync ty body cb => exact decode_encode_of_record rfl hwf rfl
  | sendSync ty body k => exact decode_encode_of_record rfl hwf rfl
  | serialize region => exact decode_encode_of_record rfl hwf rfl
  | subscribe sel =>
    exact decode_encode_of_record rfl rfl (congrArg Instr.subscribe (extractLsb'_setWidth_byte sel (by omega)))
  | sendAt body cb => exact decode_encode_of_record rfl hwf rfl
  | sendRemoteAt body cb => exact decode_encode_of_record rfl hwf rfl
  | sendData body cb => exact decode_encode_of_record rfl hwf rfl
  | reservedB => exact decode_encode_of_record rfl hwf rfl
  | reservedC => exact decode_encode_of_record rfl hwf rfl
  | reservedD => exact decode_encode_of_record rfl hwf rfl
  | reservedE => exact decode_encode_of_record rfl hwf rfl
  | reservedF => exact decode_encode_of_record rfl hwf rfl
  | rxbyte b => rfl
  | syncExpire k => rfl
  | reset => rfl
  | frame region => exact decodeWire_serialize (of_decide_eq_true hwf)
  | _ => cases hop

/-- Each class with a type code is the class of that code, when the codes are distinct (R10, R99). -/
theorem rtClass_own_code {c : Codes} (h : c.Distinct) :
    rtClass c [c.tIoSample] = .ioSample ∧ rtClass c [c.tAtResp] = .atResp ∧
      rtClass c [c.tRemoteAtResp] = .remoteAtResp ∧ rtClass c [c.tZbRx] = .zbRx := by
  simp only [Codes.Distinct, Codes.types, List.nodup_cons, List.mem_cons, not_or] at h
  obtain ⟨-, -, -, ⟨hzb, hio, hrem, -⟩, ⟨hzi, hzr, -⟩, ⟨hir, -⟩, -⟩ := h
  exact ⟨if_pos rfl, by simp [rtClass, hio], by simp [rtClass, Ne.symm hir, Ne.symm hrem],
    by simp [rtClass, hzi, Ne.symm hzb, hzr]⟩

/-- Settles O1: the operations by `decode_encode_operation`, the cases of RXBYTE by R98's rows, the cases of ROUTE by
`rtClass_own_code`. -/
theorem decodeOfEncode : Obligations.DecodeOfEncode := by
  intro c i hc hwf
  obtain ⟨hio, hat, hrem, hzb⟩ := rtClass_own_code hc
  cases i with
  | rxbDrop b => exact decode_encode_of_row rfl ((rxbRow_drop ..).2 rfl) rfl
  | rxbResync => exact decode_encode_of_row rfl ((rxbRow_resync ..).2 ⟨rfl, rfl, rfl⟩) rfl
  | rxbStart => exact decode_encode_of_row rfl ((rxbRow_start ..).2 ⟨rfl, rfl⟩) rfl
  | rxbSkip b => exact decode_encode_of_row rfl ((rxbRow_skip ..).2 ⟨rfl, bne_iff_ne.1 hwf⟩) rfl
  | rxbLenhiOk => exact decode_encode_of_row rfl ((rxbRow_lenhiOk ..).2 ⟨rfl, rfl⟩) rfl
  | rxbLenhiBad b => exact decode_encode_of_row rfl ((rxbRow_lenhiBad ..).2 ⟨rfl, bne_iff_ne.1 hwf, by simp⟩) rfl
  | rxbLenlo b => exact decode_encode_of_row rfl ((rxbRow_lenlo ..).2 ⟨rfl, by simp⟩) rfl
  | rxbData b => exact decode_encode_of_row rfl ((rxbRow_data ..).2 ⟨rfl, by simp, rfl⟩) rfl
  | rxbCsumOk b => exact decode_encode_of_row rfl ((rxbRow_csumOk ..).2 ⟨rfl, by simp, rfl, rfl⟩) rfl
  | rxbCsumBad b => exact decode_encode_of_row rfl ((rxbRow_csumBad ..).2 ⟨rfl, by simp, rfl, rfl⟩) rfl
  | routeAndClear => rfl
  | rtIoSample => exact decode_encode_of_class rfl hio rfl
  | rtAtResp => exact decode_encode_of_class rfl hat rfl
  | rtRemoteAtResp => exact decode_encode_of_class rfl hrem rfl
  | rtZbRx => exact decode_encode_of_class rfl hzb rfl
  | rtUnknown => exact decode_encode_of_class rfl rfl rfl
  | _ => exact decode_encode_operation c hwf rfl

/-- Settles O2, by evaluating the decoder on the eight words. -/
theorem specWordsDecode : Obligations.SpecWordsDecode :=
  ⟨rfl, rfl, rfl, rfl, rfl, rfl, rfl, by decide⟩

/-- Settles O9: every field of the pins stands in the low bits of its byte, and a staging buffer of 255 bytes is never
short. -/
theorem commandPinsDecode : Obligations.CommandPinsDecode := by
  intro c p hstg
  have hlen : ¬ p.stg.length < p.cmdLen.toNat := by have := p.cmdLen.isLt; omega
  have hop := extractLsb'_setWidth_byte p.cmdOp (by omega)
  have hsel := extractLsb'_setWidth_byte p.cmdSel (by omega)
  simp [decode, decodeCmd, Cycle.cmdBytes, hlen, hop, hsel]

end Sys2Proof.Machine
end

section
/-! The step and its requests (R100 to R106): a whole word at its port, a batch of bytes, a command with bytes missing, no
operation requested. -/

namespace Sys2Proof.Machine

/-! ### One whole word -/

/-- Elsewhere than at the ports of single cases, the word of a whole request is its own bytes. -/
theorem State.portBytes_of_whole (s : State) {r : Request} (hrow : r.port ≠ .asmStep) (hcls : r.port ≠ .rtrStep)
    (hwhole : r.incomplete = false) : s.portBytes r = r.data := by
  obtain ⟨n, p, d⟩ := r
  cases p with
  | asmStep => exact absurd rfl hrow
  | rtrStep => exact absurd rfl hcls
  | _ => simp [State.portBytes, hwhole]

/-- A word that decodes elsewhere than at the ports of single cases, and is no batch of bytes, is performed and leaves nothing
requested. -/
theorem step_of_decode {s : State} {n : Time} {p : Port} {d : List Byte} {rest : List Request} {i : Instr}
    (hin : s.inputs = ⟨n, p, d⟩ :: rest) (hdec : decode s.par.codes p d = .ok i)
    (hrow : p ≠ .asmStep) (hcls : p ≠ .rtrStep) (hrx : p = .rx → d.length ≤ 1) :
    step s = exec i { s with now := n, inputs := rest } := by
  have hwhole : (⟨n, p, d⟩ : Request).incomplete = false := by
    by_cases hp : p = .cmd
    · subst hp
      exact Request.incomplete_of_ok hdec
    · exact Request.incomplete_eq_false hp
  have hport : (s.take ⟨n, p, d⟩ rest).portBytes ⟨n, p, d⟩ = d := State.portBytes_of_whole _ hrow hcls hwhole
  obtain ⟨hstep, htake, -⟩ := stepRunsDecoded s ⟨n, p, d⟩ rest i hin (by rw [hport]; exact hdec)
  rw [hstep, htake hwhole hrx]

/-- Where the encoder puts an operation: at no port of single cases, and one byte at most at the RX port. -/
theorem encode_operation_port (c : Codes) {i : Instr} (h : i.isOperation = true) :
    (encode c i).1 ≠ .asmStep ∧ (encode c i).1 ≠ .rtrStep ∧ ((encode c i).1 = .rx → (encode c i).2.length ≤ 1) := by
  cases i <;> simp_all [encode, Instr.isOperation]

/-- Settles O6: what the encoder writes decodes back (`decode_encode_operation`) and is one whole word
(`step_of_decode`). -/
theorem stepRunsEncodedOperation : Obligations.StepRunsEncodedOperation := by
  intro s n rest i hwf hop hin
  obtain ⟨hrow, hcls, hrx⟩ := encode_operation_port s.par.codes hop
  exact step_of_decode hin (decode_encode_operation s.par.codes hwf hop) hrow hcls hrx

/-! ### No operation -/

/-- A request that asks for nothing is taken off the queue. -/
theorem step_of_not_requested {s : State} {r : Request} {rest : List Request} (hin : s.inputs = r :: rest)
    (hr : (s.take r rest).requested r = none) : step s = .next (s.take r rest).quiet := by
  simp only [step, hin, hr]

/-- Settles O7: the ports of the second clause reject no byte at all. -/
theorem stepIdle : Obligations.StepIdle := by
  refine fun s => ⟨fun hin => ?_, fun n rest p hp hin => ?_⟩
  · have hstep : step s = .next s.quiet := by simp only [step, hin]
    exact hstep
  · simp only [List.mem_cons, List.not_mem_nil, or_false] at hp
    rcases hp with rfl | rfl | rfl | rfl | rfl <;> exact step_of_not_requested hin rfl

/-- Settles O50: each of the six is its answer on the quiet state. -/
theorem nopAndReservedCodes : Obligations.NopAndReservedCodes := by
  refine fun s => ⟨rfl, fun i hi => ?_⟩
  simp only [List.mem_cons, List.not_mem_nil, or_false] at hi
  rcases hi with rfl | rfl | rfl | rfl | rfl <;> rfl

/-! ### Every request of an agent completes -/

/-- Bytes on the wire that are no serialized region are no frame. -/
theorem decodeWire_error {l : List Byte} (h : ∀ r : List Byte, r.length ≤ 255 → l ≠ serialize r) :
    ∃ e, decodeWire l = .error e := by
  cases hl : decodeWire l with
  | error e => exact ⟨e, rfl⟩
  | ok i =>
    obtain ⟨r, hlen, hr, -⟩ := decodeWire_ok hl
    exact absurd hr (h r hlen)

/-- Of bytes on the wire that are no frame, those after the first stay requested at the RX port (R100, R104). -/
theorem State.take_wire_error {e : DecodeError} (s : State) (n : Time) (b : Byte) (more : List Byte) (rest : List Request)
    (h : decodeWire (b :: more) = .error e) :
    s.take ⟨n, .wire, b :: more⟩ rest =
      { s with now := n, inputs := (if more = [] then [] else [⟨n, .rx, more⟩]) ++ rest } := by
  have hleft : (⟨n, .wire, b :: more⟩ : Request).left = if more = [] then [] else [⟨n, .rx, more⟩] := by
    simp only [Request.left, h]
    cases more <;> rfl
  simp [State.take, hleft, Request.incomplete_eq_false]

/-- Bytes on the wire that are no frame ask for the RXBYTE of the first (R100). -/
theorem State.requested_wire_error {e : DecodeError} (s : State) (n : Time) (b : Byte) (more : List Byte)
    (h : decodeWire (b :: more) = .error e) : s.requested ⟨n, .wire, b :: more⟩ = some (.rxbyte b) := by
  have hdec : decode s.par.codes .wire (s.portBytes ⟨n, .wire, b :: more⟩) = .error e := h
  simp only [State.requested, hdec]

/-- What is asked for at the reset, RX, command or wire port completes. -/
theorem exec_requested {s t : State} {r : Request} {i : Instr} (hp : r.port ∈ [Port.rst, .rx, .cmd, .wire])
    (h : s.requested r = some i) : ∃ u, exec i t = .next u := by
  obtain ⟨n, p, d⟩ := r
  simp only [List.mem_cons, List.not_mem_nil, or_false] at hp
  rcases hp with rfl | rfl | rfl | rfl
  · cases h
    exact ⟨_, rfl⟩
  · rw [State.requested_rx] at h
    obtain ⟨b, -, rfl⟩ := Option.map_eq_some_iff.1 h
    exact ⟨_, rfl⟩
  · cases d with
    | nil => cases h
    | cons b more =>
      obtain ⟨missing, j, hdec, hreq, -⟩ := s.requested_cmd n b more
      cases h.symm.trans hreq
      exact exec_of_decodeCmd hdec t
  · rcases s.requested_wire n d with ⟨q, -, hreq⟩ | ⟨-, hreq⟩ <;> rw [hreq] at h
    · cases h
      exact ⟨_, rfl⟩
    · obtain ⟨b, -, rfl⟩ := Option.map_eq_some_iff.1 h
      exact ⟨_, rfl⟩

/-- Settles O8: `exec_requested` for the first clause, and the request's own law at each of the three ports for the
others. -/
theorem agentRequestsAlwaysComplete : Obligations.AgentRequestsAlwaysComplete := by
  refine ⟨fun s r rest hin hp => ?_, fun s n b more rest hin hno => ?_, fun s n b more rest hin => ?_,
    fun s n b more rest hin => ?_⟩
  · cases hreq : (s.take r rest).requested r with
    | none => exact ⟨_, step_of_not_requested hin hreq⟩
    | some i =>
      rw [step_of_requested hin hreq]
      exact exec_requested hp hreq
  · obtain ⟨e, he⟩ := decodeWire_error hno
    rw [← s.take_wire_error n b more rest he]
    exact step_of_requested hin (State.requested_wire_error _ n b more he)
  · obtain ⟨missing, i, hdec, hreq, hwhole⟩ := (s.take ⟨n, .cmd, b :: more⟩ rest).requested_cmd n b more
    refine ⟨missing, i, hdec, step_of_requested hin hreq, fun j hj => ⟨hwhole j hj, ?_⟩⟩
    exact s.take_of_whole rest rfl (Request.incomplete_of_ok hj)
  · have hstep := step_of_requested hin (State.requested_asmStep _ n b more)
    exact ⟨hstep, _, hstep.trans (exec_selected_row _ b)⟩

end Sys2Proof.Machine
end

section
/-! Which case of RXBYTE a byte selects (R98), and the refusal of a case or a router step that is not selected (log 6). -/

namespace Sys2Proof.Machine

/-- Settles O11, row by row: `late` is R133's test (`State.late_iff`). -/
theorem caseSelection : Obligations.CaseSelection := by
  intro s b hcnt mid late
  have hlate : lateDelim s.asm.st b s.slow ↔ late := s.late_iff b
  have hfull : s.full = true ↔ s.asm.cnt = s.asm.len := by
    rw [State.full_eq_true, ← BitVec.toNat_inj]
    omega
  simp only [State.selectRxb, rxbRow_drop, rxbRow_resync, rxbRow_start, rxbRow_skip, rxbRow_lenhiOk, rxbRow_lenhiBad,
    rxbRow_lenlo, rxbRow_data, rxbRow_csumOk, rxbRow_csumBad, hlate, hfull, State.full_eq_false, beq_iff_eq,
    beq_eq_false_iff_ne]
  simp

/-- A case of RXBYTE as an instruction of its own, for the byte that it stands for (log 6). -/
theorem exec_toInstr {row : RxbRow} {b : Byte} (hdelim : b = 0x7E ∨ (row ≠ .start ∧ row ≠ .resync))
    (hzero : b = 0x00 ∨ row ≠ .lenhiOk) (s : State) :
    exec (row.toInstr b) s = s.rowCase row b (s.quiet.rxRow b row) := by
  cases row with
  | resync => rcases hdelim with rfl | ⟨-, h⟩; exacts [rfl, absurd rfl h]
  | start => rcases hdelim with rfl | ⟨h, -⟩; exacts [rfl, absurd rfl h]
  | lenhiOk => rcases hzero with rfl | h; exacts [rfl, absurd rfl h]
  | _ => rfl

/-- Outside Complete no router case is performed (R141; log 6). -/
theorem State.routeCase_of_not_complete {s : State} (h : s.asm.st ≠ .complete) (cls : RtClass)
    (act : State → Frame → State) : s.routeCase cls act = .refused .routeNotSelected := by
  have hexp : s.exposed = none := if_neg h
  simp only [State.routeCase, hexp]

/-- Settles O22: a row by `exec_toInstr`, a router step because no Frame is exposed. -/
theorem unselectedRowsRefused : Obligations.UnselectedRowsRefused := by
  refine fun s b row => ⟨fun hsel hdelim hzero => ?_, fun hst i hi => ?_⟩
  · rw [exec_toInstr hdelim hzero s]
    exact if_neg hsel
  · simp only [List.mem_cons, List.not_mem_nil, or_false] at hi
    rcases hi with rfl | rfl | rfl | rfl | rfl | rfl
    · exact if_neg (by simp [hst])
    · exact State.routeCase_of_not_complete hst .ioSample State.ioSample
    · exact State.routeCase_of_not_complete hst .atResp State.respond
    · exact State.routeCase_of_not_complete hst .remoteAtResp State.respond
    · exact State.routeCase_of_not_complete hst .zbRx State.zbRx
    · exact State.routeCase_of_not_complete hst .unknown fun t _ => t.unknownType

end Sys2Proof.Machine
end

section
/-! What one selected case of RXBYTE does, alone and inside RXBYTE (R130 to R140), ASM_RESET (R142) and the hand-over
(R141). -/

namespace Sys2Proof.Machine

/-! ### Selected cases -/

/-- A byte that is no delimiter, or comes in time, is no late delimiter (R133). -/
theorem State.not_lateDelim {s : State} {b : Byte} (h : ¬(b = 0x7E ∧ 1000 < (s.now - s.asm.tPrev).toNat)) :
    ¬lateDelim s.asm.st b s.slow :=
  fun ⟨_, hb, hslow⟩ => h ⟨hb, s.slow_iff.1 hslow⟩

/-- The count at the length is the checksum position (R98 rows 9 and 10). -/
theorem State.full_of_cnt_eq {s : State} (h : s.asm.cnt = s.asm.len) : s.full = true :=
  s.full_eq_true.2 (by rw [h])

/-- An RXBYTE that does not drop its byte ends its case as R130 says. -/
theorem State.receive_eq_finishRx {s : State} {b : Byte} {row : RxbRow} (h : s.selectRxb b = row) (hd : row ≠ .drop) :
    s.receive b = (s.rxRow b row).finishRx := by
  subst h
  exact if_neg hd

/-- An RXBYTE that hands nothing over: the case, and the time recorded (R130). -/
theorem State.receive_of_open {s : State} {b : Byte} {row : RxbRow} (h : s.selectRxb b = row) (hd : row ≠ .drop)
    (hc : (s.rxRow b row).asm.st ≠ .complete) : s.receive b = (s.rxRow b row).recordTime :=
  (State.receive_eq_finishRx h hd).trans (State.finishRx_of_open fun hcomp => hc hcomp.1)

/-- Unless it drops the byte or completes a frame, the selected case as an instruction and RXBYTE differ in the recorded
time only (R130). -/
theorem exec_row_and_rxbyte {s : State} {b : Byte} {row : RxbRow} (h : s.selectRxb b = row) (hd : row ≠ .drop)
    (hc : (s.quiet.rxRow b row).asm.st ≠ .complete) :
    exec (row.toInstr b) s = .next (s.quiet.rxRow b row) ∧
      exec (.rxbyte b) s = .next (s.quiet.rxRow b row).recordTime :=
  ⟨exec_row h, congrArg Host.Outcome.next (State.receive_of_open (s := s.quiet) h hd hc)⟩

/-- Settles O13: the byte selects RXB.SKIP. -/
theorem skipChangesNothingButTime : Obligations.SkipChangesNothingButTime := by
  intro s b hst hb
  have hsel : s.selectRxb b = .skip := (rxbRow_skip ..).2 ⟨hst, hb⟩
  have hopen : s.asm.st ≠ .complete := by simp [hst]
  obtain ⟨hrow, hbyte⟩ := exec_row_and_rxbyte hsel (by decide) hopen
  exact ⟨hrow, hbyte, by simp [State.bytesAppended, hst]⟩

/-- Settles O14: the bytes select RXB.START and RXB.LENHI_OK, neither of which reads the time. -/
theorem delimiterAndHighLengthAdvance : Obligations.DelimiterAndHighLengthAdvance := by
  refine fun s => ⟨fun hst => ?_, fun hst => ?_⟩
  · have hsel : s.selectRxb 0x7E = .start := (rxbRow_start ..).2 ⟨hst, rfl⟩
    exact exec_row_and_rxbyte hsel (by decide) (fun hc => nomatch hc)
  · have hsel : s.selectRxb 0x00 = .lenhiOk := (rxbRow_lenhiOk ..).2 ⟨hst, rfl⟩
    exact exec_row_and_rxbyte hsel (by decide) (fun hc => nomatch hc)

/-- Settles O15: a late delimiter selects RXB.RESYNC (`State.late_iff`). -/
theorem lateDelimiterRestarts : Obligations.LateDelimiterRestarts := by
  intro s hmid hslow
  have hsel : s.selectRxb 0x7E = .resync := (rxbRow_resync ..).2 ((s.late_iff 0x7E).2 ⟨hmid, rfl, hslow⟩)
  obtain ⟨hrow, hbyte⟩ := exec_row_and_rxbyte hsel (by decide) (fun hc => nomatch hc)
  exact ⟨⟨_, hrow, rfl, rfl, rfl, rfl, rfl, rfl, ⟨rfl, rfl, rfl⟩, rfl⟩,
    _, hbyte, rfl, rfl, rfl, rfl, rfl, rfl, rfl, ⟨rfl, rfl, rfl⟩, rfl⟩

/-- Settles O16: the byte selects RXB.LENHI_BAD. -/
theorem badLengthResets : Obligations.BadLengthResets := by
  intro s b hst hb hlate
  have hsel : s.selectRxb b = .lenhiBad := (rxbRow_lenhiBad ..).2 ⟨hst, hb, State.not_lateDelim hlate⟩
  obtain ⟨hrow, hbyte⟩ := exec_row_and_rxbyte hsel (by decide) (fun hc => nomatch hc)
  exact ⟨⟨_, hrow, rfl, rfl, rfl, rfl, rfl, rfl, rfl, ⟨rfl, rfl, rfl⟩, rfl⟩,
    _, hbyte, rfl, rfl, rfl, rfl, rfl, rfl, rfl, ⟨rfl, rfl, rfl⟩, rfl⟩

/-- Settles O17: the byte selects RXB.LENLO. -/
theorem lowLengthOpensPayload : Obligations.LowLengthOpensPayload := by
  intro s b hst hlate
  have hsel : s.selectRxb b = .lenlo := (rxbRow_lenlo ..).2 ⟨hst, State.not_lateDelim hlate⟩
  exact exec_row_and_rxbyte hsel (by decide) (fun hc => nomatch hc)

/-- What RXB.DATA does to each register (R137); the time is RXBYTE's own. -/
structure DataStored (s t : State) (b : Byte) : Prop where
  stored : t.asm.buf.read s.asm.cnt.toNat = some b
  others : ∀ a, a ≠ s.asm.cnt.toNat → t.asm.buf.read a = s.asm.buf.read a
  csum : t.asm.csum = s.asm.csum - b
  cnt : t.asm.cnt.toNat = s.asm.cnt.toNat + 1
  st : t.asm.st = s.asm.st
  len : t.asm.len = s.asm.len
  draws : t.draws = s.draws

/-- Below the length the count does not wrap (R22, R137). -/
theorem State.rxData_stored {s : State} (b : Byte) (hlt : s.asm.cnt.toNat < s.asm.len.toNat) :
    DataStored s (s.rxData b) b where
  stored := Memory.read_write_same ..
  others _ ha := Memory.read_write_other _ b ha
  csum := rfl
  cnt := by
    have hlen := s.asm.len.isLt
    show (s.asm.cnt + 1).toNat = _
    bv_omega
  st := rfl
  len := rfl
  draws := rfl

/-- Settles O18: the byte selects RXB.DATA, and the recorded time is no part of what is stored (`State.rxData_stored`). -/
theorem dataByteStored : Obligations.DataByteStored := by
  intro s b hst hlt hlate
  have hsel : s.selectRxb b = .data :=
    (rxbRow_data ..).2 ⟨hst, State.not_lateDelim hlate, s.full_eq_false.2 hlt⟩
  have hopen : (s.quiet.rxRow b .data).asm.st ≠ .complete := by simp [State.rxRow, State.rxData, hst]
  obtain ⟨hrow, hbyte⟩ := exec_row_and_rxbyte hsel (by decide) hopen
  have hd : DataStored s.quiet (s.quiet.rxData b) b := State.rxData_stored b hlt
  refine ⟨⟨_, hrow, rfl⟩, ⟨_, hbyte, rfl⟩, fun t ht => ?_⟩
  obtain rfl | rfl : t = s.quiet.rxData b ∨ t = (s.quiet.rxData b).recordTime :=
    ht.imp (fun h => Host.Outcome.next.inj (h.symm.trans hrow)) fun h => Host.Outcome.next.inj (h.symm.trans hbyte)
  all_goals
    exact ⟨hd.stored, hd.others, hd.csum, hd.cnt, hd.st.trans hst, hd.len, rfl, rfl, hd.draws, ⟨rfl, rfl, rfl⟩, rfl⟩

/-- Settles O19: the byte selects RXB.CSUM_OK, and a stand-alone ASM hands nothing over. -/
theorem validChecksumCompletes : Obligations.ValidChecksumCompletes := by
  intro s hst hcnt hlate
  have hsel : s.selectRxb s.asm.csum = .csumOk :=
    (rxbRow_csumOk ..).2 ⟨hst, State.not_lateDelim hlate, State.full_of_cnt_eq hcnt, beq_self_eq_true _⟩
  have hrow := exec_row hsel
  refine ⟨hrow, fun halone => exec_rxbyte_row hsel (by decide) (by simp [halone]), fun t ht => ?_⟩
  cases hrow.symm.trans ht
  refine ⟨rfl, ?_, rfl⟩
  obtain ⟨-, -, -, -, hcomplete⟩ := bytesAppendedTable s.quiet.rxCsumOk
  exact hcomplete rfl

/-- Settles O20: the byte selects RXB.CSUM_BAD. -/
theorem invalidChecksumDiscards : Obligations.InvalidChecksumDiscards := by
  intro s b hst hcnt hb hlate
  have hsel : s.selectRxb b = .csumBad :=
    (rxbRow_csumBad ..).2 ⟨hst, State.not_lateDelim hlate, State.full_of_cnt_eq hcnt, beq_eq_false_iff_ne.2 hb⟩
  obtain ⟨hrow, hbyte⟩ := exec_row_and_rxbyte hsel (by decide) (fun hc => nomatch hc)
  exact ⟨⟨_, hrow, rfl, rfl, rfl, rfl, rfl, rfl, rfl, ⟨rfl, rfl, rfl⟩, rfl⟩,
    _, hbyte, rfl, rfl, rfl, rfl, rfl, rfl, rfl, ⟨rfl, rfl, rfl⟩, rfl⟩

/-- Settles O21: in Complete every byte selects RXB.DROP. -/
theorem completeDropsEveryByte : Obligations.CompleteDropsEveryByte :=
  fun s b hst => ⟨exec_row (s := s) ((rxbRow_drop ..).2 hst), exec_rxbyte_complete b hst⟩

/-- Settles O26: ASM_RESET is *clear* on the quiet state. -/
theorem asmResetClears : Obligations.AsmResetClears :=
  fun _ => ⟨_, rfl, rfl, rfl, rfl, rfl, rfl, rfl, rfl, rfl, ⟨rfl, rfl, rfl⟩, rfl, rfl, rfl⟩

/-! ### The hand-over -/

/-- Settles O12: RXBYTE is its case and then the end that R130 gives it (`State.receive_eq_finishRx`); only RXB.CSUM_OK,
which notes nothing, completes a frame (`State.rxRow_complete`). -/
theorem rxbyteRunsSelectedCase : Obligations.RxbyteRunsSelectedCase := by
  intro s b
  have hrow : s.selectRxb b ≠ .drop → s.quiet.receive b = (s.quiet.rxRow b (s.selectRxb b)).finishRx :=
    State.receive_eq_finishRx (s := s.quiet) rfl
  have hf := s.quiet.rxRow_rowFrame b (s.selectRxb b)
  refine ⟨_, _, rfl, exec_selected_row s b, fun hd => ?_, fun hd hopen => ?_, fun hd hc hrtr => ?_⟩
  · rw [hd]
    exact if_pos hd
  · rw [hrow hd, State.finishRx_of_open (by rwa [hf.par]), State.recordTime, hf.now]
    rfl
  · have hsel : s.selectRxb b = .csumOk := State.rxRow_complete (s := s.quiet) hd hc
    rw [hrow hd, State.finishRx_of_complete ⟨hc, by rwa [hf.par]⟩, hsel]
    exact if_pos (by simp [State.rxRow, State.rxCsumOk, hrtr])

/-- The case of ROUTE that a class names, as an instruction of its own (R210; log 6). -/
theorem exec_class (cls : RtClass) (s : State) : exec cls.toInstr s = s.routeCase cls (routeAct cls) := by
  cases cls <;> rfl

/-- With RTR attached, the case of an exposed frame's class performed alone routes the frame (R210). -/
theorem exec_class_of_exposed {s : State} {f : Frame} (hf : s.exposed = some f) (hrtr : s.par.rtrAttached = true) :
    exec (rtClass s.par.codes f.region).toInstr s = .next (s.quiet.route f) := by
  rw [exec_class, State.routeCase_eq_next]
  exact ⟨f, hf, hrtr, rfl, State.route_eq_routeAct ..⟩

/-- Settles O23: both route the exposed frame on the quiet state (`exec_class_of_exposed`). -/
theorem routeAndClearRoutesThenClears : Obligations.RouteAndClearRoutesThenClears := by
  intro s f hf hrtr
  obtain ⟨hst, hframe⟩ := State.exposed_eq_some.1 hf
  have hexec : exec .routeAndClear s = .next s.quiet.routeAndClear := if_pos (by simp [hst, hrtr])
  have hroute : s.quiet.routeAndClear = (s.quiet.route f).clear := by
    rw [State.routeAndClear, State.quiet_frame, hframe]
  have hkeep := exec_execFrame hexec
  refine ⟨_, _, hexec, exec_class_of_exposed hf hrtr, ?_, ?_, ?_, ⟨hkeep.par, hkeep.now, hkeep.inputs⟩,
    rfl, rfl, rfl, rfl⟩ <;> rw [hroute] <;> rfl

end Sys2Proof.Machine
end

section
/-! Who changes ASM, and how `asm.st` moves (R141, R145). -/

namespace Sys2Proof.Machine

/-! ### The operations -/

theorem State.sendAsync_asm (s : State) (ty : Byte) (body : List Byte) (cb : Option Byte) :
    (s.sendAsync ty body cb).asm = s.asm := by
  unfold State.sendAsync
  split_ifs <;> rfl

/-- What an operation does to ASM: nothing, *clear*, or the RXBYTEs of received bytes (R110). -/
theorem exec_operation_asm {i : Instr} {s t : State} (hop : i.isOperation = true) (h : exec i s = .next t) :
    t.asm = s.asm ∨ ((i = .asmReset ∨ i = .reset) ∧ t.asm = s.clear.asm) ∨
      (((∃ b, i = .rxbyte b) ∨ ∃ r, i = .frame r) ∧ ∃ l : List Byte, t = l.foldl State.receive s.quiet) := by
  cases i with
  | rxbyte b => cases h; exact .inr (.inr ⟨.inl ⟨b, rfl⟩, [b], rfl⟩)
  | frame r => cases h; exact .inr (.inr ⟨.inr ⟨r, rfl⟩, serialize r, rfl⟩)
  | asmReset => cases h; exact .inr (.inl ⟨.inl rfl, rfl⟩)
  | reset => cases h; exact .inr (.inl ⟨.inr rfl, rfl⟩)
  | sendAsync | sendAt | sendRemoteAt | sendData => cases h; exact .inl (s.quiet.sendAsync_asm _ _ _)
  | sendFf ty body =>
    simp only [exec, execSendFf] at h
    split_ifs at h <;> (cases h; exact .inl rfl)
  | sendSync ty body k =>
    simp only [exec, execSendSync] at h
    split_ifs at h <;> (cases h; exact .inl rfl)
  | syncExpire k =>
    simp only [exec, execSyncExpire] at h
    split at h
    · split_ifs at h
      cases h
      exact .inl rfl
    · cases h
  | subscribe sel =>
    simp only [exec, execSubscribe] at h
    split at h <;> (cases h; exact .inl rfl)
  | nop | allocId | serialize | reservedB | reservedC | reservedD | reservedE | reservedF => cases h; exact .inl rfl
  | _ => cases hop

/-- With RTR attached an RXBYTE outside Complete ends outside Complete: a completed frame is handed over (R141). -/
theorem State.receive_not_complete {s : State} (hrtr : s.par.rtrAttached = true) (hst : s.asm.st ≠ .complete) (b : Byte) :
    (s.receive b).asm.st ≠ .complete := by
  rcases s.receive_cases b with ⟨hd, -⟩ | ⟨-, u, -, ⟨-, -, h⟩ | ⟨hopen, h⟩⟩
  · exact absurd ((rxbRow_drop ..).1 hd) hst
  · rw [h]
    exact fun hc => nomatch hc
  · rw [h]
    exact fun hc => hopen ⟨hc, hrtr⟩

theorem State.receiveAll_not_complete {s : State} (hrtr : s.par.rtrAttached = true) (hst : s.asm.st ≠ .complete)
    (l : List Byte) : (l.foldl State.receive s).asm.st ≠ .complete := by
  induction l generalizing s with
  | nil => exact hst
  | cons b l ih => exact ih ((s.receive_execFrame b).par ▸ hrtr) (State.receive_not_complete hrtr hst b)

/-- Settles O24, by what an operation does to ASM (`exec_operation_asm`). -/
theorem neverCompleteBetweenOperations : Obligations.NeverCompleteBetweenOperations := by
  intro i s t hop hrtr hst h
  rcases exec_operation_asm hop h with e | ⟨-, e⟩ | ⟨-, l, rfl⟩
  · rwa [e]
  · rw [e]
    exact fun hc => nomatch hc
  · exact State.receiveAll_not_complete (s := s.quiet) hrtr hst l

/-! ### The transitions of RXBYTE -/

/-- The table of R145, with ROUTE_AND_CLEAR inside the RXBYTE that completes a frame (R141). -/
def asmTransitions : List (AsmSt × AsmSt) :=
  [(.awaitDelimiter, .awaitDelimiter), (.awaitDelimiter, .lengthHigh), (.lengthHigh, .lengthLow),
   (.lengthHigh, .awaitDelimiter), (.lengthHigh, .lengthHigh), (.lengthLow, .payload), (.lengthLow, .lengthHigh),
   (.payload, .payload), (.payload, .complete), (.payload, .awaitDelimiter), (.payload, .lengthHigh),
   (.complete, .complete)]

/-- The states that the selected case moves `asm.st` between (R145). -/
theorem State.rxRow_transition {s : State} {b : Byte} {row : RxbRow} (h : s.selectRxb b = row) :
    (s.asm.st, (s.rxRow b row).asm.st) ∈ asmTransitions := by
  unfold State.selectRxb at h
  cases row with
  | drop =>
    have hst := (rxbRow_drop ..).1 h
    simp [State.rxRow, State.rxDrop, hst, asmTransitions]
  | resync =>
    obtain ⟨hmid, -⟩ := (rxbRow_resync ..).1 h
    rcases s.midFrame_iff.1 hmid with hst | hst | hst <;> simp [State.rxRow, State.rxResync, hst, asmTransitions]
  | start =>
    obtain ⟨hst, -⟩ := (rxbRow_start ..).1 h
    simp [State.rxRow, State.rxStart, hst, asmTransitions]
  | skip =>
    obtain ⟨hst, -⟩ := (rxbRow_skip ..).1 h
    simp [State.rxRow, State.rxSkip, hst, asmTransitions]
  | lenhiOk =>
    obtain ⟨hst, -⟩ := (rxbRow_lenhiOk ..).1 h
    simp [State.rxRow, State.rxLenhiOk, hst, asmTransitions]
  | lenhiBad =>
    obtain ⟨hst, -⟩ := (rxbRow_lenhiBad ..).1 h
    simp [State.rxRow, State.rxLenhiBad, hst, asmTransitions]
  | lenlo =>
    obtain ⟨hst, -⟩ := (rxbRow_lenlo ..).1 h
    simp [State.rxRow, State.rxLenlo, hst, asmTransitions]
  | data =>
    obtain ⟨hst, -⟩ := (rxbRow_data ..).1 h
    simp [State.rxRow, State.rxData, hst, asmTransitions]
  | csumOk =>
    obtain ⟨hst, -⟩ := (rxbRow_csumOk ..).1 h
    simp [State.rxRow, State.rxCsumOk, hst, asmTransitions]
  | csumBad =>
    obtain ⟨hst, -⟩ := (rxbRow_csumBad ..).1 h
    simp [State.rxRow, State.rxCsumBad, hst, asmTransitions]

/-- Settles O25: an RXBYTE makes the transition of its case (`State.rxRow_transition`), or that of RXB.CSUM_OK and the
hand-over together; the other operations by `exec_operation_asm`. -/
theorem onlyListedTransitions : Obligations.OnlyListedTransitions := by
  refine ⟨fun b s t h => ?_, fun i s t h hop ⟨hasm, hreset, hbyte, hframe⟩ => ?_⟩
  · have hrow := State.rxRow_transition (s := s.quiet) (b := b) rfl
    cases h
    rcases s.quiet.receive_cases b with ⟨hd, h⟩ | ⟨hd, u, rfl, ⟨hc, -, h⟩ | ⟨hopen, h⟩⟩ <;> rw [h]
    · have hst : s.asm.st = .complete := (rxbRow_drop ..).1 hd
      simp [State.rxDrop, hst]
    · obtain ⟨hst, -⟩ := (rxbRow_csumOk ..).1 (State.rxRow_complete hd hc)
      have hst : s.asm.st = .payload := hst
      simp [State.routeAndClear, hst]
    · refine ⟨hrow, fun hpair => ?_⟩
      obtain ⟨-, hc⟩ := Prod.mk.inj hpair
      exact Bool.eq_false_iff.2 fun hrtr => hopen ⟨hc, hrtr⟩
  · rcases exec_operation_asm hop h with e | ⟨he | he, -⟩ | ⟨⟨b, he⟩ | ⟨r, he⟩, -⟩
    · exact e
    · exact absurd he hasm
    · exact absurd he hreset
    · exact absurd he (hbyte b)
    · exact absurd he (hframe r)

end Sys2Proof.Machine
end

section
/-! Reception of a whole frame (R143, R144): the header opens a region, each byte in time lengthens it, and the byte after it
completes the frame exactly when it is the checksum. -/

namespace Sys2Proof.Machine

/-! ### Bytes at their times -/

/-- `t` is `s` at the time `n`, with or without the strobes of the operation before: what an RXBYTE of a sequence starts
from. -/
structure Sampled (s : State) (n : Time) (t : State) : Prop where
  asm : t.asm = s.asm
  dsp : t.dsp = s.dsp
  sub : t.sub = s.sub
  par : t.par = s.par
  draws : t.draws = s.draws
  now : t.now = n
  out : t.out = s.out ∨ t.out = s.quiet.out

/-- RXBYTEs one after another, each from the state that `sample` makes at the byte's time. -/
def receiveAt (sample : State → Time → State) (s : State) (x : Byte × Time) : State := (sample s x.2).receive x.1

/-- An RXBYTE of its own: the time is sampled and the strobes of the operation before are over (R102, R107). -/
def sampleOperation (s : State) (n : Time) : State := ({ s with now := n } : State).quiet

/-- An RXBYTE inside FRAME: the outputs are those of all its bytes (log 7). -/
def sampleInFrame (s : State) (n : Time) : State := { s with now := n }

theorem sampleOperation_sampled (s : State) (n : Time) : Sampled s n (sampleOperation s n) :=
  ⟨rfl, rfl, rfl, rfl, rfl, rfl, .inr rfl⟩

theorem sampleInFrame_sampled (s : State) (n : Time) : Sampled s n (sampleInFrame s n) :=
  ⟨rfl, rfl, rfl, rfl, rfl, rfl, .inl rfl⟩

/-- Feeding bytes always completes (R130). -/
theorem feed_eq_foldl (bytes : List (Byte × Time)) (s : State) :
    feed bytes s = .next (bytes.foldl (receiveAt sampleOperation) s) := by
  induction bytes generalizing s with
  | nil => rfl
  | cons x bytes ih => exact ih (receiveAt sampleOperation s x)

/-- The bytes of FRAME come all at one time (R112, R144). -/
theorem foldl_receive_eq_receiveAt (l : List Byte) (s : State) :
    l.foldl State.receive s = (l.map (·, s.now)).foldl (receiveAt sampleInFrame) s := by
  induction l generalizing s with
  | nil => rfl
  | cons b l ih =>
    have hnow : (s.receive b).now = s.now := (s.receive_execFrame b).now
    have htail := ih (s.receive b)
    rw [hnow] at htail
    exact htail

/-- The byte of `y` is no delimiter, or comes at most `RESYNC_TICKS` after the byte of `x` (R133). -/
def InTime (x y : Byte × Time) : Prop := ¬(y.1 = 0x7E ∧ 1000 < (y.2 - x.2).toNat)

theorem inTime_of_timely {bytes : List (Byte × Time)} (h : timely bytes) : bytes.IsChain InTime :=
  h.imp fun _ _ hle hlate => not_lt.2 hle hlate.2

theorem inTime_of_no_delimiter {l : List (Byte × Time)} (x : Byte × Time) (h : (0x7E : Byte) ∉ l.map Prod.fst) :
    (x :: l).IsChain InTime := by
  induction l generalizing x with
  | nil => exact .singleton x
  | cons y l ih =>
    simp only [List.map_cons, List.mem_cons, not_or] at h
    exact .cons_cons (fun hlate => h.1 hlate.1.symm) (ih y h.2)

/-! ### The header and the region while they are received -/

/-- DSP, RTR, the parameters and the TX stream are those of `o`, and nothing is emitted, answered or noted. -/
structure SameOutside (o s : State) : Prop where
  dsp : s.dsp = o.dsp
  sub : s.sub = o.sub
  par : s.par = o.par
  out : s.out = o.quiet.out

theorem SameOutside.refl_quiet (s : State) : SameOutside s s.quiet := ⟨rfl, rfl, rfl, rfl⟩

theorem SameOutside.sample {o s t : State} {n : Time} (h : SameOutside o s) (hs : Sampled s n t) : SameOutside o t :=
  ⟨hs.dsp.trans h.dsp, hs.sub.trans h.sub, hs.par.trans h.par, by
    rcases hs.out with e | e <;> rw [e]
    · exact h.out
    · rw [State.quiet_out, h.out]; rfl⟩

/-- A byte of the header has been received at the time `m`, and nothing else has happened since `o` (R132, R134). -/
structure InHeader (o : State) (a : AsmSt) (m : Time) (s : State) : Prop where
  outside : SameOutside o s
  st : s.asm.st = a
  time : s.asm.tPrev = m

/-- The part `q` of a region of `n` bytes has been received, the last byte at the time `m`, and nothing else has happened since
`o` (R136, R137). -/
structure Collecting (o : State) (n : Nat) (q : List Byte) (m : Time) (s : State) : Prop where
  outside : SameOutside o s
  st : s.asm.st = .payload
  len : s.asm.len.toNat = n
  cnt : s.asm.cnt.toNat = q.length
  csum : s.asm.csum = cks q
  bytes : s.bufBytes q.length = q
  time : s.asm.tPrev = m

theorem InHeader.sample {o s t : State} {a : AsmSt} {m n : Time} (h : InHeader o a m s) (hs : Sampled s n t) :
    InHeader o a m t :=
  ⟨h.outside.sample hs, by rw [hs.asm, h.st], by rw [hs.asm, h.time]⟩

theorem Collecting.sample {o s t : State} {k : Nat} {q : List Byte} {m n : Time} (h : Collecting o k q m s)
    (hs : Sampled s n t) : Collecting o k q m t where
  outside := h.outside.sample hs
  st := by rw [hs.asm, h.st]
  len := by rw [hs.asm, h.len]
  cnt := by rw [hs.asm, h.cnt]
  csum := by rw [hs.asm, h.csum]
  bytes := by
    refine (State.bufBytes_congr fun i _ => ?_).trans h.bytes
    rw [State.bufByte, State.bufByte, hs.asm, hs.draws]
  time := by rw [hs.asm, h.time]

/-- The delimiter opens the header (R132). -/
theorem SameOutside.receive_delimiter {o s : State} {n : Time} (h : SameOutside o s)
    (hst : s.asm.st = .awaitDelimiter) (hnow : s.now = n) : InHeader o .lengthHigh n (s.receive 0x7E) := by
  rw [State.receive_of_open (row := .start) ((rxbRow_start ..).2 ⟨hst, rfl⟩) (by decide) (fun hc => nomatch hc)]
  exact ⟨⟨h.dsp, h.sub, h.par, h.out⟩, rfl, hnow⟩

/-- The zero high length byte (R134). -/
theorem InHeader.receive_lenhi {o s : State} {m n : Time} (h : InHeader o .lengthHigh m s) (hnow : s.now = n) :
    InHeader o .lengthLow n (s.receive 0x00) := by
  rw [State.receive_of_open (row := .lenhiOk) ((rxbRow_lenhiOk ..).2 ⟨h.st, rfl⟩) (by decide) (fun hc => nomatch hc)]
  obtain ⟨hdsp, hsub, hpar, hout⟩ := h.outside
  exact ⟨⟨hdsp, hsub, hpar, hout⟩, rfl, hnow⟩

/-- The low length byte opens the region (R136). -/
theorem InHeader.receive_lenlo {o s : State} {m n : Time} {b : Byte} (h : InHeader o .lengthLow m s) (hnow : s.now = n)
    (hlate : ¬(b = 0x7E ∧ 1000 < (n - m).toNat)) : Collecting o b.toNat [] n (s.receive b) := by
  have hsel : s.selectRxb b = .lenlo :=
    (rxbRow_lenlo ..).2 ⟨h.st, State.not_lateDelim (by rwa [h.time, hnow])⟩
  rw [State.receive_of_open hsel (by decide) (fun hc => nomatch hc)]
  obtain ⟨hdsp, hsub, hpar, hout⟩ := h.outside
  exact ⟨⟨hdsp, hsub, hpar, hout⟩, rfl, rfl, rfl, rfl, rfl, hnow⟩

/-- A byte below the length lengthens the region (R137). -/
theorem Collecting.receive_data {o s : State} {k : Nat} {q : List Byte} {m n : Time} {b : Byte}
    (h : Collecting o k q m s) (hlt : q.length < k) (hnow : s.now = n)
    (hlate : ¬(b = 0x7E ∧ 1000 < (n - m).toNat)) : Collecting o k (q ++ [b]) n (s.receive b) := by
  have hlt' : s.asm.cnt.toNat < s.asm.len.toNat := by rwa [h.cnt, h.len]
  have hsel : s.selectRxb b = .data :=
    (rxbRow_data ..).2 ⟨h.st, State.not_lateDelim (by rwa [h.time, hnow]), s.full_eq_false.2 hlt'⟩
  have hd := State.rxData_stored b hlt'
  have hst : (s.rxData b).asm.st = .payload := hd.st.trans h.st
  rw [State.receive_of_open hsel (by decide) (by rw [State.rxRow, hst]; decide)]
  obtain ⟨hdsp, hsub, hpar, hout⟩ := h.outside
  have hbytes : (s.rxData b).bufBytes (q ++ [b]).length = q ++ [b] := by
    have hold : (s.rxData b).bufBytes q.length = s.bufBytes q.length :=
      State.bufBytes_congr fun i hi => by rw [State.rxData_bufByte, if_neg (by rw [h.cnt]; exact hi.ne)]
    rw [List.length_append, List.length_singleton, State.bufBytes_succ, hold, h.bytes, State.rxData_bufByte,
      if_pos h.cnt.symm]
  have hcnt : (s.rxData b).asm.cnt.toNat = (q ++ [b]).length := by
    rw [hd.cnt, h.cnt, List.length_append, List.length_singleton]
  have hcsum : (s.rxData b).asm.csum = cks (q ++ [b]) := by rw [hd.csum, h.csum, cks_append_byte]
  exact ⟨⟨hdsp, hsub, hpar, hout⟩, hst, h.len, hcnt, hcsum, hbytes, hnow⟩

/-! ### The whole frame -/

section
variable {sample : State → Time → State} (hs : ∀ s n, Sampled s n (sample s n))
include hs

/-- The rest of a region is collected, and the byte after it comes in time. -/
theorem Collecting.foldl_data {o s : State} {n : Nat} {q : List Byte} {x z : Byte × Time} {data : List (Byte × Time)}
    (h : Collecting o n q x.2 s) (hlen : q.length + data.length = n) (htime : (x :: (data ++ [z])).IsChain InTime) :
    ∃ u m, Collecting o n (q ++ data.map Prod.fst) m u ∧ ¬(z.1 = 0x7E ∧ 1000 < (u.now - m).toNat) ∧
      (data ++ [z]).foldl (receiveAt sample) s = u.receive z.1 := by
  induction data generalizing s q x with
  | nil =>
    have hz : InTime x z := (List.isChain_cons_cons.1 htime).1
    refine ⟨sample s z.2, x.2, ?_, by rw [(hs s z.2).now]; exact hz, rfl⟩
    rw [List.map_nil, List.append_nil]
    exact h.sample (hs s z.2)
  | cons d data ih =>
    obtain ⟨hd, hrest⟩ := List.isChain_cons_cons.1 htime
    rw [List.length_cons] at hlen
    have hnext := (h.sample (hs s d.2)).receive_data (by omega) (hs s d.2).now hd
    obtain ⟨u, m, hu, hlate, hfold⟩ := ih hnext (by rw [List.length_append, List.length_singleton]; omega) hrest
    exact ⟨u, m, by simpa using hu, hlate, hfold⟩

/-- A whole frame up to the byte after its region (R132, R134, R136, R137). -/
theorem foldl_frame {s : State} {r : List Byte} {c : Byte} {bytes : List (Byte × Time)} (hst : s.asm.st = .awaitDelimiter)
    (hlen : r.length ≤ 255) (hbytes : bytes.map Prod.fst = [0x7E, 0x00, BitVec.ofNat 8 r.length] ++ r ++ [c])
    (htime : bytes.IsChain InTime) :
    ∃ u m, Collecting s r.length r m u ∧ ¬(c = 0x7E ∧ 1000 < (u.now - m).toNat) ∧
      bytes.foldl (receiveAt sample) s.quiet = u.receive c := by
  obtain ⟨front, last, rfl, hfront, hlast⟩ := List.map_eq_append_iff.1 hbytes
  obtain ⟨header, data, rfl, hheader, rfl⟩ := List.map_eq_append_iff.1 hfront
  obtain ⟨⟨_, n₀⟩, _, rfl, rfl, hlength⟩ := List.map_eq_cons_iff.1 hheader
  obtain ⟨⟨_, n₁⟩, _, rfl, rfl, hlow⟩ := List.map_eq_cons_iff.1 hlength
  obtain ⟨⟨_, n₂⟩, _, rfl, rfl, hdone⟩ := List.map_eq_cons_iff.1 hlow
  obtain ⟨z, _, rfl, rfl, hnone⟩ := List.map_eq_cons_iff.1 hlast
  obtain rfl := List.map_eq_nil_iff.1 hdone
  obtain rfl := List.map_eq_nil_iff.1 hnone
  simp only [List.cons_append, List.nil_append, List.isChain_cons_cons] at htime
  obtain ⟨-, hlo, hrest⟩ := htime
  have hstart := (SameOutside.refl_quiet s).sample (hs s.quiet n₀)
  have hopen := hstart.receive_delimiter (by rw [(hs s.quiet n₀).asm]; exact hst) (hs s.quiet n₀).now
  have hhigh := (hopen.sample (hs _ n₁)).receive_lenhi (hs _ n₁).now
  have hlow := (hhigh.sample (hs _ n₂)).receive_lenlo (hs _ n₂).now hlo
  rw [BitVec.toNat_ofNat, Nat.mod_eq_of_lt (by omega)] at hlow
  exact hlow.foldl_data hs (by simp) hrest

end

/-! ### The byte after the region -/

/-- The whole region stands at the checksum position (R98 rows 9 and 10). -/
theorem Collecting.full {o s : State} {r : List Byte} {m : Time} (h : Collecting o r.length r m s) : s.full = true :=
  s.full_eq_true.2 (by rw [h.len, h.cnt])

/-- The checksum selects RXB.CSUM_OK (R138). -/
theorem Collecting.select_checksum {o s : State} {r : List Byte} {m : Time} (h : Collecting o r.length r m s)
    (hlate : ¬(cks r = 0x7E ∧ 1000 < (s.now - m).toNat)) : s.selectRxb (cks r) = .csumOk :=
  (rxbRow_csumOk ..).2 ⟨h.st, State.not_lateDelim (by rwa [h.time]), h.full, by rw [h.csum]; exact beq_self_eq_true _⟩

/-- Every other byte selects RXB.CSUM_BAD (R139). -/
theorem Collecting.select_other {o s : State} {r : List Byte} {m : Time} {c : Byte} (h : Collecting o r.length r m s)
    (hc : c ≠ cks r) (hlate : ¬(c = 0x7E ∧ 1000 < (s.now - m).toNat)) : s.selectRxb c = .csumBad :=
  (rxbRow_csumBad ..).2 ⟨h.st, State.not_lateDelim (by rwa [h.time]), h.full,
    by rw [h.csum]; exact beq_eq_false_iff_ne.2 hc⟩

/-- The Frame that RXB.CSUM_OK exposes (R28, R138). -/
theorem Collecting.exposed {o s : State} {r : List Byte} {m : Time} (h : Collecting o r.length r m s) :
    s.rxCsumOk.recordTime.exposed = some ⟨r, cks r⟩ := by
  have hbytes : s.bufBytes s.asm.len.toNat = r := by rw [h.len, h.bytes]
  refine State.exposed_eq_some.2 ⟨rfl, ?_⟩
  show (⟨s.bufBytes s.asm.len.toNat, s.asm.csum⟩ : Frame) = _
  rw [hbytes, h.csum]

/-! ### The acceptance law -/

/-- What the outputs have kept of `o` is its TX stream. -/
theorem SameOutside.dsp_sub_tx {o s : State} (h : SameOutside o s) :
    s.dsp = o.dsp ∧ s.sub = o.sub ∧ s.out.tx = o.out.tx :=
  ⟨h.dsp, h.sub, by rw [h.out]; rfl⟩

/-- RXBYTEs of their own do not see the strobes of the operation before them. -/
theorem feed_eq_foldl_quiet {bytes : List (Byte × Time)} (s : State) (h : bytes ≠ []) :
    feed bytes s = .next (bytes.foldl (receiveAt sampleOperation) s.quiet) := by
  rw [feed_eq_foldl]
  cases bytes with
  | nil => exact absurd rfl h
  | cons x bytes => rfl

/-- Either premise of the acceptance law rules out late delimiters (R143). -/
theorem inTime_of_premise {bytes : List (Byte × Time)} {l : List Byte} (hbytes : bytes.map Prod.fst = [0x7E, 0x00] ++ l)
    (h : timely bytes ∨ (0x7E : Byte) ∉ l) : bytes.IsChain InTime := by
  rcases h with h | h
  · exact inTime_of_timely h
  · obtain ⟨x, rest, rfl, -, hrest⟩ := List.map_eq_cons_iff.1 hbytes
    refine inTime_of_no_delimiter x ?_
    rw [hrest]
    simpa using h

/-- Settles O27: the region is collected whatever it is (`foldl_frame`, by induction over the region), and the byte after it
selects RXB.CSUM_OK or RXB.CSUM_BAD. -/
theorem acceptanceLaw : Obligations.AcceptanceLaw := by
  intro s r c bytes hst halone hlen hbytes htime
  obtain ⟨u, m, hu, hlate, hfold⟩ :=
    foldl_frame sampleOperation_sampled hst hlen hbytes (inTime_of_premise hbytes htime)
  have hne : bytes ≠ [] := by rintro rfl; cases hbytes
  have hfeed : feed bytes s = .next (u.receive c) := by rw [feed_eq_foldl_quiet s hne, hfold]
  obtain ⟨hdsp, hsub, htx⟩ := hu.outside.dsp_sub_tx
  refine ⟨_, hfeed, ?_⟩
  by_cases hc : c = cks r
  · subst hc
    have halone' : u.par.rtrAttached ≠ true := by simp [hu.outside.par, halone]
    have hrec : u.receive (cks r) = u.rxCsumOk.recordTime :=
      (State.receive_eq_finishRx (hu.select_checksum hlate) (by decide)).trans
        (State.finishRx_of_open fun h => halone' h.2)
    rw [hrec]
    exact ⟨hdsp, hsub, htx, fun _ => hu.exposed, fun h => absurd rfl h⟩
  · have hrec : u.receive c = u.rxCsumBad.recordTime :=
      State.receive_of_open (hu.select_other hc hlate) (by decide) (fun h => nomatch h)
    rw [hrec]
    exact ⟨hdsp, hsub, htx, fun h => absurd h hc, fun _ => rfl⟩

/-! ### FRAME -/

/-- Bytes that come at one time are in time (R112, R144). -/
theorem inTime_of_one_time (l : List Byte) (n : Time) : (l.map (·, n)).IsChain InTime := by
  rw [List.isChain_map, List.isChain_iff_getElem]
  intro _ _ hlate
  simp at hlate

/-- The bytes of a frame with a length that 8 bits express (R91, R160). -/
theorem serialize_eq {r : List Byte} (h : r.length ≤ 255) :
    serialize r = [0x7E, 0x00, BitVec.ofNat 8 r.length] ++ r ++ [cks r] := by
  have hhi : lenHiByte r.length = 0x00 := by rw [lenHiByte, Nat.div_eq_of_lt (by omega)]; rfl
  rw [serialize, hhi]
  rfl

/-- Ending the strobes changes nothing where none is up. -/
theorem State.quiet_eq_self {o s : State} (h : s.out = o.quiet.out) : s.quiet = s := by
  rw [State.quiet, h, State.quiet_out, ← State.quiet_out, ← h]

/-- FRAME of an XFA as a whole is the collection of its region, then RXB.CSUM_OK, the time and the hand-over (R130, R141). -/
theorem exec_frame {s : State} {r : List Byte} (hst : s.asm.st = .awaitDelimiter) (hrtr : s.par.rtrAttached = true)
    (hlen : r.length ≤ 255) :
    ∃ w m, Collecting s r.length r m w ∧ exec (.frame r) s = .next w.rxCsumOk.recordTime.routeAndClear := by
  have hbytes : ((serialize r).map (·, s.now)).map Prod.fst = [0x7E, 0x00, BitVec.ofNat 8 r.length] ++ r ++ [cks r] := by
    rw [List.map_map, ← serialize_eq hlen]
    exact List.map_id _
  obtain ⟨w, m, hw, hlate, hfold⟩ :=
    foldl_frame sampleInFrame_sampled hst hlen hbytes (inTime_of_one_time (serialize r) s.now)
  have hatt : w.rxCsumOk.par.rtrAttached = true := by rw [← hrtr, ← hw.outside.par]; rfl
  have hrec : w.receive (cks r) = w.rxCsumOk.recordTime.routeAndClear :=
    (State.receive_eq_finishRx (hw.select_checksum hlate) (by decide)).trans (State.finishRx_of_complete ⟨rfl, hatt⟩)
  refine ⟨w, m, hw, ?_⟩
  rw [← hrec, ← hfold]
  exact congrArg Host.Outcome.next (foldl_receive_eq_receiveAt (serialize r) s.quiet)

/-- Settles O28: the completed frame is handed over in a state with no strobe up (`exec_frame`), in which the router's case
performed alone routes the same Frame (`exec_class_of_exposed`). -/
theorem receivedFrameIsRouted : Obligations.ReceivedFrameIsRouted := by
  intro s r hst hrtr hlen
  obtain ⟨w, m, hw, hexec⟩ := exec_frame hst hrtr hlen
  have hexp := hw.exposed
  have hout : SameOutside s w.rxCsumOk.recordTime := ⟨hw.outside.dsp, hw.outside.sub, hw.outside.par, hw.outside.out⟩
  generalize w.rxCsumOk.recordTime = u at hexec hexp hout
  obtain ⟨hdsp, hsub, htx⟩ := hout.dsp_sub_tx
  obtain ⟨-, hframe⟩ := State.exposed_eq_some.1 hexp
  have hcase := exec_class_of_exposed hexp (by rw [hout.par, hrtr])
  rw [hout.par, State.quiet_eq_self hout.out] at hcase
  rw [State.routeAndClear, hframe] at hexec
  have hkeep := exec_execFrame hexec
  exact ⟨_, u, _, hexec, hexp, hdsp, hsub, hout.par, htx, hcase, rfl, rfl, rfl, ⟨hkeep.par, hkeep.now, hkeep.inputs⟩,
    rfl, rfl, rfl, rfl⟩

end Sys2Proof.Machine
end

section
/-! SER (R160): SERIALIZE only extends the TX stream. -/

namespace Sys2Proof.Machine

/-- SERIALIZE replaces the outputs only: one frame more on the TX stream, `res_ok`, and no other strobe (R160). -/
theorem exec_serialize (r : List Byte) (s : State) :
    exec (.serialize r) s =
      .next { s with out := { s.outAfter [] (some ⟨true, none⟩) [] with tx := s.out.tx ++ txFrame r } } := rfl

/-- Settles O29: the outputs are those of `exec_serialize`, and the frame's bytes are those of `serialize_eq`. -/
theorem serializeAppendsOneFrame : Obligations.SerializeAppendsOneFrame := by
  intro s r hlen
  refine ⟨_, exec_serialize r s, ?_, rfl, rfl, rfl⟩
  rw [txFrame, serialize_eq hlen, cks, sumBytes]

end Sys2Proof.Machine
end

section
/-! The allocator and the senders (R171 to R176, R180 to R182, R190): what a refused and an accepted send are, and the cycle of
the IDs. -/

namespace Sys2Proof.Machine

/-! ### The allocator -/

/-- ALLOC_ID answers the counter and advances it in the band (R172). -/
theorem exec_allocId (s : State) :
    exec .allocId s = .next { s with
      dsp := { s.dsp with nextId := nextInBand s.par s.dsp.nextId }
      out := s.outAfter [] (some ⟨true, some s.dsp.nextId⟩) [] } := rfl

/-- The two values of `ID_LO` (R9). -/
theorem IdBand.lo_toNat (b : IdBand) : b.lo.toNat = 1 ∨ b.lo.toNat = 2 := by
  cases b
  · exact .inl rfl
  · exact .inr rfl

/-- `ID_NONE` is outside the band (R9). -/
theorem ne_zero_of_inBand {p : Params} {id : Byte} (h : inBand p id.toNat) : id ≠ 0 := by
  rintro rfl
  have hlo : p.idBand.lo.toNat ≤ 0 := h.1
  have := IdBand.lo_toNat p.idBand
  omega

/-- Settles O30: the answer is that of `exec_allocId`. -/
theorem allocIdReturnsAndAdvances : Obligations.AllocIdReturnsAndAdvances :=
  fun s hband => ⟨exec_allocId s, ne_zero_of_inBand hband⟩

/-- The ID that the allocator hands out at the `c`-th turn from `ID_LO` (R171). -/
def cycleId (p : Params) (c : Nat) : Byte :=
  BitVec.ofNat 8 (p.idBand.lo.toNat + c % (10 - p.idBand.lo.toNat))

theorem cycleId_zero (p : Params) : cycleId p 0 = p.idBand.lo := by
  simp [cycleId]

theorem cycleId_toNat (p : Params) (c : Nat) :
    (cycleId p c).toNat = p.idBand.lo.toNat + c % (10 - p.idBand.lo.toNat) := by
  rw [cycleId, BitVec.toNat_ofNat]
  rcases IdBand.lo_toNat p.idBand with hlo | hlo <;> rw [hlo] <;> omega

/-- The allocator steps through the cycle. -/
theorem nextInBand_cycleId (p : Params) (c : Nat) : nextInBand p (cycleId p c) = cycleId p (c + 1) := by
  have hc := cycleId_toNat p c
  have hsucc := cycleId_toNat p (c + 1)
  unfold nextInBand
  rcases IdBand.lo_toNat p.idBand with hlo | hlo <;> rw [hlo] at hc hsucc <;> split_ifs <;> bv_omega

/-- From the `c`-th turn of the cycle, the `k`-th of successive ALLOC_IDs returns the ID of turn `c + k`. -/
theorem allocated_getElem? {s : State} {n k c : Nat} (hid : s.dsp.nextId = cycleId s.par c) (hk : k < n) :
    (allocated n s)[k]? = some (some (cycleId s.par (c + k))) := by
  induction n generalizing s k c with
  | zero => exact absurd hk (Nat.not_lt_zero k)
  | succ n ih =>
    simp only [allocated, exec_allocId]
    cases k with
    | zero => rw [hid]; rfl
    | succ k =>
      rw [List.getElem?_cons_succ, ← Nat.add_assoc, Nat.add_right_comm]
      exact ih ((congrArg (nextInBand s.par) hid).trans (nextInBand_cycleId s.par c)) (Nat.lt_of_succ_lt_succ hk)

/-- Settles O31, by induction on the number of ALLOC_IDs (`allocated_getElem?`), from turn 0 of the cycle. -/
theorem allocationCyclesThroughBand : Obligations.AllocationCyclesThroughBand := by
  intro s n k hid hk
  have h := allocated_getElem? (hid.trans (cycleId_zero s.par).symm) hk
  rwa [Nat.zero_add] at h

/-! ### The slot of a correlated send -/

/-- The slot of the counter's ID holds the callback (R173). -/
theorem State.sendWith_slot_counter {s : State} (hband : inBand s.par s.dsp.nextId.toNat) (ty : Byte) (body : List Byte)
    (cb : Cb) : (s.sendWith ty body cb).dsp.tbl[s.dsp.nextId.toNat]? = some ⟨true, cb⟩ :=
  Vector.getElem?_setIfInBounds_self_of_lt (Nat.lt_succ_of_le hband.2)

/-- Every other slot is as before (R173). -/
theorem State.sendWith_slot_other {s : State} {i : Nat} (hi : i ≠ s.dsp.nextId.toNat) (ty : Byte) (body : List Byte)
    (cb : Cb) : (s.sendWith ty body cb).dsp.tbl[i]? = s.dsp.tbl[i]? :=
  Vector.getElem?_setIfInBounds_ne hi.symm

/-! ### Refused sends -/

/-- The answer of a refused send: the outputs, and no state (R176). -/
def refusal (s : State) : Answer := .next { s with out := s.outAfter [] (some ⟨false, none⟩) [.refused] }

/-- SEND_FF of an over-long body. -/
theorem exec_sendFf_long {body : List Byte} (h : 252 < body.length) (s : State) (ty : Byte) :
    exec (.sendFf ty body) s = refusal s := if_pos h

/-- SEND_ASYNC of an over-long body. -/
theorem exec_sendAsync_long {body : List Byte} (h : 252 < body.length) (s : State) (ty : Byte) (cb : Option Byte) :
    exec (.sendAsync ty body cb) s = refusal s :=
  congrArg Host.Outcome.next (if_pos h)

/-- SEND_SYNC is refused on an over-long body, or when waiter `k` is not there or not free. -/
theorem exec_sendSync_refused {s : State} {body : List Byte} {k : Byte} (h : 252 < body.length ∨ s.waiterFree k = false)
    (ty : Byte) : exec (.sendSync ty body k) s = refusal s := by
  refine if_pos ?_
  rcases h with hlong | hbusy
  · simp [hlong]
  · simp [hbusy]

/-- When a waiter is not free (R176). -/
theorem State.waiterFree_eq_false {s : State} {k : Byte}
    (h : s.dsp.w.length ≤ k.toNat ∨ ∃ x, s.dsp.w[k.toNat]? = some x ∧ x.waiting = true) : s.waiterFree k = false := by
  unfold State.waiterFree
  rcases h with hlen | ⟨x, hx, hw⟩
  · simp [List.getElem?_eq_none hlen]
  · simp [hx, hw]

/-- The three command-specific senders are SEND_ASYNC with the type byte fixed (R180, R181, R182). -/
theorem exec_sendAt (body : List Byte) (cb : Option Byte) (s : State) :
    exec (.sendAt body cb) s = exec (.sendAsync s.par.codes.tAtCmd body cb) s := rfl

theorem exec_sendRemoteAt (body : List Byte) (cb : Option Byte) (s : State) :
    exec (.sendRemoteAt body cb) s = exec (.sendAsync s.par.codes.tRemoteAtCmd body cb) s := rfl

theorem exec_sendData (body : List Byte) (cb : Option Byte) (s : State) :
    exec (.sendData body cb) s = exec (.sendAsync s.par.codes.tZbTx body cb) s := rfl

/-- Settles O36: each send's own refusal. -/
theorem refusedSendsChangeNothing : Obligations.RefusedSendsChangeNothing := by
  refine fun s ty k body cb => ⟨fun hlong i hi => ?_, fun hk =>
    exec_sendSync_refused (.inr (State.waiterFree_eq_false hk)) ty⟩
  simp only [List.mem_cons, List.not_mem_nil, or_false] at hi
  rcases hi with rfl | rfl | rfl | rfl | rfl | rfl
  · exact exec_sendFf_long hlong s ty
  · exact exec_sendAsync_long hlong s ty cb
  · rw [exec_sendAt]; exact exec_sendAsync_long hlong s _ cb
  · rw [exec_sendRemoteAt]; exact exec_sendAsync_long hlong s _ cb
  · rw [exec_sendData]; exact exec_sendAsync_long hlong s _ cb
  · exact exec_sendSync_refused (.inl hlong) ty

/-! ### Accepted sends -/

/-- Settles O32: the two branches of SEND_FF. -/
theorem sendFfSendsWithIdZero : Obligations.SendFfSendsWithIdZero :=
  fun s ty _ => ⟨fun hfit => if_neg (not_lt.2 hfit), fun hlong => exec_sendFf_long hlong s ty⟩

/-- SEND_ASYNC of a body that fits (R175). -/
theorem exec_sendAsync_fits {body : List Byte} (h : body.length ≤ 252) (s : State) (ty : Byte) (cb : Option Byte) :
    exec (.sendAsync ty body cb) s = .next (s.quiet.sendWith ty body (cbOf cb)) :=
  congrArg Host.Outcome.next (if_neg (not_lt.2 h))

/-- Settles O33: the slots by `State.sendWith_slot_counter` and `State.sendWith_slot_other`; nothing else but the counter and
the outputs is written. -/
theorem sendAsyncStoresAndSends : Obligations.SendAsyncStoresAndSends := by
  refine fun s ty body cb => ⟨fun hlong => exec_sendAsync_long hlong s ty cb, fun hfit hband =>
    ⟨_, exec_sendAsync_fits hfit s ty cb, ?_, fun i hi => ?_, rfl, rfl, rfl, rfl, rfl, ⟨rfl, rfl, rfl⟩, rfl⟩⟩
  · exact State.sendWith_slot_counter (s := s.quiet) hband ty body (cbOf cb)
  · exact State.sendWith_slot_other (s := s.quiet) hi ty body (cbOf cb)

/-- Settles O34: `exec_sendAt`, `exec_sendRemoteAt` and `exec_sendData`, and the outputs of the accepted SEND_ASYNC. -/
theorem commandSendersAreAsync : Obligations.CommandSendersAreAsync := by
  intro s body cb p hp
  have hasync : exec p.1 s = exec (.sendAsync p.2 body cb) s := by
    simp only [List.mem_cons, List.not_mem_nil, or_false] at hp
    rcases hp with rfl | rfl | rfl
    · exact exec_sendAt body cb s
    · exact exec_sendRemoteAt body cb s
    · exact exec_sendData body cb s
  exact ⟨hasync, fun hfit => ⟨_, hasync.trans (exec_sendAsync_fits hfit s p.2 cb), rfl⟩⟩

/-- SEND_SYNC of a body that fits, to a waiter that is there and free (R190). -/
theorem exec_sendSync_fits {s : State} {body : List Byte} {k : Byte} (h : body.length ≤ 252) (hk : s.waiterFree k = true)
    (ty : Byte) : exec (.sendSync ty body k) s =
      .next ((s.quiet.sendWith ty body (.sync k)).setWaiter k ⟨true, s.dsp.nextId, s.now⟩) :=
  if_neg (by simp [hk, h])

/-- Settles O35: the slots as for SEND_ASYNC, and only waiter `k` is written. -/
theorem sendSyncArmsWaiter : Obligations.SendSyncArmsWaiter := by
  intro s ty body k x hfit hband hx hfree
  have hk : s.waiterFree k = true := by simp [State.waiterFree, hx, hfree]
  refine ⟨_, exec_sendSync_fits hfit hk ty, ?_, fun i hi => ?_, rfl, ?_, fun j hj => ?_, rfl, rfl, rfl, ⟨rfl, rfl, rfl⟩,
    rfl⟩
  · exact State.sendWith_slot_counter (s := s.quiet) hband ty body (.sync k)
  · exact State.sendWith_slot_other (s := s.quiet) hi ty body (.sync k)
  · exact List.getElem?_set_self (State.lt_of_waiterFree hk)
  · exact List.getElem?_set_ne hj.symm

end Sys2Proof.Machine
end

section
/-! The waiters (R190 to R192): the expiry, and who arms and who releases a waiter. -/

namespace Sys2Proof.Machine

/-! ### The expiry (R192) -/

theorem State.expirable_iff {s : State} {x : Waiter} :
    s.expirable x = true ↔ x.waiting = true ∧ 500 ≤ (s.now - x.tStart).toNat := by
  rw [State.expirable, Bool.and_eq_true, decide_eq_true_eq]
  rfl

/-- An enabled SYNC_EXPIRE releases its waiter. -/
theorem exec_syncExpire_enabled {s : State} {k : Byte} {x : Waiter} (hx : s.dsp.w[k.toNat]? = some x)
    (he : s.expirable x = true) :
    exec (.syncExpire k) s = .next (((s.quiet.release k x).emit (.syncNoframe k)).note .sendTimeout) := by
  simp only [exec, execSyncExpire, hx, he, if_true]

/-- Without an enabled waiter SYNC_EXPIRE is refused (log 19). -/
theorem exec_syncExpire_disabled {s : State} {k : Byte} (h : ∀ x, s.dsp.w[k.toNat]? = some x → s.expirable x = false) :
    exec (.syncExpire k) s = .refused (.expireNotEnabled k) := by
  simp only [exec, execSyncExpire]
  split
  · rename_i x hx
    exact if_neg (by simp [h x hx])
  · rfl

/-- A performed SYNC_EXPIRE found its waiter enabled. -/
theorem exec_syncExpire_next {s t : State} {k : Byte} (h : exec (.syncExpire k) s = .next t) :
    ∃ x, s.dsp.w[k.toNat]? = some x ∧ s.expirable x = true ∧
      t = ((s.quiet.release k x).emit (.syncNoframe k)).note .sendTimeout := by
  simp only [exec, execSyncExpire] at h
  split at h
  · rename_i x hx
    split_ifs at h with he
    exact ⟨x, hx, he, (Host.Outcome.next.inj h).symm⟩
  · cases h

/-- Settles O37: an enabled expiry by `exec_syncExpire_enabled`, any other by `exec_syncExpire_disabled`. -/
theorem syncExpireReleasesWaiter : Obligations.SyncExpireReleasesWaiter := by
  refine fun s k => ⟨fun x hx hw ht => exec_syncExpire_enabled hx (State.expirable_iff.2 ⟨hw, ht⟩), fun h =>
    exec_syncExpire_disabled fun x hx => ?_⟩
  rw [← Bool.not_eq_true, State.expirable_iff]
  rintro ⟨hw, ht⟩
  rcases h x hx with hfree | hearly
  · exact Bool.false_ne_true (hfree.symm.trans hw)
  · exact absurd ht (not_le.2 hearly)

/-! ### Events of a waiter that is not there -/

/-- Waiter `k` is not there after either, and no event that releases it was emitted. -/
def StaysAbsent (k : Byte) (s t : State) : Prop :=
  s.dsp.w[k.toNat]? = none → t.dsp.w[k.toNat]? = none ∧ t.releasesOf k = s.releasesOf k

theorem WaitersKept.staysAbsent {s t : State} (h : WaitersKept s t) (k : Byte) : StaysAbsent k s t :=
  fun hk => ⟨h.waiters ▸ hk, h.events k⟩

/-- A SYNC_DONE names a waiter that is there (R191). -/
theorem WaiterDone.staysAbsent {s t : State} {f : Frame} (h : WaiterDone s t f) (k : Byte) : StaysAbsent k s t := by
  obtain ⟨j, x, hj, -, hw, he⟩ := h
  refine fun hk => ⟨by simpa [hw] using hk, releasesOf_append he ?_⟩
  have hne : j ≠ k := by
    rintro rfl
    cases hj.symm.trans hk
  simpa [Event.releases] using hne

theorem State.route_staysAbsent (s : State) (f : Frame) (k : Byte) : StaysAbsent k s (s.route f) := by
  rcases s.route_waiters f with h | h
  · exact h.staysAbsent k
  · exact h.staysAbsent k

theorem State.receive_staysAbsent (s : State) (b : Byte) (k : Byte) : StaysAbsent k s (s.receive b) := by
  rcases s.receive_waiters b with h | ⟨f, h⟩
  · exact h.staysAbsent k
  · exact h.staysAbsent k

theorem State.receiveAll_staysAbsent (l : List Byte) (s : State) (k : Byte) :
    StaysAbsent k s (l.foldl State.receive s) := by
  induction l generalizing s with
  | nil => exact fun hk => ⟨hk, rfl⟩
  | cons b l ih =>
    intro hk
    obtain ⟨hk', he⟩ := s.receive_staysAbsent b k hk
    obtain ⟨hk'', he'⟩ := ih (s.receive b) hk'
    exact ⟨hk'', he'.trans he⟩

/-- A router case performed alone is routing, and releases no waiter that is not there. -/
theorem routeCase_releasesOf_absent {s t : State} {cls : RtClass} {k : Byte} (hk : s.dsp.w[k.toNat]? = none)
    (h : s.routeCase cls (routeAct cls) = .next t) : t.releasesOf k = [] := by
  obtain ⟨f, -, -, hc, rfl⟩ := State.routeCase_eq_next.1 h
  subst hc
  exact (s.quiet.route_eq_routeAct f ▸ s.quiet.route_staysAbsent f k hk).2

/-- A case of RXBYTE performed alone emits nothing. -/
theorem rowCase_releasesOf {s t : State} {row : RxbRow} {b k : Byte}
    (h : s.rowCase row b (s.quiet.rxRow b row) = .next t) : t.releasesOf k = [] := by
  obtain ⟨-, rfl⟩ := State.rowCase_eq_next.1 h
  simp [State.releasesOf, (s.quiet.rxRow_rowFrame b row).events]

/-- No instruction emits an event that releases a waiter that is not there. -/
theorem exec_releasesOf_absent {i : Instr} {s t : State} {k : Byte} (h : exec i s = .next t)
    (hk : s.dsp.w[k.toNat]? = none) : t.releasesOf k = [] := by
  have async : ∀ ty body cb, (s.quiet.sendAsync ty body cb).releasesOf k = [] := fun ty body cb => by
    unfold State.sendAsync
    split_ifs <;> rfl
  cases i with
  | rxbyte b => cases h; exact (s.quiet.receive_staysAbsent b k hk).2
  | frame r => cases h; exact (s.quiet.receiveAll_staysAbsent (serialize r) k hk).2
  | sendAsync | sendAt | sendRemoteAt | sendData => cases h; exact async ..
  | sendFf ty body => simp only [exec, execSendFf] at h; split_ifs at h <;> (cases h; rfl)
  | sendSync ty body j => simp only [exec, execSendSync] at h; split_ifs at h <;> (cases h; rfl)
  | syncExpire j =>
    obtain ⟨x, hj, -, rfl⟩ := exec_syncExpire_next h
    have hne : j ≠ k := by
      rintro rfl
      cases hj.symm.trans hk
    simpa [State.releasesOf, Event.releases] using hne
  | subscribe sel => simp only [exec, execSubscribe] at h; split at h <;> (cases h; rfl)
  | routeAndClear =>
    simp only [exec, execRouteAndClear] at h
    split_ifs at h
    cases h
    exact (s.quiet.route_staysAbsent s.quiet.frame k hk).2
  | rtIoSample => exact routeCase_releasesOf_absent (cls := .ioSample) hk h
  | rtAtResp => exact routeCase_releasesOf_absent (cls := .atResp) hk h
  | rtRemoteAtResp => exact routeCase_releasesOf_absent (cls := .remoteAtResp) hk h
  | rtZbRx => exact routeCase_releasesOf_absent (cls := .zbRx) hk h
  | rtUnknown => exact routeCase_releasesOf_absent (cls := .unknown) hk h
  | rxbDrop => exact rowCase_releasesOf (row := .drop) h
  | rxbResync => exact rowCase_releasesOf (row := .resync) h
  | rxbStart => exact rowCase_releasesOf (row := .start) h
  | rxbSkip => exact rowCase_releasesOf (row := .skip) h
  | rxbLenhiOk => exact rowCase_releasesOf (row := .lenhiOk) h
  | rxbLenhiBad => exact rowCase_releasesOf (row := .lenhiBad) h
  | rxbLenlo => exact rowCase_releasesOf (row := .lenlo) h
  | rxbData => exact rowCase_releasesOf (row := .data) h
  | rxbCsumOk => exact rowCase_releasesOf (row := .csumOk) h
  | rxbCsumBad => exact rowCase_releasesOf (row := .csumBad) h
  | nop | asmReset | allocId | serialize | reset | reservedB | reservedC | reservedD | reservedE | reservedF =>
    cases h; rfl

/-! ### Who arms and who releases a waiter (R190 to R192, R194) -/

/-- The two events that release a waiter. -/
theorem State.releasesOf_ne_nil {s : State} {k : Byte} :
    s.releasesOf k ≠ [] ↔ (∃ f, Event.syncDone k f ∈ s.out.events) ∨ Event.syncNoframe k ∈ s.out.events := by
  rw [State.releasesOf, Ne, List.filter_eq_nil_iff]
  constructor
  · intro h
    push Not at h
    obtain ⟨e, he, hk⟩ := h
    cases e with
    | syncDone j f => exact .inl ⟨f, of_decide_eq_true hk ▸ he⟩
    | syncNoframe j => exact .inr (of_decide_eq_true hk ▸ he)
    | resp | dio | aio | rxd => cases hk
  · rintro (⟨f, he⟩ | he) h
    · exact h _ he (beq_self_eq_true k)
    · exact h _ he (beq_self_eq_true k)

/-- What RESET leaves: no event, and no waiter that waits (R270, R271). -/
theorem exec_reset_waiters {s t : State} (h : exec .reset s = .next t) :
    t.out.events = [] ∧ ∀ y ∈ t.dsp.w, y.waiting = false := by
  cases h
  refine ⟨rfl, fun y hy => ?_⟩
  obtain ⟨j, -, rfl⟩ := List.mem_map.1 hy
  rfl

/-- Waiter `k` was waiting and is not any more, with exactly one event for it: SYNC_NOFRAME for its expiry, and then not before
500 ticks, and SYNC_DONE for any other operation. -/
structure ReleasedBy (i : Instr) (s t : State) (k : Byte) (x : Waiter) : Prop where
  before : s.dsp.w[k.toNat]? = some x
  waiting : x.waiting = true
  after : t.dsp.w[k.toNat]? = some { x with waiting := false }
  event : ∃ e, t.releasesOf k = [e] ∧ (e = .syncNoframe k ↔ i = .syncExpire k) ∧
    (e = .syncNoframe k → 500 ≤ (s.now - x.tStart).toNat)

theorem ReleasedBy.not_kept {i : Instr} {s t : State} {k : Byte} {x : Waiter} (h : ReleasedBy i s t k x) :
    t.dsp.w[k.toNat]? ≠ some x := fun hk =>
  have hx : x = { x with waiting := false } := Option.some.inj (hk.symm.trans h.after)
  Bool.false_ne_true ((congrArg Waiter.waiting hx).symm.trans h.waiting)

/-- An instruction emits no event for a waiter, or releases it. -/
theorem exec_releasesOf {i : Instr} {s t : State} (h : exec i s = .next t) (k : Byte) :
    t.releasesOf k = [] ∨ ∃ x, ReleasedBy i s t k x := by
  cases hk : s.dsp.w[k.toNat]? with
  | none => exact .inl (exec_releasesOf_absent h hk)
  | some x =>
    cases exec_waiter h hk with
    | kept _ he => exact .inl he
    | done f hw ht he hi => exact .inr ⟨x, hk, hw, ht, _, he, by simp [hi], nofun⟩
    | expired hw ht he hi hold => exact .inr ⟨x, hk, hw, ht, _, he, by simp [hi], fun _ => hold⟩
    | armed _ _ _ _ he => exact .inl he
    | reset hi =>
      subst hi
      exact .inl (by simp [State.releasesOf, (exec_reset_waiters h).1])

/-- Without its event and without RESET a waiting waiter is kept. -/
theorem exec_waiting_kept {i : Instr} {s t : State} {k : Byte} {x : Waiter} (h : exec i s = .next t)
    (hk : s.dsp.w[k.toNat]? = some x) (hw : x.waiting = true) (hi : i ≠ .reset) (he : t.releasesOf k = []) :
    t.dsp.w[k.toNat]? = some x := by
  cases exec_waiter h hk with
  | kept ht => exact ht
  | done _ _ _ he' => cases he.symm.trans he'
  | expired _ _ he' => cases he.symm.trans he'
  | armed _ _ hw' => cases hw.symm.trans hw'
  | reset hi' => exact absurd hi' hi

/-- Settles O38: an event that releases the waiter is the one of `exec_releasesOf`. -/
theorem waiterReleasedOnce : Obligations.WaiterReleasedOnce := by
  intro i s t k h hev
  obtain ⟨x, hbefore, hw, hafter, e, he, -, hold⟩ :=
    (exec_releasesOf h k).resolve_left (State.releasesOf_ne_nil.2 hev)
  refine ⟨x, _, hbefore, hw, hafter, rfl, fun hmem => hold ?_⟩
  have hfilter : Event.syncNoframe k ∈ t.releasesOf k := List.mem_filter.2 ⟨hmem, beq_self_eq_true k⟩
  rw [he] at hfilter
  exact (List.mem_singleton.1 hfilter).symm

/-- Settles O40: arming by the cases of `exec_waiter`, disarming by `exec_waiting_kept`. -/
theorem waitersArmedAndReleasedOnlyByRule : Obligations.WaitersArmedAndReleasedOnlyByRule := by
  intro i s t j x y h hx hy hj
  obtain ⟨k, rfl, hk⟩ : ∃ k : Byte, k.toNat = j ∧ BitVec.ofNat 8 j = k := ⟨BitVec.ofNat 8 j, Nat.mod_eq_of_lt hj, rfl⟩
  rw [hk]
  refine ⟨fun hfree hwait => ?_, fun hwait hfree hi => State.releasesOf_ne_nil.1 fun he => ?_⟩
  · cases exec_waiter h hx with
    | kept ht =>
      cases hy.symm.trans ht
      cases hfree.symm.trans hwait
    | done _ hw => cases hfree.symm.trans hw
    | expired hw => cases hfree.symm.trans hw
    | armed ty body _ _ _ hi => exact ⟨ty, body, hi⟩
    | reset hi =>
      subst hi
      cases hwait.symm.trans ((exec_reset_waiters h).2 y (List.mem_of_getElem? hy))
  · cases hy.symm.trans (exec_waiting_kept h hx hwait hi he)
    cases hwait.symm.trans hfree

end Sys2Proof.Machine
end

section
/-! The outcome law of the synchronous send (R194) in every weakly fair execution (R248): what one instant does to a waiting
waiter, and that its expiry does not stay enabled for ever. -/

namespace Sys2Proof.Machine

/-- The state in which the operation of an instant is performed: `now` is sampled, nothing else is requested. -/
def Run.sampled (ρ : Run) (n : Nat) : State := { ρ.state n with now := ρ.clock n, inputs := [] }

/-- What may be performed has a word of its own (R110). -/
theorem Run.Legal.wf_of_open {ρ : Run} {n : Nat} {i : Instr} (hl : ρ.Legal) (h : ρ.Open n i) :
    i.wf = true ∧ i.isOperation = true := by
  cases i with
  | syncExpire k => exact ⟨rfl, rfl⟩
  | _ =>
    obtain ⟨hwf, hop, -⟩ := hl.asked n _ h
    exact ⟨hwf, hop⟩

/-- Everything an instant of an execution can do: nothing, or one operation. -/
theorem Run.Legal.instant {ρ : Run} (hl : ρ.Legal) (n : Nat) :
    (ρ.done n = none ∧ ρ.state (n + 1) = State.quiet { ρ.state n with inputs := [] }) ∨
    ∃ i, ρ.done n = some i ∧ exec i (ρ.sampled n) = .next (ρ.state (n + 1)) := by
  cases hd : ρ.done n with
  | none => exact .inl ⟨rfl, (Host.Outcome.next.inj (hl.idle n hd)).symm⟩
  | some i =>
    obtain ⟨hopen, hstep⟩ := hl.performs n i hd
    obtain ⟨hwf, hop⟩ := hl.wf_of_open hopen
    have hexec : step ((ρ.state n).asking (ρ.clock n) i) = exec i (ρ.sampled n) :=
      stepRunsEncodedOperation _ (ρ.clock n) [] i hwf hop rfl
    exact .inr ⟨i, rfl, hexec.symm.trans hstep⟩

/-- At an instant without RESET a waiting waiter is kept with no event for it, or is released. -/
theorem Run.Legal.waiter {ρ : Run} {n : Nat} {k : Byte} {x : Waiter} (hl : ρ.Legal)
    (hk : (ρ.state n).dsp.w[k.toNat]? = some x) (hw : x.waiting = true) (hr : ρ.done n ≠ some .reset) :
    ((ρ.state (n + 1)).dsp.w[k.toNat]? = some x ∧ (ρ.state (n + 1)).releasesOf k = []) ∨
    ∃ i, ρ.done n = some i ∧ ReleasedBy i (ρ.sampled n) (ρ.state (n + 1)) k x := by
  rcases hl.instant n with ⟨-, hs⟩ | ⟨i, hd, hexec⟩
  · exact .inl ⟨hs ▸ hk, hs ▸ rfl⟩
  · have hi : i ≠ .reset := fun e => hr (e ▸ hd)
    rcases exec_releasesOf hexec k with he | ⟨y, hrel⟩
    · exact .inl ⟨exec_waiting_kept hexec hk hw hi he, he⟩
    · cases hrel.before.symm.trans hk
      exact .inr ⟨i, hd, hrel⟩

/-- A waiter whose time is up does not wait for ever: its SYNC_EXPIRE would stay enabled, and weak fairness performs it. -/
theorem Run.WeaklyFair.exists_waiter_changed {ρ : Run} (hl : ρ.Legal) (hfair : ρ.WeaklyFair) {n due : Nat} {k : Byte}
    {x : Waiter} (hw : x.waiting = true)
    (hdue : ∀ m, due ≤ m → (ρ.state m).dsp.w[k.toNat]? = some x → 500 ≤ (ρ.clock m - x.tStart).toNat) :
    ∃ m, n ≤ m ∧ (ρ.state m).dsp.w[k.toNat]? ≠ some x := by
  by_contra hno
  push Not at hno
  have hopen : ∀ m, max n due ≤ m → ρ.Open m (.syncExpire k) := fun m hm =>
    have hk := hno m (le_of_max_le_left hm)
    ⟨x, hk, hw, hdue m (le_of_max_le_right hm) hk⟩
  obtain ⟨m, hm, hd⟩ := hfair _ _ hopen
  have hn : n ≤ m := le_of_max_le_left hm
  rcases hl.instant m with ⟨hidle, -⟩ | ⟨i, hd', hexec⟩
  · cases hd.symm.trans hidle
  · cases hd.symm.trans hd'
    obtain ⟨y, hy, -, hnext⟩ := exec_syncExpire_next hexec
    have hafter : (ρ.state (m + 1)).dsp.w[k.toNat]? = some { y with waiting := false } := by
      rw [hnext]
      exact List.getElem?_set_self (List.getElem?_eq_some_iff.1 hy).1
    cases (hno (m + 1) (Nat.le_succ_of_le hn)).symm.trans hafter
    cases hw

/-- The last instant up to which a property that does not last has held without a break. -/
theorem exists_last_of_not_forever {p : Nat → Prop} {n : Nat} (hp : p n) (h : ∃ m, n ≤ m ∧ ¬ p m) :
    ∃ m, n ≤ m ∧ (∀ j, n ≤ j → j ≤ m → p j) ∧ ¬ p (m + 1) := by
  by_contra hno
  push Not at hno
  have hall : ∀ m, n ≤ m → ∀ j, n ≤ j → j ≤ m → p j := fun m hm => by
    induction m, hm using Nat.le_induction with
    | base => exact fun j hj hj' => le_antisymm hj hj' ▸ hp
    | succ m hm ih =>
      intro j hj hj'
      rcases Nat.le_succ_iff.1 hj' with hle | rfl
      · exact ih j hj hle
      · exact hno m hm ih
  obtain ⟨m, hm, hnot⟩ := h
  exact hnot (hall m hm m hm le_rfl)

/-- Settles O39: up to the last instant at which the waiter is as at the start (`Run.WeaklyFair.exists_waiter_changed`), each
instant keeps it, and that one releases it (`Run.Legal.waiter`). -/
theorem fairRunReleasesWaiter : Obligations.FairRunReleasesWaiter := by
  intro ρ n due k x hl hfair hk hw hr hdue
  obtain ⟨m, hm, hsame, hlast⟩ := exists_last_of_not_forever (p := fun j => (ρ.state j).dsp.w[k.toNat]? = some x) hk
    (hfair.exists_waiter_changed hl hw hdue)
  refine ⟨m, hm, hsame, fun j hj hjm => ?_, ?_⟩
  · rcases hl.waiter (hsame j hj hjm.le) hw (hr j hj) with ⟨-, he⟩ | ⟨i, -, hrel⟩
    · exact he
    · exact absurd (hsame (j + 1) (Nat.le_succ_of_le hj) hjm) hrel.not_kept
  · rcases hl.waiter (hsame m hm le_rfl) hw (hr m hm) with ⟨hkept, -⟩ | ⟨i, hd, hrel⟩
    · exact absurd hkept hlast
    · obtain ⟨e, he, hiff, hold⟩ := hrel.event
      exact ⟨⟨e, he, by rw [hd, Option.some.injEq]; exact hiff, hold⟩, _, hrel.after, rfl⟩
end Sys2Proof.Machine
end

section
/-! The cases of ROUTE on an exposed frame (R210 to R219) and SUBSCRIBE (R230). -/

namespace Sys2Proof.Machine

/-- With RTR attached, the case of an exposed frame's class performed alone is that case on the quiet state (log 6). -/
theorem exec_class_eq_routeAct {s : State} {f : Frame} {cls : RtClass} (hf : s.exposed = some f)
    (hrtr : s.par.rtrAttached = true) (hcls : rtClass s.par.codes f.region = cls) :
    exec cls.toInstr s = .next (routeAct cls s.quiet f) := by
  rw [exec_class, State.routeCase_eq_next]
  exact ⟨f, hf, hrtr, hcls, rfl⟩

/-! ### Unknown types and SUBSCRIBE (R219, R230) -/

/-- A region without a type byte, or with one that is none of the router's four, is of the class unknown (R99). -/
theorem rtClass_eq_unknown {c : Codes} {r : List Byte}
    (h : ∀ b, r.head? = some b → b ≠ c.tIoSample ∧ b ≠ c.tAtResp ∧ b ≠ c.tRemoteAtResp ∧ b ≠ c.tZbRx) :
    rtClass c r = .unknown := by
  cases r with
  | nil => rfl
  | cons b r =>
    obtain ⟨hio, hat, hremote, hzb⟩ := h b rfl
    simp [rtClass, hio, hat, hremote, hzb]

/-- Settles O46: the region is of the class unknown (`rtClass_eq_unknown`), whose case only notes. -/
theorem unknownTypeIgnored : Obligations.UnknownTypeIgnored :=
  fun _ _ hf hrtr h => exec_class_eq_routeAct hf hrtr (rtClass_eq_unknown h)

/-- Settles O47: each value of `sel` is one branch of SUBSCRIBE. -/
theorem subscribeSetsItsBit : Obligations.SubscribeSetsItsBit :=
  fun _ => ⟨rfl, rfl, rfl, rfl⟩

/-! ### ZigBee Receive Packet (R218) -/

theorem State.zbRx_of_short (s : State) {f : Frame} (h : f.region.length < 12) : s.zbRx f = s.note .shortFrame :=
  if_pos h

/-- Behind a whole header RT.ZB_RX does nothing but publish to a registered subscriber. -/
theorem State.zbRx_of_header (s : State) {f : Frame} (h : 12 ≤ f.region.length) :
    s.zbRx f = { s with out := { s.out with
      events := s.out.events ++ if s.sub.rxdEn then [.rxd (f.region.drop 12)] else [] } } := by
  rw [State.zbRx, Frame.len, if_neg (not_lt.2 h)]
  cases s.sub.rxdEn
  · simp
  · rfl

/-- Settles O45, by the two cases of the length (`State.zbRx_of_short`, `State.zbRx_of_header`). -/
theorem zigbeeDataPublished : Obligations.ZigbeeDataPublished := by
  intro s f hf hrtr hcls
  have hexec : exec .rtZbRx s = .next (s.quiet.zbRx f) := exec_class_eq_routeAct hf hrtr hcls
  exact ⟨fun h => by rw [hexec, State.zbRx_of_short _ h]; rfl, fun h => by rw [hexec, State.zbRx_of_header _ h]; rfl⟩

/-! ### I/O Data Sample (R211) -/

theorem ioComplete_iff {r : List Byte} : ioComplete r = true ↔ 16 ≤ r.length ∧ ioNeed r ≤ r.length := by
  simp [ioComplete]

theorem u16be_eq_zero {h l : Byte} : u16be h l = 0 ↔ h = 0 ∧ l = 0 := by
  rw [u16be, ← BitVec.toNat_inj, BitVec.toNat_append]
  simp [← BitVec.toNat_inj]

/-- The digital mask is zero when both its bytes are. -/
theorem ioDmask_eq_zero {r : List Byte} : ioDmask r = 0 ↔ byteAt r 13 = 0 ∧ byteAt r 14 = 0 := u16be_eq_zero

/-- The analog samples begin behind the digital sample, if there is one. -/
theorem ioBase_eq (r : List Byte) : ioBase r = if byteAt r 13 = 0 ∧ byteAt r 14 = 0 then 16 else 18 := by
  rw [ioBase, ite_not]
  exact if_congr ioDmask_eq_zero rfl rfl

/-- The analog mask is the low four bits of byte 15. -/
theorem ioAmask_getLsbD (r : List Byte) {ch : Nat} (h : ch < 4) :
    (ioAmask r).getLsbD ch = (byteAt r 15).getLsbD ch := by
  simp [ioAmask, h]

/-- One channel more: its own bit of byte 15 is counted. -/
theorem channelsBelow_ioAmask_succ (r : List Byte) {ch : Nat} (h : ch < 4) :
    channelsBelow (ioAmask r) (ch + 1) =
      channelsBelow (ioAmask r) ch + if (byteAt r 15).getLsbD ch then 1 else 0 := by
  simp [channelsBelow, List.range_succ, List.countP_singleton, ioAmask_getLsbD r h]

/-- A channel's sample stands behind those of the channels below it, of which there are `m`. -/
theorem ioAnalog_eq {r : List Byte} {ch m : Nat} (h : ch < 4) (hm : channelsBelow (ioAmask r) ch = m) :
    ioAnalog r ch =
      if (byteAt r 15).getLsbD ch then
        some (byteAt r (ioBase r + 2 * m) ++ byteAt r (ioBase r + 2 * m + 1) : Half)
      else none := by
  rw [ioAnalog, ioAmask_getLsbD r h, hm]
  rfl

/-- Settles O44: the length test is `ioComplete_iff`, each channel's place `ioAnalog_eq` with the channels below it counted
one by one (`channelsBelow_ioAmask_succ`). -/
theorem ioSamplePublished : Obligations.IoSamplePublished := by
  intro s f hf hrtr hcls r n p a
  have hexec : exec .rtIoSample s = .next (s.quiet.ioSample f) := exec_class_eq_routeAct hf hrtr hcls
  have hp : ioBase f.region = p := ioBase_eq f.region
  have hc0 : channelsBelow (ioAmask f.region) 0 = 0 := rfl
  have hc1 : channelsBelow (ioAmask f.region) 1 = n 0 := by
    rw [channelsBelow_ioAmask_succ _ (by decide), hc0, Nat.zero_add]
    rfl
  have hc2 : channelsBelow (ioAmask f.region) 2 = n 0 + n 1 := by rw [channelsBelow_ioAmask_succ _ (by decide), hc1]; rfl
  have hc3 : channelsBelow (ioAmask f.region) 3 = n 0 + n 1 + n 2 := by
    rw [channelsBelow_ioAmask_succ _ (by decide), hc2]
    rfl
  have hc4 : channelsBelow (ioAmask f.region) 4 = n 0 + n 1 + n 2 + n 3 := by
    rw [channelsBelow_ioAmask_succ _ (by decide), hc3]
    rfl
  have hneed : ioNeed f.region = p + 2 * (n 0 + n 1 + n 2 + n 3) := by rw [ioNeed, hp, hc4]
  rw [hexec, State.ioSample_eq, ← hneed]
  refine ⟨fun hshort => ?_, fun hlen => ?_⟩
  · rw [if_neg fun h => by have := ioComplete_iff.1 h; omega]
    rfl
  · rw [if_pos (ioComplete_iff.2 hlen), ioAnalog_eq (by decide) hc0, ioAnalog_eq (by decide) hc1,
      ioAnalog_eq (by decide) hc2, ioAnalog_eq (by decide) hc3, hp]
    simp only [Ne, ioDmask_eq_zero]
    rfl

/-! ### Responses (R213 to R217, R191) -/

/-- Both response rows perform the step respond (R213, R216). -/
theorem exec_response {s : State} {f : Frame} (hf : s.exposed = some f) (hrtr : s.par.rtrAttached = true)
    {p : Instr × RtClass} (hp : p ∈ [(Instr.rtAtResp, RtClass.atResp), (.rtRemoteAtResp, .remoteAtResp)])
    (hcls : rtClass s.par.codes f.region = p.2) : exec p.1 s = .next (s.quiet.respond f) := by
  simp only [List.mem_cons, List.not_mem_nil, or_false] at hp
  rcases hp with rfl | rfl
  · exact exec_class_eq_routeAct hf hrtr hcls
  · exact exec_class_eq_routeAct hf hrtr hcls

theorem State.respond_of_no_id (s : State) {f : Frame} (h : f.id = none) : s.respond f = s.note .shortFrame := by
  simp only [State.respond, h]

theorem State.respond_of_miss {s : State} {f : Frame} {id : Byte} (hid : f.id = some id) (h : s.lookup id = none) :
    s.respond f = s.note .correlationMiss := by
  simp only [State.respond, hid, h]

theorem State.respond_of_hit {s : State} {f : Frame} {id : Byte} {cb : Cb} (hid : f.id = some id)
    (h : s.lookup id = some cb) :
    s.respond f = if keepsSlot s.par.codes f.region then s.deliver cb id f else (s.deliver cb id f).freeSlot id := by
  simp only [State.respond, hid, h]

/-- Settles O42: without an ID byte or with an ID that the table does not hold (`State.lookup_eq_none`), respond only
notes. -/
theorem uncorrelatedResponseDropped : Obligations.UncorrelatedResponseDropped := by
  intro s f hf hrtr p hp hcls
  rw [exec_response hf hrtr hp hcls]
  refine ⟨fun hshort => ?_, fun id hid hmiss => ?_⟩
  · rw [State.respond_of_no_id _ (List.getElem?_eq_none (Nat.le_of_lt_succ hshort))]
    rfl
  · rw [State.respond_of_miss (s := s.quiet) hid (State.lookup_eq_none.2 hmiss)]
    rfl

/-- The discovery test in the statement's words; the body length it also tests is implied (R215). -/
theorem keepsSlot_iff {c : Codes} {r : List Byte} :
    keepsSlot c r = true ↔ 4 ≤ r.length ∧ r[2]? = some c.disc0 ∧ r[3]? = some c.disc1 := by
  by_cases h : 4 ≤ r.length
  · have hbody : r.length - 2 ≠ 0 := by omega
    simp [keepsSlot, byteAt, h, hbody, show 2 < r.length by omega, show 3 < r.length by omega]
  · simp [keepsSlot, h]

theorem State.deliverSync_of_live {s : State} {k id : Byte} {x : Waiter} (f : Frame) (hx : s.dsp.w[k.toNat]? = some x)
    (h : x.waiting = true ∧ x.id = id) : s.deliverSync k id f = (s.release k x).emit (.syncDone k f) := by
  simp [State.deliverSync, hx, h]

theorem State.deliverSync_of_stale {s : State} {k id : Byte} {x : Waiter} (f : Frame)
    (hx : s.dsp.w[k.toNat]? = some x) (h : ¬(x.waiting = true ∧ x.id = id)) : s.deliverSync k id f = s := by
  simp only [State.deliverSync, hx, Bool.and_eq_true, beq_iff_eq, if_neg h]

/-- A response that finds its slot has the outputs and the waiters of the delivery: the conditional clear touches
neither (R214). -/
theorem State.respond_out_waiters {s : State} {f : Frame} {id : Byte} {cb : Cb} (hid : f.id = some id)
    (h : s.lookup id = some cb) :
    (s.respond f).out = (s.deliver cb id f).out ∧ (s.respond f).dsp.w = (s.deliver cb id f).dsp.w := by
  rw [State.respond_of_hit hid h]
  split <;> exact ⟨rfl, rfl⟩

/-- The table after a response that finds its slot: kept for discovery, else with that slot emptied (R214, R215). -/
theorem State.respond_tbl {s : State} {f : Frame} {id : Byte} {cb : Cb} (hid : f.id = some id)
    (h : s.lookup id = some cb) :
    (s.respond f).dsp.tbl =
      if keepsSlot s.par.codes f.region then s.dsp.tbl else s.dsp.tbl.setIfInBounds id.toNat .empty := by
  rw [State.respond_of_hit hid h]
  split
  · exact s.deliver_tbl cb id f
  · rw [State.freeSlot_dsp, State.deliver_tbl]
    rfl

/-- Settles O43: the outputs and the waiters are those of the delivery (`State.respond_out_waiters`), the table by
`State.respond_tbl`, and all else is what the router never writes. -/
theorem correlatedResponseDelivered : Obligations.CorrelatedResponseDelivered := by
  intro s f hf hrtr p hp hcls id cb hid hslot
  have hfound : s.quiet.lookup id = some cb := State.lookup_eq_some.2 hslot
  obtain ⟨hout, hw⟩ := State.respond_out_waiters hid hfound
  have htbl := State.respond_tbl hid hfound
  have hkeep := s.quiet.respond_routerFrame f
  refine ⟨_, exec_response hf hrtr hp hcls, ?_, ?_, ?_, ⟨fun hdisc => ?_, fun hdisc => ?_⟩, hkeep.nextId, hkeep.asm,
    hkeep.sub, hkeep.draws, hkeep.par, hkeep.now, hkeep.inputs⟩
  · rintro x rfl
    exact ⟨hout, hw⟩
  · rintro rfl
    exact ⟨hout, hw⟩
  · rintro k x rfl hx
    refine ⟨fun hlive => ?_, fun hstale => ?_⟩
    · rw [State.deliver, State.deliverSync_of_live (s := s.quiet) f hx hlive] at hout hw
      exact ⟨hout, hw⟩
    · rw [State.deliver, State.deliverSync_of_stale (s := s.quiet) f hx hstale] at hout hw
      exact ⟨hout, hw⟩
  · rw [htbl]
    exact if_pos (keepsSlot_iff.2 hdisc)
  · obtain ⟨hid10, -⟩ := Vector.getElem?_eq_some_iff.1 hslot
    rw [htbl, State.quiet_par, State.quiet_dsp, if_neg (keepsSlot_iff.not.2 hdisc)]
    exact ⟨Vector.getElem?_setIfInBounds_self_of_lt hid10, fun j hj => Vector.getElem?_setIfInBounds_ne hj.symm⟩

end Sys2Proof.Machine
end

section
/-! Event discipline (R231, R243): what one operation emits and notes. -/

namespace Sys2Proof.Machine

/-- Nothing was emitted or noted since the operation began. -/
def Silent (s : State) : Prop := s.out.events = [] ∧ s.out.notes = []

/-- What one operation may emit and note (R231, R243). -/
structure Disciplined (t : State) : Prop where
  notes : t.out.notes.length ≤ 1
  events : t.out.events.length ≤ 1 ∨ ∃ v a0 a1 a2 a3, t.out.events = [.dio v, .aio a0 a1 a2 a3]

theorem Disciplined.of_out_eq {s t : State} (h : Disciplined s) (ho : t.out = s.out) : Disciplined t := by
  constructor
  · rw [ho]; exact h.notes
  · rw [ho]; exact h.events

theorem State.quiet_silent (s : State) : Silent s.quiet := ⟨rfl, rfl⟩

theorem Silent.disciplined {s : State} (h : Silent s) : Disciplined s := by
  obtain ⟨he, hn⟩ := h
  exact ⟨by simp [hn], by simp [he]⟩

theorem Silent.note_disciplined {s : State} (h : Silent s) (c : Cause) : Disciplined (s.note c) := by
  obtain ⟨he, hn⟩ := h
  exact ⟨by simp [hn], by simp [he]⟩

theorem Silent.emit_disciplined {s : State} (h : Silent s) (e : Event) : Disciplined (s.emit e) := by
  obtain ⟨he, hn⟩ := h
  exact ⟨by simp [hn], by simp [he]⟩

theorem Silent.refuse_disciplined {s : State} (h : Silent s) : Disciplined s.refuse :=
  ⟨(h.note_disciplined .refused).notes, (h.note_disciplined .refused).events⟩

/-! ### Routing -/

theorem Silent.deliver_disciplined {s : State} (h : Silent s) (cb : Cb) (id : Byte) (f : Frame) :
    Disciplined (s.deliver cb id f) := by
  rcases s.deliver_cases cb id f with ⟨e, -⟩ | ⟨t, -, e⟩ | ⟨k, x, -, -, -, -, e⟩ <;> rw [e]
  · exact h.disciplined
  · exact h.emit_disciplined _
  · exact Silent.emit_disciplined (s := s.release k x) h _

theorem Silent.respond_disciplined {s : State} (h : Silent s) (f : Frame) : Disciplined (s.respond f) := by
  rcases s.respond_cases f with ⟨-, e⟩ | ⟨id, -, -, e⟩ | ⟨id, cb, hid, hl, -⟩
  · exact e ▸ h.note_disciplined _
  · exact e ▸ h.note_disciplined _
  · exact (h.deliver_disciplined cb id f).of_out_eq (State.respond_out_waiters hid hl).1

/-- The two conditions of DIO and AIO are independent, and DIO comes first (R211). -/
theorem Silent.ioSample_disciplined {s : State} (h : Silent s) (f : Frame) : Disciplined (s.ioSample f) := by
  rw [State.ioSample_eq]
  split
  · obtain ⟨he, hn⟩ := h
    refine ⟨by simp [hn], ?_⟩
    rw [he]
    split_ifs
    · exact .inr ⟨_, _, _, _, _, rfl⟩
    · exact .inl le_rfl
    · exact .inl le_rfl
    · exact .inl (Nat.zero_le 1)
  · exact h.note_disciplined _

theorem Silent.zbRx_disciplined {s : State} (h : Silent s) (f : Frame) : Disciplined (s.zbRx f) := by
  unfold State.zbRx
  split_ifs
  · exact h.note_disciplined _
  · exact h.emit_disciplined _
  · exact h.disciplined

theorem Silent.route_disciplined {s : State} (h : Silent s) (f : Frame) : Disciplined (s.route f) := by
  unfold State.route
  split
  · exact h.ioSample_disciplined f
  · exact h.respond_disciplined f
  · exact h.respond_disciplined f
  · exact h.zbRx_disciplined f
  · exact h.note_disciplined _

theorem routeCase_disciplined {s t : State} {cls : RtClass} (h : s.routeCase cls (routeAct cls) = .next t) :
    Disciplined t := by
  obtain ⟨f, -, -, rfl, rfl⟩ := State.routeCase_eq_next.1 h
  exact s.quiet.route_eq_routeAct f ▸ s.quiet_silent.route_disciplined f

/-! ### RXBYTE -/

/-- A case of RXBYTE emits nothing and notes at most one cause (R131 to R140). -/
theorem Silent.rxRow_disciplined {s : State} (h : Silent s) (b : Byte) (row : RxbRow) : Disciplined (s.rxRow b row) := by
  cases row with
  | drop => exact h.note_disciplined _
  | resync | lenhiBad | csumBad => exact (h.note_disciplined _).of_out_eq rfl
  | start | skip | lenhiOk | lenlo | data | csumOk => exact h.disciplined.of_out_eq rfl

theorem rowCase_disciplined {s t : State} {row : RxbRow} {b : Byte}
    (h : s.rowCase row b (s.quiet.rxRow b row) = .next t) : Disciplined t := by
  obtain ⟨-, rfl⟩ := State.rowCase_eq_next.1 h
  exact s.quiet_silent.rxRow_disciplined b row

/-- Only RXB.CSUM_OK hands a frame over (`State.rxRow_complete`), and it notes nothing: routing begins with no output. -/
theorem Silent.receive_disciplined {s : State} (h : Silent s) (b : Byte) : Disciplined (s.receive b) := by
  rcases s.receive_cases b with ⟨-, e⟩ | ⟨hd, u, hu, ⟨hc, -, e⟩ | ⟨-, e⟩⟩ <;> rw [e]
  · exact h.note_disciplined _
  · have hsilent : Silent u := by
      subst hu
      rw [State.rxRow_complete hd hc]
      exact h
    exact (hsilent.route_disciplined u.frame).of_out_eq rfl
  · exact (h.rxRow_disciplined b _).of_out_eq (by rw [hu])

/-! ### Every instruction -/

theorem Silent.sendAsync_disciplined {s : State} (h : Silent s) (ty : Byte) (body : List Byte) (cb : Option Byte) :
    Disciplined (s.sendAsync ty body cb) := by
  unfold State.sendAsync
  split_ifs
  · exact h.refuse_disciplined
  · exact ⟨h.disciplined.notes, h.disciplined.events⟩

/-- Every instruction but FRAME keeps the discipline. -/
theorem exec_disciplined {i : Instr} {s t : State} (h : exec i s = .next t) (hi : ∀ r, i ≠ .frame r) :
    Disciplined t := by
  have hq := s.quiet_silent
  cases i with
  | nop | asmReset | allocId | serialize | reset => cases h; exact Silent.disciplined ⟨rfl, rfl⟩
  | reservedB | reservedC | reservedD | reservedE | reservedF => cases h; exact hq.refuse_disciplined
  | sendAsync | sendAt | sendRemoteAt | sendData => cases h; exact hq.sendAsync_disciplined ..
  | sendFf ty body =>
    simp only [exec, execSendFf] at h
    split_ifs at h <;> cases h
    · exact hq.refuse_disciplined
    · exact Silent.disciplined ⟨rfl, rfl⟩
  | sendSync ty body k =>
    simp only [exec, execSendSync] at h
    split_ifs at h <;> cases h
    · exact hq.refuse_disciplined
    · exact Silent.disciplined ⟨rfl, rfl⟩
  | subscribe sel =>
    simp only [exec, execSubscribe] at h
    split at h <;> cases h
    · exact Silent.disciplined ⟨rfl, rfl⟩
    · exact Silent.disciplined ⟨rfl, rfl⟩
    · exact Silent.disciplined ⟨rfl, rfl⟩
    · exact hq.refuse_disciplined
  | syncExpire k =>
    obtain ⟨x, -, -, rfl⟩ := exec_syncExpire_next h
    exact ⟨le_rfl, .inl le_rfl⟩
  | rxbyte b => cases h; exact hq.receive_disciplined b
  | frame r => exact absurd rfl (hi r)
  | routeAndClear =>
    simp only [exec, execRouteAndClear] at h
    split_ifs at h
    cases h
    exact (hq.route_disciplined s.quiet.frame).of_out_eq rfl
  | rtIoSample => exact routeCase_disciplined (cls := .ioSample) h
  | rtAtResp => exact routeCase_disciplined (cls := .atResp) h
  | rtRemoteAtResp => exact routeCase_disciplined (cls := .remoteAtResp) h
  | rtZbRx => exact routeCase_disciplined (cls := .zbRx) h
  | rtUnknown => exact routeCase_disciplined (cls := .unknown) h
  | rxbDrop => exact rowCase_disciplined (row := .drop) h
  | rxbResync => exact rowCase_disciplined (row := .resync) h
  | rxbStart => exact rowCase_disciplined (row := .start) h
  | rxbSkip => exact rowCase_disciplined (row := .skip) h
  | rxbLenhiOk => exact rowCase_disciplined (row := .lenhiOk) h
  | rxbLenhiBad => exact rowCase_disciplined (row := .lenhiBad) h
  | rxbLenlo => exact rowCase_disciplined (row := .lenlo) h
  | rxbData => exact rowCase_disciplined (row := .data) h
  | rxbCsumOk => exact rowCase_disciplined (row := .csumOk) h
  | rxbCsumBad => exact rowCase_disciplined (row := .csumBad) h

/-- Settles O49, by cases on the instruction (`exec_disciplined`). -/
theorem eventDiscipline : Obligations.EventDiscipline := by
  intro i s t h hi
  obtain ⟨hnotes, hevents⟩ := exec_disciplined h hi
  exact ⟨hnotes, hevents⟩

end Sys2Proof.Machine
end

section
/-! Hardware's priority in one cycle (R248, R104, R106, R192). -/

namespace Sys2Proof.Machine

/-! ### The lowest enabled expiry (R192) -/

theorem firstExpirable_cons_of_expirable {s : State} {x : Waiter} (hx : s.expirable x = true) (rest : List Waiter) (n : Nat) :
    firstExpirable s (x :: rest) n = some (BitVec.ofNat 8 n) := if_pos hx

theorem firstExpirable_cons_of_not_expirable {s : State} {x : Waiter} (hx : s.expirable x = false) (rest : List Waiter)
    (n : Nat) : firstExpirable s (x :: rest) n = firstExpirable s rest (n + 1) :=
  if_neg (Bool.eq_false_iff.1 hx)

/-- With no waiter expirable the search finds none. -/
theorem firstExpirable_eq_none {s : State} {l : List Waiter} (h : ∀ x ∈ l, s.expirable x = false) (n : Nat) :
    firstExpirable s l n = none := by
  induction l generalizing n with
  | nil => rfl
  | cons x rest ih =>
    obtain ⟨hx, hrest⟩ := List.forall_mem_cons.1 h
    rw [firstExpirable_cons_of_not_expirable hx, ih hrest]

/-- The search, counting from `n`, answers the position of the first expirable waiter. -/
theorem firstExpirable_eq_lowest {s : State} {l : List Waiter} {k : Nat} {x : Waiter} (hk : l[k]? = some x)
    (hx : s.expirable x = true) (hlow : ∀ j y, j < k → l[j]? = some y → s.expirable y = false) (n : Nat) :
    firstExpirable s l n = some (BitVec.ofNat 8 (n + k)) := by
  induction l generalizing k n with
  | nil => cases hk
  | cons z rest ih =>
    cases k with
    | zero =>
      cases hk
      exact firstExpirable_cons_of_expirable hx rest n
    | succ k =>
      have hz : s.expirable z = false := hlow 0 z k.succ_pos rfl
      have hrest : firstExpirable s rest (n + 1) = some (BitVec.ofNat 8 (n + 1 + k)) :=
        ih hk (fun j y hj hy => hlow (j + 1) y (Nat.succ_lt_succ hj) hy) (n + 1)
      rw [firstExpirable_cons_of_not_expirable hz, hrest, Nat.add_right_comm, Nat.add_assoc]

/-- A waiter younger than 500 ticks, if it waits at all, is not expirable (R192). -/
theorem State.expirable_eq_false_of_young {s : State} {x : Waiter} (h : x.waiting = true → (s.now - x.tStart).toNat < 500) :
    s.expirable x = false :=
  Bool.eq_false_iff.2 fun he =>
    have ⟨hw, ht⟩ := State.expirable_iff.1 he
    Nat.not_lt.2 ht (h hw)

/-! ### The request of a cycle -/

theorem State.cycleRequest_of_rst (s : State) {c : Cycle} (h : c.rst = true) :
    s.cycleRequest c = some ⟨c.now, .rst, []⟩ := if_pos h

theorem State.cycleRequest_of_rxValid (s : State) {c : Cycle} (hrst : c.rst = false) (hrx : c.rxValid = true) :
    s.cycleRequest c = some ⟨c.now, .rx, [c.rxData]⟩ := by
  simp [State.cycleRequest, hrst, hrx]

/-- With neither reset nor byte, an enabled expiry takes the cycle (R248). -/
theorem State.cycleRequest_of_dueExpiry {s : State} {c : Cycle} {k : Byte} (hrst : c.rst = false) (hrx : c.rxValid = false)
    (hk : s.dueExpiry c.now = some k) : s.cycleRequest c = some ⟨c.now, .timer, [k]⟩ := by
  simp [State.cycleRequest, hrst, hrx, hk]

/-- With neither reset, byte nor expiry, the cycle is the command port's (R106). -/
theorem State.cycleRequest_of_no_dueExpiry {s : State} {c : Cycle} (hrst : c.rst = false) (hrx : c.rxValid = false)
    (hk : s.dueExpiry c.now = none) :
    s.cycleRequest c = if c.cmdValid then some ⟨c.now, .cmd, c.cmdBytes⟩ else none := by
  simp [State.cycleRequest, hrst, hrx, hk]

/-- Settles O10, by cases on what takes the cycle; the lowest expirable waiter is the one the search finds
(`firstExpirable_eq_lowest`). -/
theorem hardwarePriority : Obligations.HardwarePriority := by
  intro s c
  refine ⟨s.cycleRequest_of_rst, s.cycleRequest_of_rxValid, fun hrst hrx => ⟨fun k x hk hw ht hlow => ?_, fun hyoung => ?_⟩⟩
  · have hdue : s.dueExpiry c.now = some (BitVec.ofNat 8 (0 + k)) :=
      firstExpirable_eq_lowest hk (State.expirable_iff.2 ⟨hw, ht⟩)
        (fun j y hj hy => State.expirable_eq_false_of_young (hlow j y hj hy)) 0
    rw [Nat.zero_add] at hdue
    exact State.cycleRequest_of_dueExpiry hrst hrx hdue
  · have hnone : s.dueExpiry c.now = none :=
      firstExpirable_eq_none (fun x hx => State.expirable_eq_false_of_young (hyoung x hx)) 0
    exact State.cycleRequest_of_no_dueExpiry hrst hrx hnone

end Sys2Proof.Machine
end

section
/-! Reset (R270, R271): the operation RESET from any state, and the machine right after reset. -/

namespace Sys2Proof.Machine

/-- The TBL that reset fills with empty slots holds no ID and no purpose in any slot (R31, R270). -/
theorem emptyTbl_slot (i : Nat) (h : i < 10) :
    (Vector.replicate 10 Slot.empty)[i] = ⟨false, .none⟩ := Vector.getElem_replicate h

/-- No waiter waits right after reset, however many there are (R33, R270). -/
theorem dspReset_not_waiting (p : Params) {x : Waiter} (hx : x ∈ (Dsp.reset p).w) : x.waiting = false := by
  rw [List.eq_of_mem_replicate hx]
  rfl

/-- Settles O51. RESET is *clear* for ASM and empties TBL; the number of waiters is a parameter, which no instruction writes
(`parametersNeverWritten`), and none of them waits (`exec_reset_waiters`). -/
theorem resetOperation : Obligations.ResetOperation := by
  intro s
  obtain ⟨t, h⟩ : ∃ t, exec .reset s = .next t := ⟨_, rfl⟩
  obtain ⟨hinputs, hlen⟩ := parametersNeverWritten .reset s t h
  obtain ⟨-, hidle⟩ := exec_reset_waiters h
  cases h
  exact ⟨_, rfl, rfl, rfl, rfl, rfl, rfl, rfl, emptyTbl_slot, hlen, hidle, rfl, hinputs, rfl⟩

/-- Settles O52: the reset state is given outright, and `ID_LO` stands on both sides of the counter's clause. -/
theorem resetState : Obligations.ResetState :=
  ⟨rfl, rfl, rfl, rfl, rfl, rfl, emptyTbl_slot, fun _ => dspReset_not_waiting _, rfl⟩

end Sys2Proof.Machine
end
